-- ==== Sys2Proof/Word.lean ====
section
/-! DEFINITION. The widths of the fabric's data (00_scope.md R7; 20_memory.md R51; 30_encoding.md R110). -/

namespace Sys2Proof

/-- Every datum the fabric moves, every unit id and every vector is one byte (20_memory.md R51; 30_encoding.md R112). -/
abbrev Byte := BitVec 8

/-- The field `ARG`: an address, index, offset or size (30_encoding.md R110). -/
abbrev Word32 := BitVec 32

/-- A head word or an extension word of an operation (30_encoding.md R110, R111). -/
abbrev OpWord := BitVec 64

end Sys2Proof
end

