-- ==== Sys2Proof/Syntax.lean ====
section
/-! DEFINITION. The operations of the fabric, one constructor for each row of spec/opcode_table.json
(30_encoding.md R114), and the names their fields stand for (30_encoding.md R113). -/

namespace Sys2Proof

/-- The four line modes, which are also the four levels a line can have (30_encoding.md R113; 10_state.md R27). -/
inductive LineMode where
  | clear
  | assert
  | pulse
  | hold
deriving DecidableEq, Repr

/-- The two address spaces of a CPU (20_memory.md R50). -/
inductive Space where
  | mem
  | io
deriving DecidableEq, Repr

/-- The access modes of a bus range (10_state.md R25; 30_encoding.md R113). -/
inductive Access where
  | r
  | w
  | rw
deriving DecidableEq, Repr

/-- The direction of one access (20_memory.md R57). -/
inductive Dir where
  | rd
  | wr
deriving DecidableEq, Repr

/-- The open-bus policies (20_memory.md R60). -/
inductive OpenBusPolicy where
  | last
  | const
deriving DecidableEq, Repr

/-- What an out-of-range BANK.SELECT does (40_bank.md R141). -/
inductive BankPolicy where
  | noop
  | clamp
deriving DecidableEq, Repr

/-- The latch modes (10_state.md R39). -/
inductive LatchMode where
  | separateAck
  | readClears
deriving DecidableEq, Repr

/-- How a latch drives its target line (41_latch.md R161). -/
inductive Fire where
  | level
  | pulse
deriving DecidableEq, Repr

/-- The ten target kinds of a bus range with their operands as the extension word `E2` carries them
(30_encoding.md R115). Operand values that only BUS.REGISTER_RANGE may judge (a shift, a bit number, a line mode code)
are kept as the bytes they are (42_bus.md R180). -/
inductive Target where
  | kMem (region : Byte) (roff : Word32)
  | kBank (bank : Byte)
  | kLatchData (latch : Byte)
  | kLatchAck (latch : Byte)
  | kStatus (l0 l1 l2 l3 : Byte) (valid invert : BitVec 4)
  | kBankSel (bank shift mask : Byte)
  | kLine (tcpu line mode vec : Byte) (hasVec : Bool)
  | kLineBit (tcpu line bit active : Byte)
  | kInput (src : Byte)
  | kSink (sink : Byte)
deriving DecidableEq, Repr

/-- The wiring of the peripheral adapter, `PCFG` without its `configured` flag (44_peripheral.md R250). -/
structure PortWiring where
  outLatch : Byte
  inLatch : Byte
  rstCpu : Byte
  mcu : Byte
  outBit : BitVec 3
  ackBit : BitVec 3
  p2selLo : BitVec 3
  p3selLo : BitVec 3
  rstBit : BitVec 3
  rstActive : Bool
  inpBit : BitVec 3
  outpBit : BitVec 3
  p2src0 : Byte
  p2src1 : Byte
  p2src2 : Byte
  dip0 : Byte
  dip1 : Byte
deriving DecidableEq, Repr

/-- The operations (30_encoding.md R114), in the order of spec/opcode_table.json. -/
inductive Instr where
  | sysReset
  | sysSave (slot : Byte)
  | sysRestore (slot : Byte)
  | sysStart
  | regionDefine (r : Byte) (mutbl : Bool) (size : Word32)
  | bankConfigure (b : Byte) (policy : BankPolicy) (startIndex : Word32) (region : Byte)
      (count windowSize xorMask : Word32)
  | bankSelect (b : Byte) (index : Word32)
  | bankRead (b : Byte) (offset : Word32)
  | bankWrite (b : Byte) (offset : Word32) (v : Byte)
  | latchConfigure (l : Byte) (mode : LatchMode) (hasTarget : Bool) (fire : Fire) (deassert hasVec : Bool)
      (tcpu tline vec : Byte)
  | latchWrite (l v : Byte)
  | latchRead (l : Byte)
  | latchAck (l : Byte)
  | latchPendingR (l : Byte)
  | busRegisterRange (c : Byte) (mode : Access) (space : Space) (lo hi : Word32) (target : Target)
  | busRead (c : Byte) (addr : Word32)
  | busWrite (c : Byte) (addr : Word32) (v : Byte)
  | busSetPolicy (c : Byte) (policy : OpenBusPolicy) (space : Space) (mask : Word32) (obc : Byte)
  | ioRead (c : Byte) (addr : Word32)
  | ioWrite (c : Byte) (addr : Word32) (v : Byte)
  | lineClear (c n : Byte)
  | lineAssert (c n : Byte) (hasVec : Bool) (vec : Byte)
  | linePulse (c n : Byte) (hasVec : Bool) (vec : Byte)
  | lineHold (c n : Byte) (hasVec : Bool) (vec : Byte)
  | cpuPoll (c : Byte)
  | cpuIack (c n : Byte)
  | scanConfigure (c n : Byte) (scanline : BitVec 16) (mode : LineMode) (hasVec : Bool) (vec : Byte)
  | scanAdvance
  | perConfigure (c n : Byte) (hz : BitVec 16) (mode : LineMode) (hasVec : Bool) (vec : Byte)
  | perTick (j : Byte)
  | portConfigure (w : PortWiring)
  | p0Read
  | p1Read
  | p2Read
  | p3Read
  | p0Write (v : Byte)
  | p1Write (v : Byte)
  | p2Write (v : Byte)
  | p3Write (v : Byte)
deriving DecidableEq, Repr

end Sys2Proof
end

