-- ==== Sys2Proof/WellFormed.lean ====
section
/-! DEFINITION. Which operations have an encoding: the checks on field values that 30_encoding.md R117 and
43_coordinator.md R212 to R214 make before any state is looked at, for the operands whose type does not already
exclude the illegal value. -/

namespace Sys2Proof

/-- A vector byte is zero where no vector is given (43_coordinator.md R212). -/
def vectorOk (hasVec : Bool) (vec : Byte) : Bool := hasVec || vec == 0

/-- A timer entry's mode is not CLEAR (30_encoding.md R117). -/
def timerModeOk (mode : LineMode) : Bool := mode != .clear

/-- The operation is one the encoding has a word for. -/
def Instr.wf : Instr → Bool
  | .lineAssert _ _ hasVec vec => vectorOk hasVec vec
  | .linePulse _ _ hasVec vec => vectorOk hasVec vec
  | .lineHold _ _ hasVec vec => vectorOk hasVec vec
  | .scanConfigure _ _ _ mode _ _ => timerModeOk mode
  | .perConfigure _ _ _ mode _ _ => timerModeOk mode
  | .sysReset | .sysSave _ | .sysRestore _ | .sysStart => true
  | .regionDefine _ _ _ => true
  | .bankConfigure _ _ _ _ _ _ _ | .bankSelect _ _ | .bankRead _ _ | .bankWrite _ _ _ => true
  | .latchConfigure _ _ _ _ _ _ _ _ _ | .latchWrite _ _ | .latchRead _ | .latchAck _ | .latchPendingR _ => true
  | .busRegisterRange _ _ _ _ _ _ | .busRead _ _ | .busWrite _ _ _ | .busSetPolicy _ _ _ _ _ => true
  | .ioRead _ _ | .ioWrite _ _ _ => true
  | .lineClear _ _ | .cpuPoll _ | .cpuIack _ _ => true
  | .scanAdvance | .perTick _ => true
  | .portConfigure _ => true
  | .p0Read | .p1Read | .p2Read | .p3Read => true
  | .p0Write _ | .p1Write _ | .p2Write _ | .p3Write _ => true

end Sys2Proof
end

