-- ==== Sys2Proof/Decode.lean ====
section
/-! DEFINITION. The operation words (30_encoding.md): the decoder, total on any list of words, and the encoder. -/

namespace Sys2Proof

/-- Bits `lo + len - 1 .. lo` of a word (00_scope.md R7). -/
def slice {n : Nat} (lo len : Nat) (w : BitVec n) : BitVec len := w.extractLsb' lo len

/-- Bit `k` of a word. -/
def flagAt {n : Nat} (k : Nat) (w : BitVec n) : Bool := w.getLsbD k

/-! ## Identifier codes (30_encoding.md R113) -/

def LineMode.code : LineMode → BitVec 2
  | .clear => 0
  | .assert => 1
  | .pulse => 2
  | .hold => 3

/-- The mode a two-bit code names. -/
def LineMode.ofCode (k : BitVec 2) : LineMode :=
  if k = 0 then .clear else if k = 1 then .assert else if k = 2 then .pulse else .hold

def Space.code : Space → Bool
  | .mem => false
  | .io => true

def Space.ofCode (k : Bool) : Space := if k then .io else .mem

def Access.code : Access → BitVec 2
  | .r => 1
  | .w => 2
  | .rw => 3

/-- The access mode a code names; 0 is illegal (30_encoding.md R117). -/
def Access.ofCode (k : BitVec 2) : Option Access :=
  if k = 0 then none else if k = 1 then some .r else if k = 2 then some .w else some .rw

def OpenBusPolicy.code : OpenBusPolicy → Bool
  | .last => false
  | .const => true

def OpenBusPolicy.ofCode (k : Bool) : OpenBusPolicy := if k then .const else .last

def BankPolicy.code : BankPolicy → Bool
  | .noop => false
  | .clamp => true

def BankPolicy.ofCode (k : Bool) : BankPolicy := if k then .clamp else .noop

def LatchMode.code : LatchMode → Bool
  | .separateAck => false
  | .readClears => true

def LatchMode.ofCode (k : Bool) : LatchMode := if k then .readClears else .separateAck

def Fire.code : Fire → Bool
  | .level => false
  | .pulse => true

def Fire.ofCode (k : Bool) : Fire := if k then .pulse else .level

/-! ## The head word (30_encoding.md R110) -/

/-- The five fields of a head word. -/
structure Head where
  opc : Byte
  unit : Byte
  aux : Byte
  arg : Word32
  data : Byte
deriving DecidableEq, Repr

/-- The head word of five fields. -/
def Head.word (h : Head) : OpWord := h.opc ++ h.unit ++ h.aux ++ h.arg ++ h.data

/-- The five fields of a head word. -/
def Head.ofWord (w : OpWord) : Head where
  opc := slice 56 8 w
  unit := slice 48 8 w
  aux := slice 40 8 w
  arg := slice 8 32 w
  data := slice 0 8 w

/-- The number of extension words that follow a head word with this opcode (30_encoding.md R114, R118). -/
def extWords (opc : Byte) : Nat :=
  if opc = 0x10 then 3 else if opc = 0x30 then 2 else if opc = 0x50 then 1 else 0

/-! ## Packed fields -/

/-- `ARG` of LINE.ASSERT, LINE.PULSE and LINE.HOLD: bit 0 is `has_vec` (43_coordinator.md R212). -/
def packVec (hasVec : Bool) : Word32 := 0#31 ++ BitVec.ofBool hasVec

/-- `ARG` of SCAN.CONFIGURE and PER.CONFIGURE (43_coordinator.md R217, R219). -/
def packTimer (value : BitVec 16) (mode : LineMode) (hasVec : Bool) : Word32 :=
  0#7 ++ BitVec.ofBool hasVec ++ 0#6 ++ mode.code ++ value

/-- `AUX` of LATCH.CONFIGURE (41_latch.md R160). -/
def packLatchAux (mode : LatchMode) (hasTarget : Bool) (fire : Fire) (deassert hasVec : Bool) : Byte :=
  0#3 ++ BitVec.ofBool hasVec ++ BitVec.ofBool deassert ++ BitVec.ofBool fire.code ++ BitVec.ofBool hasTarget ++
    BitVec.ofBool mode.code

/-- Two unit ids in `ARG[15:8]` and `ARG[7:0]` (41_latch.md R160; 44_peripheral.md R250). -/
def packIds (hi lo : Byte) : Word32 := 0#16 ++ hi ++ lo

/-- `AUX` of BUS.REGISTER_RANGE (42_bus.md R180). -/
def packRangeAux (mode : Access) (space : Space) : Byte := BitVec.ofBool space.code ++ 0#5 ++ mode.code

/-- `AUX` of BUS.SETPOLICY (42_bus.md R181). -/
def packPolicyAux (policy : OpenBusPolicy) (space : Space) : Byte :=
  BitVec.ofBool space.code ++ 0#6 ++ BitVec.ofBool policy.code

/-- One option bit in bit 0 of `AUX` (45_system.md R280; 40_bank.md R140). -/
def packBit (k : Bool) : Byte := 0#7 ++ BitVec.ofBool k

/-- An extension word that holds 32 bits (30_encoding.md R115). -/
def packExt (v : Word32) : OpWord := 0#32 ++ v

/-- The operands of a target as the extension word `E2` lays them out (30_encoding.md R115). -/
structure TargetFields where
  kind : Byte
  a : Byte
  b : Byte
  c : Byte
  d : Byte
  wd : Word32
deriving DecidableEq, Repr

/-- The extension word `E2` of BUS.REGISTER_RANGE. -/
def TargetFields.word (f : TargetFields) : OpWord := f.a ++ f.b ++ f.c ++ f.d ++ f.wd

/-- The operands the extension word `E2` holds, beside the kind the head word's `DATA` holds. -/
def TargetFields.ofWord (kind : Byte) (w : OpWord) : TargetFields where
  kind := kind
  a := slice 56 8 w
  b := slice 48 8 w
  c := slice 40 8 w
  d := slice 32 8 w
  wd := slice 0 32 w

/-- A target's fields, every field its kind does not use zero (30_encoding.md R115). -/
def Target.fields : Target → TargetFields
  | .kMem region roff => ⟨0, region, 0, 0, 0, roff⟩
  | .kBank bank => ⟨1, bank, 0, 0, 0, 0⟩
  | .kLatchData latch => ⟨2, latch, 0, 0, 0, 0⟩
  | .kLatchAck latch => ⟨3, latch, 0, 0, 0, 0⟩
  | .kStatus l0 l1 l2 l3 valid invert => ⟨4, l0, l1, l2, l3, 0#24 ++ invert ++ valid⟩
  | .kBankSel bank shift mask => ⟨5, bank, shift, mask, 0, 0⟩
  | .kLine tcpu line mode vec hasVec => ⟨6, tcpu, line, mode, vec, 0#31 ++ BitVec.ofBool hasVec⟩
  | .kLineBit tcpu line bit active => ⟨7, tcpu, line, bit, active, 0⟩
  | .kInput src => ⟨8, src, 0, 0, 0, 0⟩
  | .kSink sink => ⟨9, sink, 0, 0, 0, 0⟩

/-- The value, where a check on the fields not used holds (30_encoding.md R117). -/
def need {α : Type} (ok : Bool) (x : α) : Option α := if ok then some x else none

/-- The target the fields name; a kind above 9 or a non-zero unused field is illegal (30_encoding.md R115, R117). -/
def Target.ofFields (f : TargetFields) : Option Target :=
  match f.kind.toNat with
  | 0 => need (f.b == 0 && f.c == 0 && f.d == 0) (.kMem f.a f.wd)
  | 1 => need (f.b == 0 && f.c == 0 && f.d == 0 && f.wd == 0) (.kBank f.a)
  | 2 => need (f.b == 0 && f.c == 0 && f.d == 0 && f.wd == 0) (.kLatchData f.a)
  | 3 => need (f.b == 0 && f.c == 0 && f.d == 0 && f.wd == 0) (.kLatchAck f.a)
  | 4 => need (slice 8 24 f.wd == 0) (.kStatus f.a f.b f.c f.d (slice 0 4 f.wd) (slice 4 4 f.wd))
  | 5 => need (f.d == 0 && f.wd == 0) (.kBankSel f.a f.b f.c)
  | 6 => need (slice 1 31 f.wd == 0) (.kLine f.a f.b f.c f.d (flagAt 0 f.wd))
  | 7 => need (f.wd == 0) (.kLineBit f.a f.b f.c f.d)
  | 8 => need (f.b == 0 && f.c == 0 && f.d == 0 && f.wd == 0) (.kInput f.a)
  | 9 => need (f.b == 0 && f.c == 0 && f.d == 0 && f.wd == 0) (.kSink f.a)
  | _ => none

/-- The extension word `E1` of PORT.CONFIGURE (44_peripheral.md R250). -/
def PortWiring.extWord (p : PortWiring) : OpWord :=
  p.dip1 ++ p.dip0 ++ p.p2src2 ++ p.p2src1 ++ p.p2src0 ++ 0#2 ++ p.outpBit ++ p.inpBit ++ BitVec.ofBool p.rstActive ++
    p.rstBit ++ p.p3selLo ++ p.p2selLo ++ p.ackBit ++ p.outBit

/-- The wiring that the head word's fields and the extension word hold (44_peripheral.md R250). -/
def PortWiring.ofWords (h : Head) (e : OpWord) : PortWiring where
  outLatch := h.unit
  inLatch := h.aux
  rstCpu := slice 0 8 h.arg
  mcu := slice 8 8 h.arg
  outBit := slice 0 3 e
  ackBit := slice 3 3 e
  p2selLo := slice 6 3 e
  p3selLo := slice 9 3 e
  rstBit := slice 12 3 e
  rstActive := flagAt 15 e
  inpBit := slice 16 3 e
  outpBit := slice 19 3 e
  p2src0 := slice 24 8 e
  p2src1 := slice 32 8 e
  p2src2 := slice 40 8 e
  dip0 := slice 48 8 e
  dip1 := slice 56 8 e

/-! ## The decoder -/

/-- The operation a head word alone encodes (format S, 30_encoding.md R114); every field an operation does not use must
be zero (R117), and an opcode that is not in the map is illegal (R116). DESIGN CHOICE (log 36): DATA without `has_vec`
is illegal for LINE.ASSERT, LINE.PULSE and LINE.HOLD (43_coordinator.md R212) and for no other operation. -/
def decodeShort (h : Head) : Option Instr :=
  match h.opc.toNat with
  | 0x01 => need (h.unit == 0 && h.aux == 0 && h.arg == 0 && h.data == 0) .sysReset
  | 0x02 => need (h.aux == 0 && h.arg == 0 && h.data == 0) (.sysSave h.unit)
  | 0x03 => need (h.aux == 0 && h.arg == 0 && h.data == 0) (.sysRestore h.unit)
  | 0x04 => need (h.unit == 0 && h.aux == 0 && h.arg == 0 && h.data == 0) .sysStart
  | 0x05 => need (slice 1 7 h.aux == 0 && h.data == 0) (.regionDefine h.unit (flagAt 0 h.aux) h.arg)
  | 0x11 => need (h.aux == 0 && h.data == 0) (.bankSelect h.unit h.arg)
  | 0x12 => need (h.aux == 0 && h.data == 0) (.bankRead h.unit h.arg)
  | 0x13 => need (h.aux == 0) (.bankWrite h.unit h.arg h.data)
  | 0x20 => need (slice 5 3 h.aux == 0 && slice 16 16 h.arg == 0)
      (.latchConfigure h.unit (LatchMode.ofCode (flagAt 0 h.aux)) (flagAt 1 h.aux) (Fire.ofCode (flagAt 2 h.aux))
        (flagAt 3 h.aux) (flagAt 4 h.aux) (slice 0 8 h.arg) (slice 8 8 h.arg) h.data)
  | 0x21 => need (h.aux == 0 && h.arg == 0) (.latchWrite h.unit h.data)
  | 0x22 => need (h.aux == 0 && h.arg == 0 && h.data == 0) (.latchRead h.unit)
  | 0x23 => need (h.aux == 0 && h.arg == 0 && h.data == 0) (.latchAck h.unit)
  | 0x24 => need (h.aux == 0 && h.arg == 0 && h.data == 0) (.latchPendingR h.unit)
  | 0x31 => need (h.aux == 0 && h.data == 0) (.busRead h.unit h.arg)
  | 0x32 => need (h.aux == 0) (.busWrite h.unit h.arg h.data)
  | 0x33 => need (slice 1 6 h.aux == 0)
      (.busSetPolicy h.unit (OpenBusPolicy.ofCode (flagAt 0 h.aux)) (Space.ofCode (flagAt 7 h.aux)) h.arg h.data)
  | 0x34 => need (h.aux == 0 && h.data == 0) (.ioRead h.unit h.arg)
  | 0x35 => need (h.aux == 0) (.ioWrite h.unit h.arg h.data)
  | 0x40 => need (h.arg == 0 && h.data == 0) (.lineClear h.unit h.aux)
  | 0x41 => need (slice 1 31 h.arg == 0 && vectorOk (flagAt 0 h.arg) h.data)
      (.lineAssert h.unit h.aux (flagAt 0 h.arg) h.data)
  | 0x42 => need (slice 1 31 h.arg == 0 && vectorOk (flagAt 0 h.arg) h.data)
      (.linePulse h.unit h.aux (flagAt 0 h.arg) h.data)
  | 0x43 => need (slice 1 31 h.arg == 0 && vectorOk (flagAt 0 h.arg) h.data)
      (.lineHold h.unit h.aux (flagAt 0 h.arg) h.data)
  | 0x44 => need (h.aux == 0 && h.arg == 0 && h.data == 0) (.cpuPoll h.unit)
  | 0x45 => need (h.arg == 0 && h.data == 0) (.cpuIack h.unit h.aux)
  | 0x46 => need (slice 18 6 h.arg == 0 && slice 25 7 h.arg == 0 && timerModeOk (LineMode.ofCode (slice 16 2 h.arg)))
      (.scanConfigure h.unit h.aux (slice 0 16 h.arg) (LineMode.ofCode (slice 16 2 h.arg)) (flagAt 24 h.arg) h.data)
  | 0x47 => need (h.unit == 0 && h.aux == 0 && h.arg == 0 && h.data == 0) .scanAdvance
  | 0x48 => need (slice 18 6 h.arg == 0 && slice 25 7 h.arg == 0 && timerModeOk (LineMode.ofCode (slice 16 2 h.arg)))
      (.perConfigure h.unit h.aux (slice 0 16 h.arg) (LineMode.ofCode (slice 16 2 h.arg)) (flagAt 24 h.arg) h.data)
  | 0x49 => need (h.aux == 0 && h.arg == 0 && h.data == 0) (.perTick h.unit)
  | 0x51 =>
    if h.aux == 0 && h.arg == 0 && h.data == 0 then
      match h.unit.toNat with
      | 0 => some .p0Read
      | 1 => some .p1Read
      | 2 => some .p2Read
      | 3 => some .p3Read
      | _ => none
    else none
  | 0x52 =>
    if h.aux == 0 && h.arg == 0 then
      match h.unit.toNat with
      | 0 => some (.p0Write h.data)
      | 1 => some (.p1Write h.data)
      | 2 => some (.p2Write h.data)
      | 3 => some (.p3Write h.data)
      | _ => none
    else none
  | _ => none

/-- BANK.CONFIGURE from its four words (40_bank.md R140). -/
def decodeBankConfigure (h : Head) (e1 e2 e3 : OpWord) : Option Instr :=
  need (slice 1 7 h.aux == 0 && slice 32 32 e1 == 0 && slice 32 32 e2 == 0 && slice 32 32 e3 == 0)
    (.bankConfigure h.unit (BankPolicy.ofCode (flagAt 0 h.aux)) h.arg h.data (slice 0 32 e1) (slice 0 32 e2)
      (slice 0 32 e3))

/-- BUS.REGISTER_RANGE from its three words (42_bus.md R180). -/
def decodeRegisterRange (h : Head) (e1 e2 : OpWord) : Option Instr :=
  match Access.ofCode (slice 0 2 h.aux), Target.ofFields (TargetFields.ofWord h.data e2) with
  | some mode, some target =>
    need (slice 2 5 h.aux == 0 && slice 32 32 e1 == 0)
      (.busRegisterRange h.unit mode (Space.ofCode (flagAt 7 h.aux)) h.arg (slice 0 32 e1) target)
  | _, _ => none

/-- PORT.CONFIGURE from its two words (44_peripheral.md R250). -/
def decodePortConfigure (h : Head) (e : OpWord) : Option Instr :=
  need (slice 16 16 h.arg == 0 && h.data == 0 && slice 22 2 e == 0) (.portConfigure (PortWiring.ofWords h e))

/-- The operation at the front of a list of words and the words after it; `none` is the verdict "invalid"
(30_encoding.md R116 to R118). -/
def decode : List OpWord → Option (Instr × List OpWord)
  | [] => none
  | w :: rest =>
    match (Head.ofWord w).opc.toNat, rest with
    | 0x10, e1 :: e2 :: e3 :: tl => (decodeBankConfigure (Head.ofWord w) e1 e2 e3).map (·, tl)
    | 0x30, e1 :: e2 :: tl => (decodeRegisterRange (Head.ofWord w) e1 e2).map (·, tl)
    | 0x50, e1 :: tl => (decodePortConfigure (Head.ofWord w) e1).map (·, tl)
    | _, _ => (decodeShort (Head.ofWord w)).map (·, rest)

/-! ## The encoder -/

/-- The head word of an operation (30_encoding.md R114). -/
def Instr.head : Instr → Head
  | .sysReset => ⟨0x01, 0, 0, 0, 0⟩
  | .sysSave slot => ⟨0x02, slot, 0, 0, 0⟩
  | .sysRestore slot => ⟨0x03, slot, 0, 0, 0⟩
  | .sysStart => ⟨0x04, 0, 0, 0, 0⟩
  | .regionDefine r mutbl size => ⟨0x05, r, packBit mutbl, size, 0⟩
  | .bankConfigure b policy startIndex region _ _ _ => ⟨0x10, b, packBit policy.code, startIndex, region⟩
  | .bankSelect b index => ⟨0x11, b, 0, index, 0⟩
  | .bankRead b offset => ⟨0x12, b, 0, offset, 0⟩
  | .bankWrite b offset v => ⟨0x13, b, 0, offset, v⟩
  | .latchConfigure l mode hasTarget fire deassert hasVec tcpu tline vec =>
    ⟨0x20, l, packLatchAux mode hasTarget fire deassert hasVec, packIds tline tcpu, vec⟩
  | .latchWrite l v => ⟨0x21, l, 0, 0, v⟩
  | .latchRead l => ⟨0x22, l, 0, 0, 0⟩
  | .latchAck l => ⟨0x23, l, 0, 0, 0⟩
  | .latchPendingR l => ⟨0x24, l, 0, 0, 0⟩
  | .busRegisterRange c mode space lo _ target => ⟨0x30, c, packRangeAux mode space, lo, target.fields.kind⟩
  | .busRead c addr => ⟨0x31, c, 0, addr, 0⟩
  | .busWrite c addr v => ⟨0x32, c, 0, addr, v⟩
  | .busSetPolicy c policy space mask obc => ⟨0x33, c, packPolicyAux policy space, mask, obc⟩
  | .ioRead c addr => ⟨0x34, c, 0, addr, 0⟩
  | .ioWrite c addr v => ⟨0x35, c, 0, addr, v⟩
  | .lineClear c n => ⟨0x40, c, n, 0, 0⟩
  | .lineAssert c n hasVec vec => ⟨0x41, c, n, packVec hasVec, vec⟩
  | .linePulse c n hasVec vec => ⟨0x42, c, n, packVec hasVec, vec⟩
  | .lineHold c n hasVec vec => ⟨0x43, c, n, packVec hasVec, vec⟩
  | .cpuPoll c => ⟨0x44, c, 0, 0, 0⟩
  | .cpuIack c n => ⟨0x45, c, n, 0, 0⟩
  | .scanConfigure c n scanline mode hasVec vec => ⟨0x46, c, n, packTimer scanline mode hasVec, vec⟩
  | .scanAdvance => ⟨0x47, 0, 0, 0, 0⟩
  | .perConfigure c n hz mode hasVec vec => ⟨0x48, c, n, packTimer hz mode hasVec, vec⟩
  | .perTick j => ⟨0x49, j, 0, 0, 0⟩
  | .portConfigure p => ⟨0x50, p.outLatch, p.inLatch, packIds p.mcu p.rstCpu, 0⟩
  | .p0Read => ⟨0x51, 0, 0, 0, 0⟩
  | .p1Read => ⟨0x51, 1, 0, 0, 0⟩
  | .p2Read => ⟨0x51, 2, 0, 0, 0⟩
  | .p3Read => ⟨0x51, 3, 0, 0, 0⟩
  | .p0Write v => ⟨0x52, 0, 0, 0, v⟩
  | .p1Write v => ⟨0x52, 1, 0, 0, v⟩
  | .p2Write v => ⟨0x52, 2, 0, 0, v⟩
  | .p3Write v => ⟨0x52, 3, 0, 0, v⟩

/-- The extension words of an operation (30_encoding.md R115). -/
def Instr.exts : Instr → List OpWord
  | .bankConfigure _ _ _ _ count windowSize xorMask => [packExt count, packExt windowSize, packExt xorMask]
  | .busRegisterRange _ _ _ _ hi target => [packExt hi, target.fields.word]
  | .portConfigure p => [p.extWord]
  | _ => []

/-- The words of an operation, head word first (30_encoding.md R110, R111). -/
def encode (i : Instr) : List OpWord := i.head.word :: i.exts

/-! ## Words as spec/opcode_table.json numbers their bits -/

/-- The four words whose bits a number holds: bit 0 of the number is the least significant bit of the head word, and
each further word's bits count on; every bit from `nbits` up is zero. -/
def tableWords (nbits w : Nat) : List OpWord :=
  [BitVec.ofNat 64 (w % 2 ^ nbits), BitVec.ofNat 64 (w % 2 ^ nbits / 2 ^ 64),
    BitVec.ofNat 64 (w % 2 ^ nbits / 2 ^ 128), BitVec.ofNat 64 (w % 2 ^ nbits / 2 ^ 192)]

/-- The words of exactly one operation: the head word and as many extension words as its opcode has. -/
def tableOp (nbits w : Nat) : List OpWord :=
  let ws := tableWords nbits w
  ws.take (1 + extWords (Head.ofWord (ws.headD 0)).opc)

/-- The operation the decoder reads from an operation whose bits are `w` (log 1). -/
def decodeTableWord (nbits w : Nat) : Option Instr := (decode (tableOp nbits w)).map Prod.fst

end Sys2Proof
end

