-- ==== Sys2Proof/Config.lean ====
section
/-! DEFINITION. What an implementation of the fabric fixes and what the spec leaves free: the free bytes, the contents
of memory at power-on, and the reference values of the parameters (00_scope.md R6). -/

namespace Sys2Proof

/-- The places where the spec calls a byte unspecified or lets the outside world choose it
(93_implementation_defined.md U2, U3, U6, U17). `ldv` names a CPU and whether the space is the I/O space. -/
inductive Config.Site where
  | latchValue (l : Nat)
  | ldv (c : Nat) (io : Bool)
  | port2
  | input (k : Nat)
  | dip (k : Nat)
  | sinkRead (k off : Nat)
deriving DecidableEq, Repr

/-- DESIGN CHOICE (log 4, log 7, log 8). The byte that the `n`-th draw at a place gives. It has no body that a proof
can see: a claim that holds of the model holds whatever the byte is. -/
opaque Config.freeByte : Config.Site → Nat → Byte

/-- DESIGN CHOICE (log 5). Byte `off` of the mutable region `r` as power-on leaves it: unspecified, drawn once and kept
(10_state.md R23, R38; 93_implementation_defined.md U4). -/
opaque Config.ramPowerOn : Nat → Nat → Byte

/-- DESIGN CHOICE (log 6). Byte `off` of `IMAGE[r]`, the contents of the immutable region `r`, a parameter the host
supplies (45_system.md R280; 10_state.md R23). -/
opaque Config.romImage : Nat → Nat → Byte

/-- DESIGN CHOICE (log 3). The parameter `NCPU` of the machine `State.reset` describes: the spec's reference value
(00_scope.md R6). -/
def Config.refNcpu : Nat := 4

/-- DESIGN CHOICE (log 3). The parameter `ADDR_W[c][s]` at `State.reset`: the spec's reference value (00_scope.md R6). -/
def Config.refAddrW : Nat := 16

/-- DESIGN CHOICE (log 3). The parameter `LINES` at `State.reset`: the spec's reference value (00_scope.md R6). -/
def Config.refLines : Nat := 256

end Sys2Proof
end

