-- ==== Sys2Proof/Machine/State.lean ====
section
/-! DEFINITION. The state of the fabric (10_state.md), the reasons an operation can stop, and the state at power-on. -/

namespace Sys2Proof.Machine

/-- Data by unit number: (number, value) pairs. Its canonical form has strictly rising numbers. -/
abbrev Table (α : Type) := List (Nat × α)

/-- The numbers rise strictly. -/
def Table.wf {α : Type} (t : Table α) : Bool := decide (t.Pairwise fun a b => a.1 < b.1)

/-- The bytes written since power-on, by offset (log 5). -/
abbrev Memory := Table Byte

/-- The canonical form of a memory: strictly rising offsets. An unlisted offset holds no written byte, so no entry can
equal what an unlisted offset holds. -/
def Memory.wf (m : Memory) : Bool := Table.wf m

/-- `PHASE` (10_state.md R22). -/
inductive Phase where
  | config
  | run
  | aborted
deriving DecidableEq, Repr

/-- A memory region (10_state.md R23). -/
structure Region where
  size : Nat
  mutbl : Bool
  bytes : Memory
deriving DecidableEq, Repr

/-- The one bus range that targets a bank: `base`, `owner` and `space` (10_state.md R24). -/
structure BankBinding where
  base : Nat
  owner : Nat
  space : Space
deriving DecidableEq, Repr

/-- A bank (10_state.md R24); `binding` is absent until a range targets the bank. -/
structure Bank where
  region : Nat
  start : Nat
  count : Nat
  wsize : Nat
  xor : Word32
  policy : BankPolicy
  binding : Option BankBinding
  active : Nat
deriving DecidableEq, Repr

/-- A latch (10_state.md R39). -/
structure Latch where
  mode : LatchMode
  hasTarget : Bool
  tcpu : Nat
  tline : Nat
  fire : Fire
  deassert : Bool
  hasVec : Bool
  vec : Byte
  value : Byte
  pending : Bool
deriving DecidableEq, Repr

/-- An entry of `MAP[c][s]` (10_state.md R25). -/
structure BusRange where
  lo : Nat
  hi : Nat
  mode : Access
  target : Target
deriving DecidableEq, Repr

/-- One address space of one CPU: its width, map, mask, open-bus setting and last decoded value
(00_scope.md R6; 10_state.md R25, R26). -/
structure BusSpace where
  addrW : Nat
  mask : Word32
  policy : OpenBusPolicy
  obc : Byte
  ldv : Byte
  map : List BusRange
deriving DecidableEq, Repr

/-- The record of a line (10_state.md R27). -/
structure LineRec where
  level : LineMode
  hasVec : Bool
  vec : Byte
deriving DecidableEq, Repr

/-- The record of a line that is CLEAR (43_coordinator.md R210). -/
def LineRec.cleared : LineRec := ⟨.clear, false, 0⟩

/-- What the fabric holds for one CPU; `lines` lists the lines that are not cleared. -/
structure Cpu where
  mem : BusSpace
  io : BusSpace
  lines : Table LineRec
deriving DecidableEq, Repr

/-- A scanline entry (10_state.md R29). -/
structure ScanEntry where
  scanline : Nat
  cpu : Nat
  line : Nat
  mode : LineMode
  hasVec : Bool
  vec : Byte
deriving DecidableEq, Repr

/-- A periodic entry with its tick count (10_state.md R30). -/
structure PerTimer where
  cpu : Nat
  line : Nat
  mode : LineMode
  hasVec : Bool
  vec : Byte
  hz : Nat
  ticks : Nat
deriving DecidableEq, Repr

/-- The saved bytes of a mutable region, with their number (45_system.md R283). -/
structure RegionSnap where
  size : Nat
  bytes : Memory
deriving DecidableEq, Repr

/-- What a snapshot holds for one CPU: its last decoded values and its lines that are not CLEAR (45_system.md R283). -/
structure CpuSnap where
  ldvMem : Byte
  ldvIo : Byte
  lines : Table LineRec
deriving DecidableEq, Repr

/-- A snapshot: the named fields of SYS.SAVE (45_system.md R283; log 21), and the model's own `restarts`, so that what
is accepted after a restore is what was accepted after the save (R284; log 37). -/
structure Snapshot where
  active : Table Nat
  latchValue : Table Byte
  latchPending : Table Bool
  p0 : Byte
  p1 : Byte
  p2 : Byte
  p3 : Byte
  regions : Table RegionSnap
  cpus : List CpuSnap
  scanV : Nat
  scanF : Nat
  ticks : List Nat
  restarts : List Nat
deriving DecidableEq, Repr

/-- The configuration error codes (60_exceptions.md R301). -/
inductive ErrCode where
  | overlap
  | bankRange
  | unit
  | dup
  | value
deriving DecidableEq, Repr

/-- What a configuration error records: its code and the words of the operation that raised it (60_exceptions.md
R301). -/
structure ErrorRecord where
  code : ErrCode
  words : List (BitVec 64)
deriving DecidableEq, Repr

/-- What goes back to the issuer of an operation (30_encoding.md R111). -/
inductive Result where
  | none
  | byte (v : Byte)
  | flag (p : Bool)
  | lines (snapshot : Table LineRec)
deriving DecidableEq, Repr

/-- One call of `Sink` (10_state.md R31). -/
structure SinkWrite where
  sink : Nat
  off : Nat
  v : Byte
deriving DecidableEq, Repr

/-- An event an implementation may log (60_exceptions.md R303, R304; log 10). -/
inductive DiagEvent where
  | openRead (c : Nat) (s : Space) (addr : Word32)
  | openWrite (c : Nat) (s : Space) (addr : Word32)
  | protocolViolation
deriving DecidableEq, Repr

/-- What the latest operation handed to the outside world (log 9): its result, its call of `Sink`, whether every CPU was
reset by its core (45_system.md R281, R282), and the events an implementation may log. -/
structure Output where
  result : Result
  sink : Option SinkWrite
  cpusReset : Bool
  log : List DiagEvent
deriving DecidableEq, Repr

/-- Nothing handed out. -/
def Output.empty : Output := ⟨.none, Option.none, false, []⟩

/-- The agents of 10_state.md R20 as 30_encoding.md R114 names them; `any` stands for an operation any agent may issue. -/
inductive Agent where
  | host
  | cpu (c : Nat)
  | scanTimer
  | perTimer (j : Nat)
  | any
deriving DecidableEq, Repr

/-- What one agent issues as one unit of the execution order: the words of a CPU instruction, of a timer step or of an
operation of another agent (20_memory.md R64). A `whole` instruction begins with its CPU.POLL. An instruction that is
not whole is given without it, as the spec's programs give most of theirs (97_test_programs.md section 4; log 15). -/
structure Turn where
  whole : Bool
  words : List (BitVec 64)
deriving DecidableEq, Repr

/-- The state of the fabric. `slot` is the agent whose turn is in progress, `none` between turns (20_memory.md R64;
log 15). `restarts` are the CPUs that their RESET line or SYS.RESET has reset and that have not polled since, by
rising number (43_coordinator.md R221; 45_system.md R282; log 37). `queue`, `extIn`, `draws` and `out` are the model's own
fields (INVENTORY.md). -/
structure State where
  phase : Phase
  regions : Table Region
  banks : Table Bank
  latches : Table Latch
  cpus : List Cpu
  pcfg : Option PortWiring
  p0 : Byte
  p1 : Byte
  p2 : Byte
  p3 : Byte
  scanLines : Nat
  scanV : Nat
  scanF : Nat
  scanEntries : List ScanEntry
  perTimers : List PerTimer
  snaps : Table Snapshot
  error : Option ErrorRecord
  slot : Option Agent
  restarts : List Nat
  queue : List Turn
  extIn : List Byte
  draws : Nat
  out : Output
deriving DecidableEq, Repr

/-- Why the machine stops with a fault. -/
inductive Fault where
  /-- Raised by a read or a write of byte `off` of region `r` where the region is not defined or ends before that byte:
  the spec gives no such byte (10_state.md R23). Safe: the configuration checks make it unreachable (log 26). -/
  | noSuchByte (r off : Nat)
deriving DecidableEq, Repr

/-- Why an operation is refused: the spec gives it no meaning in the present state (60_exceptions.md R302). Each is
safe. -/
inductive Refusal where
  /-- Raised by `exec` for an operation the model gives no meaning; no arm uses it. Safe. -/
  | notModelled (mnemonic : String)
  /-- Raised by every operation issued in a phase it does not belong to (60_exceptions.md R302). Safe. -/
  | wrongPhase (now : Phase)
  /-- Raised by a run-time operation whose CPU id is not below `NCPU` (60_exceptions.md R302). Safe. -/
  | noSuchCpu (c : Nat)
  /-- Raised by a bank operation on a bank that was never configured (60_exceptions.md R302). Safe. -/
  | bankNotConfigured (b : Nat)
  /-- Raised by a latch operation on a latch that was never configured (60_exceptions.md R302). Safe. -/
  | latchNotConfigured (l : Nat)
  /-- Raised by BANK.READ and BANK.WRITE with `offset >= window_size` (40_bank.md R142, R143). Safe. -/
  | offsetOutsideWindow (b off : Nat)
  /-- Raised by a port operation with no PORT.CONFIGURE (60_exceptions.md R302). Safe. -/
  | noPeripheral
  /-- Raised by PER.TICK of a missing entry (43_coordinator.md R220). Safe. -/
  | noSuchTimer (j : Nat)
  /-- Raised by SYS.RESTORE of a slot never saved (45_system.md R284). Safe. -/
  | noSnapshot (slot : Nat)
  /-- Raised by SYS.RESTORE of a snapshot not made under the present configuration (45_system.md R284). Safe. -/
  | snapshotMisfit (slot : Nat)
  /-- Raised by `step` for words the decoder rejects (30_encoding.md R116, R117). Safe. -/
  | invalidWord
  /-- Raised by `step` for an operation of a CPU whose RESET line holds it: such a CPU issues no operation
  (43_coordinator.md R221; log 13). Safe. -/
  | cpuHeld (c : Nat)
  /-- Raised by `step` for an operation that cannot stand where it stands in a turn: an operation of another agent or a
  second CPU.POLL inside an instruction, a second operation in the turn of an agent that is no CPU, a whole instruction
  that does not begin with its CPU.POLL, or any operation but the CPU.POLL of a CPU that its RESET line or SYS.RESET
  has just reset (20_memory.md R64; 43_coordinator.md R215, R221; 45_system.md R282; log 15, log 37). Safe. -/
  | outsideSlot (a : Agent)
deriving DecidableEq, Repr

/-- A bus space at power-on: nothing mapped, mask all ones, policy CONST 0xFF, last decoded value free
(10_state.md R26, R38; log 4). -/
def BusSpace.powerOn (c : Nat) (io : Bool) (addrW : Nat) : BusSpace where
  addrW := addrW
  mask := BitVec.ofNat 32 (2 ^ addrW - 1)
  policy := .const
  obc := 0xFF
  ldv := Config.freeByte (.ldv c io) 0
  map := []

/-- What the fabric holds for CPU `c` at power-on (10_state.md R38). -/
def Cpu.powerOn (addrW c : Nat) : Cpu where
  mem := BusSpace.powerOn c false addrW
  io := BusSpace.powerOn c true addrW
  lines := []

/-- The fabric at power-on, with the parameters `NCPU`, `ADDR_W` and `LINES` (10_state.md R38; 00_scope.md R6). DESIGN
CHOICE (log 33): no snapshot exists; the spec does not say whether one that the host holds outlasts a power-on. -/
def State.powerOn (ncpu addrW lines : Nat) : State where
  phase := .config
  regions := []
  banks := []
  latches := []
  cpus := (List.range ncpu).map (Cpu.powerOn addrW)
  pcfg := none
  p0 := 0
  p1 := 0
  p2 := 0
  p3 := 0
  scanLines := lines
  scanV := 0
  scanF := 0
  scanEntries := []
  perTimers := []
  snaps := []
  error := none
  slot := none
  restarts := []
  queue := []
  extIn := []
  draws := 1
  out := Output.empty

/-- The machine right after reset: the fabric at power-on (70_reset_and_hazards.md R350 (a)) with the reference
parameters (log 3). -/
def State.reset : State := State.powerOn Config.refNcpu Config.refAddrW Config.refLines

end Sys2Proof.Machine
end

