-- ==== Sys2Proof/Machine/Ops.lean ====
section
/-! DEFINITION. The named operations over the fabric's state: tables, region bytes, lines, draws, latches, banks, and
taking a configuration error. -/

namespace Sys2Proof.Machine

/-- The outcome of an operation. -/
abbrev Res := Host.Outcome State Fault Refusal

/-- The outcome of an operation that also gives a value. -/
abbrev ResV (α : Type) := Host.Outcome (α × State) Fault Refusal

/-- One operation after another; a stop of the first is the stop of both. -/
def andThen {α β : Type} (o : Host.Outcome α Fault Refusal) (f : α → Host.Outcome β Fault Refusal) :
    Host.Outcome β Fault Refusal :=
  match o with
  | .next a => f a
  | .fault r => .fault r
  | .refused r => .refused r

/-! ## Tables -/

/-- The entry of unit `n`. -/
def Table.get {α : Type} : Table α → Nat → Option α
  | [], _ => none
  | (k, a) :: t, n => if k = n then some a else Table.get t n

/-- The table with `a` as the entry of unit `n`. -/
def Table.set {α : Type} : Table α → Nat → α → Table α
  | [], n, a => [(n, a)]
  | (k, b) :: t, n, a =>
    if n < k then (n, a) :: (k, b) :: t
    else if n = k then (n, a) :: t
    else (k, b) :: Table.set t n a

/-- The table without an entry of unit `n`. -/
def Table.erase {α : Type} (t : Table α) (n : Nat) : Table α := t.filter fun e => e.1 != n

/-- Every entry changed by a function of its number and itself. -/
def Table.mapVals {α β : Type} (f : Nat → α → β) (t : Table α) : Table β := t.map fun e => (e.1, f e.1 e.2)

/-- Every unit with an entry in the one table has an entry in the other. -/
def Table.coveredBy {α β : Type} (t : Table α) (u : Table β) : Bool := t.all fun e => (Table.get u e.1).isSome

/-- The same units have entries in both tables. -/
def Table.sameUnits {α β : Type} (t : Table α) (u : Table β) : Bool := Table.coveredBy t u && Table.coveredBy u t

/-! ## The bytes of the regions (10_state.md R23) -/

/-- Byte `off` of region `r`'s contents `g`: the byte written last, else the byte power-on or the image gives (log 5,
log 6). -/
def Region.read (g : Region) (r off : Nat) : Byte :=
  match Table.get g.bytes off with
  | some v => v
  | none => if g.mutbl then Config.ramPowerOn r off else Config.romImage r off

/-- Byte `off` of region `r`, where there is such a byte. -/
def State.byteAt (s : State) (r off : Nat) : Option Byte :=
  match Table.get s.regions r with
  | some g => if off < g.size then some (g.read r off) else none
  | none => none

/-- `REGION[r].bytes[off]`. -/
def regionRead (r off : Nat) (s : State) : ResV Byte :=
  match s.byteAt r off with
  | some v => .next (v, s)
  | none => .fault (.noSuchByte r off)

/-- An event an implementation may log (60_exceptions.md R303, R304). -/
def State.emit (s : State) (e : DiagEvent) : State := { s with out := { s.out with log := s.out.log ++ [e] } }

/-- `if REGION[r].mutable: REGION[r].bytes[off] <- v`; a write to an immutable region is discarded (20_memory.md R59;
60_exceptions.md R304 item 6). -/
def regionWrite (r off : Nat) (v : Byte) (s : State) : Res :=
  match Table.get s.regions r with
  | none => .fault (.noSuchByte r off)
  | some g =>
    if off < g.size then
      if g.mutbl then .next { s with regions := Table.set s.regions r { g with bytes := Table.set g.bytes off v } }
      else .next (s.emit .protocolViolation)
    else .fault (.noSuchByte r off)

/-! ## CPUs and lines (10_state.md R27; 43_coordinator.md R210) -/

/-- `NCPU`. -/
def State.ncpu (s : State) : Nat := s.cpus.length

/-- The record of line `n` in a table of the lines that are not cleared. -/
def lineOf (lines : Table LineRec) (n : Nat) : LineRec := (Table.get lines n).getD LineRec.cleared

/-- `LINE[c][n]`. -/
def State.line (s : State) (c n : Nat) : LineRec :=
  match s.cpus[c]? with
  | some cpu => lineOf cpu.lines n
  | none => LineRec.cleared

/-- The table of the lines that are not cleared, with `l` as the record of line `n`. -/
def setLineRec (lines : Table LineRec) (n : Nat) (l : LineRec) : Table LineRec :=
  if l = LineRec.cleared then Table.erase lines n else Table.set lines n l

/-- `LINE[c][n] <- l`. -/
def State.setLine (s : State) (c n : Nat) (l : LineRec) : State :=
  { s with cpus := s.cpus.modify c fun cpu => { cpu with lines := setLineRec cpu.lines n l } }

/-- The vector operand of a line operation: `has_vec ? vec : none`. -/
def vecOf (hasVec : Bool) (vec : Byte) : Option Byte := if hasVec then some vec else none

/-- The record a line operation leaves (43_coordinator.md R210). -/
def lineRecOf (m : LineMode) (vec : Option Byte) : LineRec :=
  if m = .clear then LineRec.cleared else ⟨m, vec.isSome, vec.getD 0⟩

/-- `LineSet(c, n, m, vec)` (43_coordinator.md R210). -/
def lineSet (c n : Nat) (m : LineMode) (vec : Option Byte) (s : State) : State := s.setLine c n (lineRecOf m vec)

/-- The line id of RESET (30_encoding.md R113; 43_coordinator.md R221). -/
def resetLine : Nat := 2

/-- CPU `c` is held by its RESET line (43_coordinator.md R221). -/
def State.held (s : State) (c : Nat) : Bool :=
  (s.line c resetLine).level == .assert || (s.line c resetLine).level == .hold

/-! ## Bytes the spec leaves free or to the outside world (log 4, log 7, log 8) -/

/-- `draw()`: a byte no rule constrains (00_scope.md R8). -/
def drawByte (site : Config.Site) (s : State) : Byte × State :=
  (Config.freeByte site s.draws, { s with draws := s.draws + 1 })

/-- A byte the outside world supplies: the next one it has handed over, else a free one (10_state.md R31). -/
def externByte (site : Config.Site) (s : State) : Byte × State :=
  match s.extIn with
  | v :: rest => (v, { s with extIn := rest })
  | [] => drawByte site s

/-! ## Phases and configuration errors (60_exceptions.md R301, R302) -/

/-- Run-time operations are meaningful in `PHASE = RUN` only (60_exceptions.md R302); each hands out its own output. -/
def whenRun (s : State) (f : State → Res) : Res :=
  if s.phase = .run then f { s with out := Output.empty } else .refused (.wrongPhase s.phase)

/-- Configuration operations are meaningful in `PHASE = CONFIG` only (60_exceptions.md R302). -/
def whenConfig (s : State) (f : State → Res) : Res :=
  if s.phase = .config then f { s with out := Output.empty } else .refused (.wrongPhase s.phase)

/-- `raise ConfigError(code)` by operation `i`: the one exception of the fabric is taken. The operation changes
nothing, `PHASE` becomes `ABORTED`, and the code and the operation's words are recorded (60_exceptions.md R301, R302;
log 11). -/
def raiseConfigError (code : ErrCode) (i : Instr) (s : State) : Res :=
  .next { s with phase := .aborted, error := some ⟨code, encode i⟩ }

/-- The number of an error code (60_exceptions.md R301). -/
def ErrCode.number : ErrCode → Nat
  | .overlap => 1
  | .bankRange => 2
  | .unit => 3
  | .dup => 4
  | .value => 5

/-- The number of an event code (60_exceptions.md R303, R304). -/
def DiagEvent.number : DiagEvent → Nat
  | .openRead _ _ _ => 16
  | .openWrite _ _ _ => 17
  | .protocolViolation => 18

/-- A configuration operation whose checks found `e`: the error is taken, or the change is made. -/
def configure (e : Option ErrCode) (i : Instr) (s s' : State) : Res :=
  match e with
  | some code => raiseConfigError code i s
  | none => .next s'

/-- The result goes back to the issuer (30_encoding.md R111). -/
def State.withResult (s : State) (r : Result) : State := { s with out := { s.out with result := r } }

/-- A byte read goes back to the issuer. -/
def giveByte (p : Byte × State) : Res := .next (p.2.withResult (.byte p.1))

/-- A flag read goes back to the issuer. -/
def giveFlag (p : Bool × State) : Res := .next (p.2.withResult (.flag p.1))

/-! ## Latches (41_latch.md) -/

/-- The latch's interrupt: an ASSERT or a PULSE on its target line (41_latch.md R161). -/
def latchFire (k : Latch) (s : State) : State :=
  lineSet k.tcpu k.tline (match k.fire with | .level => .assert | .pulse => .pulse) (vecOf k.hasVec k.vec) s

/-- What clearing a pending flag does to the latch's target line (41_latch.md R162, R163). -/
def latchLower (k : Latch) (s : State) : State :=
  if k.hasTarget && k.fire == .level && k.deassert then lineSet k.tcpu k.tline .clear none s else s

/-- The latch's record replaced. -/
def State.setLatch (s : State) (l : Nat) (k : Latch) : State := { s with latches := Table.set s.latches l k }

/-- The event of a protocol violation, where there is one (60_exceptions.md R304). -/
def State.emitIf (s : State) (violation : Bool) : State := if violation then s.emit .protocolViolation else s

/-- LATCH.WRITE (41_latch.md R161; 60_exceptions.md R304 item 4). -/
def latchWrite (l : Nat) (v : Byte) (s : State) : Res :=
  match Table.get s.latches l with
  | none => .refused (.latchNotConfigured l)
  | some k =>
    let s1 := (s.setLatch l { k with value := v, pending := true }).emitIf k.pending
    .next (if k.hasTarget && !k.pending then latchFire k s1 else s1)

/-- LATCH.READ (41_latch.md R162; 60_exceptions.md R304 item 3). -/
def latchRead (l : Nat) (s : State) : ResV Byte :=
  match Table.get s.latches l with
  | none => .refused (.latchNotConfigured l)
  | some k =>
    let s1 := s.emitIf (!k.pending)
    match k.mode with
    | .separateAck => .next (k.value, s1)
    | .readClears =>
      let s2 := s1.setLatch l { k with pending := false }
      .next (k.value, if k.pending then latchLower k s2 else s2)

/-- LATCH.ACK (41_latch.md R163; 60_exceptions.md R304 items 1 and 2). -/
def latchAck (l : Nat) (s : State) : Res :=
  match Table.get s.latches l with
  | none => .refused (.latchNotConfigured l)
  | some k =>
    if k.mode == .separateAck && k.pending then .next (latchLower k (s.setLatch l { k with pending := false }))
    else .next (s.emit .protocolViolation)

/-- LATCH.PENDING_R (41_latch.md R164). -/
def latchPending (l : Nat) (s : State) : ResV Bool :=
  match Table.get s.latches l with
  | none => .refused (.latchNotConfigured l)
  | some k => .next (k.pending, s)

/-! ## Banks (40_bank.md) -/

/-- `BANK[b].src[k]`, the source offset of entry `k` (10_state.md R24; log 19). -/
def Bank.src (k : Bank) (entry : Nat) : Nat := (k.start + entry) * k.wsize

/-- The entry a select index names: the index with the XOR mask applied (40_bank.md R145). -/
def Bank.entryOf (k : Bank) (index : Word32) : Nat := (index ^^^ k.xor).toNat

/-- BANK.SELECT (40_bank.md R141; 60_exceptions.md R304 item 5). -/
def bankSelect (b : Nat) (index : Word32) (s : State) : Res :=
  match Table.get s.banks b with
  | none => .refused (.bankNotConfigured b)
  | some k =>
    if k.entryOf index < k.count then
      .next { s with banks := Table.set s.banks b { k with active := k.entryOf index } }
    else
      match k.policy with
      | .clamp => .next { s with banks := Table.set s.banks b { k with active := k.count - 1 } }
      | .noop => .next (s.emit .protocolViolation)

/-- BANK.READ (40_bank.md R142). -/
def bankRead (b off : Nat) (s : State) : ResV Byte :=
  match Table.get s.banks b with
  | none => .refused (.bankNotConfigured b)
  | some k =>
    if off < k.wsize then regionRead k.region (k.src k.active + off) s
    else .refused (.offsetOutsideWindow b off)

/-- BANK.WRITE (40_bank.md R143). -/
def bankWrite (b off : Nat) (v : Byte) (s : State) : Res :=
  match Table.get s.banks b with
  | none => .refused (.bankNotConfigured b)
  | some k =>
    if off < k.wsize then regionWrite k.region (k.src k.active + off) v s
    else .refused (.offsetOutsideWindow b off)

end Sys2Proof.Machine
end

