-- ==== Sys2Proof/Machine/Flags.lean ====
section
/-! DEFINITION. The bytes packed from pending flags and switch bits, and the edges of the P0 shadow: the fabric's flag
computations (10_state.md R34). -/

namespace Sys2Proof.Machine

/-- `v[k] <- p`. -/
def setBit (v : Byte) (k : Nat) (p : Bool) : Byte :=
  (v &&& ~~~(1#8 <<< k)) ||| ((BitVec.ofBool p).setWidth 8 <<< k)

/-- A rising edge on bit `k` (44_peripheral.md R259). -/
def risingEdge (old new : Byte) (k : Nat) : Bool := !old.getLsbD k && new.getLsbD k

/-- A falling edge on bit `k` (44_peripheral.md R259). -/
def fallingEdge (old new : Byte) (k : Nat) : Bool := old.getLsbD k && !new.getLsbD k

/-- Bit `i` of a status register: 0 where the bit is not valid, else the latch's flag, inverted where the invert mask
says so (42_bus.md R190). -/
def statusBit (valid invert : BitVec 4) (i : Nat) (pending : Bool) : Bool :=
  valid.getLsbD i && (pending ^^ invert.getLsbD i)

/-- The byte of a status register from its four bits; bits 7 to 4 are 0 (42_bus.md R190). -/
def statusByte (b0 b1 b2 b3 : Bool) : Byte :=
  0#4 ++ BitVec.ofBool b3 ++ BitVec.ofBool b2 ++ BitVec.ofBool b1 ++ BitVec.ofBool b0

/-- The flag of the latch that a status register names for bit `i`; a bit that is not valid names none
(42_bus.md R190). -/
def statusFlag (valid invert : BitVec 4) (i : Nat) (l : Byte) (s : State) : ResV Bool :=
  if valid.getLsbD i then
    andThen (latchPending l.toNat s) fun p => .next (statusBit valid invert i p.1, p.2)
  else .next (false, s)

/-- A two-bit selector whose lower bit is bit `lo` of P0 (44_peripheral.md R257, R258). -/
def selector (p0 : Byte) (lo : BitVec 3) : Nat := ((p0 >>> lo.toNat) &&& 3#8).toNat

/-- The nibble of switch bits of a P3 read from the two bytes already inverted (44_peripheral.md R258). -/
def dipNibble (d0 d1 : Byte) (sel : Nat) : Byte :=
  0#4 ++ BitVec.ofBool (d1.getLsbD (sel + 4)) ++ BitVec.ofBool (d1.getLsbD sel) ++
    BitVec.ofBool (d0.getLsbD (sel + 4)) ++ BitVec.ofBool (d0.getLsbD sel)

/-- The byte of a P3 read from the two DIP bytes and the two flags (44_peripheral.md R258). -/
def port3Byte (w : PortWiring) (p0 dip0 dip1 : Byte) (inPending outPending : Bool) : Byte :=
  setBit (setBit (dipNibble (~~~dip0) (~~~dip1) (selector p0 w.p3selLo)) w.inpBit.toNat inPending)
    w.outpBit.toNat outPending

end Sys2Proof.Machine
end

