-- ==== Sys2Proof/Machine/Operands.lean ====
section
/-! DEFINITION. Resolving an address to a target and the ten target kinds, which are the operand forms of the bus
operations (20_memory.md R57 to R62; 42_bus.md R186 to R195). -/

namespace Sys2Proof.Machine

/-- One of the two spaces of a CPU. -/
def Cpu.space (cpu : Cpu) : Space → BusSpace
  | .mem => cpu.mem
  | .io => cpu.io

/-- One of the two spaces of a CPU replaced. -/
def Cpu.setSpace (cpu : Cpu) (sp : Space) (b : BusSpace) : Cpu :=
  match sp with
  | .mem => { cpu with mem := b }
  | .io => { cpu with io := b }

/-- Space `sp` of CPU `c`, where there is such a CPU. -/
def State.space? (s : State) (c : Nat) (sp : Space) : Option BusSpace := s.cpus[c]?.map fun cpu => cpu.space sp

/-- Space `sp` of CPU `c` changed by a function. -/
def State.modifySpace (s : State) (c : Nat) (sp : Space) (f : BusSpace → BusSpace) : State :=
  { s with cpus := s.cpus.modify c fun cpu => cpu.setSpace sp (f (cpu.space sp)) }

/-- `LDV[c][sp] <- v` (20_memory.md R60). -/
def State.setLdv (s : State) (c : Nat) (sp : Space) (v : Byte) : State := s.modifySpace c sp fun b => { b with ldv := v }

/-- `zext_ADDR_W(a) & MASK` (20_memory.md R57). -/
def BusSpace.masked (b : BusSpace) (a : Word32) : Nat := (a.toNat % 2 ^ b.addrW) &&& b.mask.toNat

/-- The range contains the address. -/
def BusRange.covers (e : BusRange) (a : Nat) : Bool := decide (e.lo ≤ a) && decide (a ≤ e.hi)

/-- The access mode lets the direction through (20_memory.md R57). -/
def Access.allows : Access → Dir → Bool
  | .r, .rd => true
  | .r, .wr => false
  | .w, .rd => false
  | .w, .wr => true
  | .rw, _ => true

/-- `Resolve`: the range that answers the access and the offset in it, or a miss (20_memory.md R57, R62). -/
def BusSpace.resolve (b : BusSpace) (a : Word32) (dir : Dir) : Option (BusRange × Nat) :=
  match b.map.find? fun e => e.covers (b.masked a) with
  | none => none
  | some e => if Access.allows e.mode dir then some (e, b.masked a - e.lo) else none

/-- `OpenBus` (20_memory.md R60). -/
def BusSpace.openBus (b : BusSpace) : Byte :=
  match b.policy with
  | .const => b.obc
  | .last => b.ldv

/-- A read of a register that has no read side: the open-bus value, a protocol violation (42_bus.md R191 to R193;
60_exceptions.md R304 item 7). -/
def readless (x : Byte) (s : State) : ResV Byte := .next (x, s.emit .protocolViolation)

/-- A write of a register that has no write side: discarded, a protocol violation (42_bus.md R190, R194;
60_exceptions.md R304 item 7). -/
def writeless (s : State) : Res := .next (s.emit .protocolViolation)

/-- `ReadTarget`: the byte a resolved read of the target gives; `openBus` is the open-bus value of the space before the
access (20_memory.md R58; 42_bus.md R186 to R195). -/
def readTarget (openBus : Byte) (t : Target) (off : Nat) (s : State) : ResV Byte :=
  match t with
  | .kMem region roff => regionRead region.toNat (roff.toNat + off) s
  | .kBank bank => bankRead bank.toNat off s
  | .kLatchData latch => latchRead latch.toNat s
  | .kLatchAck latch => andThen (latchAck latch.toNat s) fun s' => .next (openBus, s')
  | .kStatus l0 l1 l2 l3 valid invert =>
    andThen (statusFlag valid invert 0 l0 s) fun b0 =>
    andThen (statusFlag valid invert 1 l1 b0.2) fun b1 =>
    andThen (statusFlag valid invert 2 l2 b1.2) fun b2 =>
    andThen (statusFlag valid invert 3 l3 b2.2) fun b3 =>
    .next (statusByte b0.1 b1.1 b2.1 b3.1, b3.2)
  | .kBankSel _ _ _ => readless openBus s
  | .kLine _ _ _ _ _ => readless openBus s
  | .kLineBit _ _ _ _ => readless openBus s
  | .kInput src => .next (externByte (.input src.toNat) s)
  | .kSink sink => .next (externByte (.sinkRead sink.toNat off) s)

/-- The select index a bank select register makes of a written byte (42_bus.md R191). -/
def bankSelIndex (shift mask v : Byte) : Word32 := ((v >>> shift.toNat) &&& mask).setWidth 32

/-- The level a control register bit drives: ASSERT where the bit has its active level, else CLEAR (42_bus.md R193). -/
def lineBitMode (bit active v : Byte) : LineMode :=
  if v.getLsbD bit.toNat = decide (active = 1) then .assert else .clear

/-- `Sink(k, off, v)`: an output, no change of the fabric (10_state.md R31). -/
def State.sinkWrite (s : State) (k off : Nat) (v : Byte) : State := { s with out := { s.out with sink := some ⟨k, off, v⟩ } }

/-- `WriteTarget`: the effect of a resolved write (20_memory.md R59; 42_bus.md R186 to R195). -/
def writeTarget (t : Target) (off : Nat) (v : Byte) (s : State) : Res :=
  match t with
  | .kMem region roff => regionWrite region.toNat (roff.toNat + off) v s
  | .kBank bank => bankWrite bank.toNat off v s
  | .kLatchData latch => latchWrite latch.toNat v s
  | .kLatchAck latch => latchAck latch.toNat s
  | .kStatus _ _ _ _ _ _ => writeless s
  | .kBankSel bank shift mask => bankSelect bank.toNat (bankSelIndex shift mask v) s
  | .kLine tcpu line mode vec hasVec =>
    .next (lineSet tcpu.toNat line.toNat (LineMode.ofCode (mode.setWidth 2)) (vecOf hasVec vec) s)
  | .kLineBit tcpu line bit active => .next (lineSet tcpu.toNat line.toNat (lineBitMode bit active v) none s)
  | .kInput _ => writeless s
  | .kSink sink => .next (s.sinkWrite sink.toNat off v)

/-- `MemRead(c, sp, addr, 1)` (42_bus.md R182, R184). -/
def busRead (c : Nat) (sp : Space) (addr : Word32) (s : State) : ResV Byte :=
  match s.space? c sp with
  | none => .refused (.noSuchCpu c)
  | some b =>
    match b.resolve addr .rd with
    | some (e, off) =>
      andThen (readTarget b.openBus e.target off s) fun p => .next (p.1, p.2.setLdv c sp p.1)
    | none => .next (b.openBus, s.emit (.openRead c sp addr))

/-- `MemWrite(c, sp, addr, 1, v)` (42_bus.md R183, R185). -/
def busWrite (c : Nat) (sp : Space) (addr : Word32) (v : Byte) (s : State) : Res :=
  match s.space? c sp with
  | none => .refused (.noSuchCpu c)
  | some b =>
    match b.resolve addr .wr with
    | some (e, off) => andThen (writeTarget e.target off v s) fun s' => .next (s'.setLdv c sp v)
    | none => .next (s.emit (.openWrite c sp addr))

end Sys2Proof.Machine
end

