-- ==== Sys2Proof/Machine/Bank.lean ====
section
/-! DEFINITION. The Bank Table operations (40_bank.md). -/

namespace Sys2Proof.Machine

/-- What BANK.CONFIGURE finds wrong, in the order of its rule (40_bank.md R140). -/
def bankConfigureError (b : Nat) (startIndex : Word32) (region : Nat) (count windowSize : Word32) (s : State) :
    Option ErrCode :=
  if (Table.get s.banks b).isSome then some .dup
  else
    match Table.get s.regions region with
    | none => some .unit
    | some g =>
      if count = 0 ∨ windowSize = 0 then some .value
      else if (startIndex.toNat + count.toNat) * windowSize.toNat > g.size then some .bankRange
      else none

/-- BANK.CONFIGURE (40_bank.md R140). -/
def execBankConfigure (b : Byte) (policy : BankPolicy) (startIndex : Word32) (region : Byte)
    (count windowSize xorMask : Word32) (s : State) : Res :=
  whenConfig s fun s =>
    configure (bankConfigureError b.toNat startIndex region.toNat count windowSize s)
      (.bankConfigure b policy startIndex region count windowSize xorMask) s
      { s with
        banks := Table.set s.banks b.toNat
          { region := region.toNat
            start := startIndex.toNat
            count := count.toNat
            wsize := windowSize.toNat
            xor := xorMask
            policy := policy
            binding := none
            active := 0 } }

/-- BANK.SELECT (40_bank.md R141). -/
def execBankSelect (b : Byte) (index : Word32) (s : State) : Res := whenRun s (bankSelect b.toNat index)

/-- BANK.READ (40_bank.md R142). -/
def execBankRead (b : Byte) (offset : Word32) (s : State) : Res :=
  whenRun s fun s => andThen (bankRead b.toNat offset.toNat s) giveByte

/-- BANK.WRITE (40_bank.md R143). -/
def execBankWrite (b : Byte) (offset : Word32) (v : Byte) (s : State) : Res :=
  whenRun s (bankWrite b.toNat offset.toNat v)

end Sys2Proof.Machine
end

