-- ==== Sys2Proof/Machine/Bus.lean ====
section
/-! DEFINITION. The Memory-Mapped Bus operations (42_bus.md). -/

namespace Sys2Proof.Machine

/-- The new range shares an address with a range of the map (42_bus.md R180). -/
def overlaps (lo hi : Nat) (map : List BusRange) : Bool :=
  map.any fun e => !(decide (hi < e.lo) || decide (e.hi < lo))

/-- The latch exists. -/
def State.hasLatch (s : State) (l : Byte) : Bool := (Table.get s.latches l.toNat).isSome

/-- What the checks of a range's target find wrong (42_bus.md R180). DESIGN CHOICE (log 36): in a trigger register, a
vector byte without `has_vec` is no error. -/
def targetError (t : Target) (lo hi : Nat) (s : State) : Option ErrCode :=
  match t with
  | .kMem region roff =>
    match Table.get s.regions region.toNat with
    | none => some .unit
    | some g => if roff.toNat + (hi - lo) < g.size then none else some .value
  | .kBank bank =>
    match Table.get s.banks bank.toNat with
    | none => some .unit
    | some k =>
      if k.binding.isSome then some .dup
      else if hi - lo + 1 = k.wsize then none
      else some .value
  | .kLatchData latch => if s.hasLatch latch then none else some .unit
  | .kLatchAck latch => if s.hasLatch latch then none else some .unit
  | .kStatus l0 l1 l2 l3 valid invert =>
    let named := [(l0, valid.getLsbD 0, invert.getLsbD 0), (l1, valid.getLsbD 1, invert.getLsbD 1),
      (l2, valid.getLsbD 2, invert.getLsbD 2), (l3, valid.getLsbD 3, invert.getLsbD 3)]
    if named.any fun e => e.2.1 && !s.hasLatch e.1 then some .unit
    else if named.any fun e => !e.2.1 && (e.1 != 0 || e.2.2) then some .value
    else none
  | .kBankSel bank shift _ =>
    if (Table.get s.banks bank.toNat).isNone then some .unit
    else if shift.toNat ≤ 7 then none
    else some .value
  | .kLine tcpu _ mode _ _ =>
    if s.ncpu ≤ tcpu.toNat then some .unit
    else if mode.toNat ≤ 3 then none
    else some .value
  | .kLineBit tcpu _ bit active =>
    if s.ncpu ≤ tcpu.toNat then some .unit
    else if bit.toNat ≤ 7 ∧ active.toNat ≤ 1 then none
    else some .value
  | .kInput _ => none
  | .kSink _ => none

/-- What BUS.REGISTER_RANGE finds wrong, in the order of its rule (42_bus.md R180). -/
def registerRangeError (c : Nat) (sp : Space) (lo hi : Nat) (t : Target) (s : State) : Option ErrCode :=
  match s.space? c sp with
  | none => some .unit
  | some b =>
    if hi < lo ∨ 2 ^ b.addrW ≤ hi then some .value
    else if overlaps lo hi b.map then some .overlap
    else targetError t lo hi s

/-- A range whose target is a bank becomes that bank's base, owner and space (42_bus.md R180). -/
def bindTarget (t : Target) (c : Nat) (sp : Space) (lo : Nat) (s : State) : State :=
  match t with
  | .kBank bank =>
    match Table.get s.banks bank.toNat with
    | some k => { s with banks := Table.set s.banks bank.toNat { k with binding := some ⟨lo, c, sp⟩ } }
    | none => s
  | .kMem _ _ | .kLatchData _ | .kLatchAck _ | .kStatus _ _ _ _ _ _ | .kBankSel _ _ _ | .kLine _ _ _ _ _
  | .kLineBit _ _ _ _ | .kInput _ | .kSink _ => s

/-- BUS.REGISTER_RANGE (42_bus.md R180). -/
def execBusRegisterRange (c : Byte) (mode : Access) (space : Space) (lo hi : Word32) (target : Target) (s : State) :
    Res :=
  whenConfig s fun s =>
    configure (registerRangeError c.toNat space lo.toNat hi.toNat target s)
      (.busRegisterRange c mode space lo hi target) s
      ((bindTarget target c.toNat space lo.toNat s).modifySpace c.toNat space fun b =>
        { b with map := b.map ++ [⟨lo.toNat, hi.toNat, mode, target⟩] })

/-- What BUS.SETPOLICY finds wrong, in the order of its rule (42_bus.md R181). -/
def setPolicyError (c : Nat) (policy : OpenBusPolicy) (obc : Byte) (s : State) : Option ErrCode :=
  if s.ncpu ≤ c then some .unit
  else if policy = .last ∧ obc ≠ 0 then some .value
  else none

/-- BUS.SETPOLICY (42_bus.md R181). -/
def execBusSetPolicy (c : Byte) (policy : OpenBusPolicy) (space : Space) (mask : Word32) (obc : Byte) (s : State) :
    Res :=
  whenConfig s fun s =>
    configure (setPolicyError c.toNat policy obc s) (.busSetPolicy c policy space mask obc) s
      (s.modifySpace c.toNat space fun b =>
        { b with mask := BitVec.ofNat 32 (mask.toNat % 2 ^ b.addrW), policy := policy, obc := obc })

/-- BUS.READ (42_bus.md R182). -/
def execBusRead (c : Byte) (addr : Word32) (s : State) : Res :=
  whenRun s fun s => andThen (busRead c.toNat .mem addr s) giveByte

/-- BUS.WRITE (42_bus.md R183). -/
def execBusWrite (c : Byte) (addr : Word32) (v : Byte) (s : State) : Res := whenRun s (busWrite c.toNat .mem addr v)

/-- IO.READ (42_bus.md R184). -/
def execIoRead (c : Byte) (addr : Word32) (s : State) : Res :=
  whenRun s fun s => andThen (busRead c.toNat .io addr s) giveByte

/-- IO.WRITE (42_bus.md R185). -/
def execIoWrite (c : Byte) (addr : Word32) (v : Byte) (s : State) : Res := whenRun s (busWrite c.toNat .io addr v)

end Sys2Proof.Machine
end

