-- ==== Sys2Proof/Machine/Coordinator.lean ====
section
/-! DEFINITION. The Interrupt/Timing Coordinator operations (43_coordinator.md). -/

namespace Sys2Proof.Machine

/-- A run-time operation on CPU `c`: refused where there is no such CPU (60_exceptions.md R302). -/
def onCpu (c : Byte) (s : State) (f : State → State) : Res :=
  whenRun s fun s => if c.toNat < s.ncpu then .next (f s) else .refused (.noSuchCpu c.toNat)

/-- LINE.CLEAR (43_coordinator.md R211; 60_exceptions.md R304 item 9). -/
def execLineClear (c n : Byte) (s : State) : Res :=
  onCpu c s fun s => lineSet c.toNat n.toNat .clear none (s.emitIf ((s.line c.toNat n.toNat).level == .clear))

/-- LINE.ASSERT (43_coordinator.md R212). -/
def execLineAssert (c n : Byte) (hasVec : Bool) (vec : Byte) (s : State) : Res :=
  onCpu c s (lineSet c.toNat n.toNat .assert (vecOf hasVec vec))

/-- LINE.PULSE (43_coordinator.md R213). -/
def execLinePulse (c n : Byte) (hasVec : Bool) (vec : Byte) (s : State) : Res :=
  onCpu c s (lineSet c.toNat n.toNat .pulse (vecOf hasVec vec))

/-- LINE.HOLD (43_coordinator.md R214). -/
def execLineHold (c n : Byte) (hasVec : Bool) (vec : Byte) (s : State) : Res :=
  onCpu c s (lineSet c.toNat n.toNat .hold (vecOf hasVec vec))

/-- The lines of a CPU that are not CLEAR (43_coordinator.md R215; log 23). -/
def pollSnapshot (lines : Table LineRec) : Table LineRec := lines.filter fun e => e.2.level != .clear

/-- The lines of a CPU with every pulse cleared (43_coordinator.md R215). -/
def clearPulses (lines : Table LineRec) : Table LineRec := lines.filter fun e => e.2.level != .pulse

/-- CPU.POLL (43_coordinator.md R215). -/
def execCpuPoll (c : Byte) (s : State) : Res :=
  whenRun s fun s =>
    match s.cpus[c.toNat]? with
    | none => .refused (.noSuchCpu c.toNat)
    | some cpu =>
      .next (State.withResult
        { s with cpus := s.cpus.modify c.toNat fun cpu => { cpu with lines := clearPulses cpu.lines } }
        (.lines (pollSnapshot cpu.lines)))

/-- CPU.IACK (43_coordinator.md R216; 60_exceptions.md R304 item 8). -/
def execCpuIack (c n : Byte) (s : State) : Res :=
  onCpu c s fun s =>
    if (s.line c.toNat n.toNat).level = .hold then s.setLine c.toNat n.toNat LineRec.cleared
    else s.emit .protocolViolation

/-- What SCAN.CONFIGURE finds wrong, in the order of its rule (43_coordinator.md R217). DESIGN CHOICE (log 36): a vector
byte without `has_vec` is no error. -/
def scanConfigureError (c scanline : Nat) (s : State) : Option ErrCode :=
  if s.ncpu ≤ c then some .unit
  else if s.scanLines ≤ scanline then some .value
  else none

/-- SCAN.CONFIGURE (43_coordinator.md R217). -/
def execScanConfigure (c n : Byte) (scanline : BitVec 16) (mode : LineMode) (hasVec : Bool) (vec : Byte) (s : State) :
    Res :=
  whenConfig s fun s =>
    configure (scanConfigureError c.toNat scanline.toNat s) (.scanConfigure c n scanline mode hasVec vec) s
      { s with scanEntries := s.scanEntries ++ [⟨scanline.toNat, c.toNat, n.toNat, mode, hasVec, vec⟩] }

/-- The raster moves to the next scanline (43_coordinator.md R218). -/
def State.nextScanline (s : State) : State :=
  if s.scanV = s.scanLines - 1 then { s with scanV := 0, scanF := s.scanF + 1 }
  else { s with scanV := s.scanV + 1 }

/-- A scanline entry's line operation, where the raster stands at its scanline (43_coordinator.md R218). -/
def fireScanEntry (s : State) (e : ScanEntry) : State :=
  if e.scanline = s.scanV then lineSet e.cpu e.line e.mode (vecOf e.hasVec e.vec) s else s

/-- SCAN.ADVANCE (43_coordinator.md R218). -/
def execScanAdvance (s : State) : Res :=
  whenRun s fun s => .next (s.scanEntries.foldl fireScanEntry s.nextScanline)

/-- What PER.CONFIGURE finds wrong, in the order of its rule (43_coordinator.md R219). DESIGN CHOICE (log 36): a vector
byte without `has_vec` is no error. -/
def perConfigureError (c hz : Nat) (s : State) : Option ErrCode :=
  if s.ncpu ≤ c then some .unit
  else if hz = 0 then some .value
  else none

/-- PER.CONFIGURE (43_coordinator.md R219). -/
def execPerConfigure (c n : Byte) (hz : BitVec 16) (mode : LineMode) (hasVec : Bool) (vec : Byte) (s : State) : Res :=
  whenConfig s fun s =>
    configure (perConfigureError c.toNat hz.toNat s) (.perConfigure c n hz mode hasVec vec) s
      { s with perTimers := s.perTimers ++ [⟨c.toNat, n.toNat, mode, hasVec, vec, hz.toNat, 0⟩] }

/-- PER.TICK (43_coordinator.md R220). -/
def execPerTick (j : Byte) (s : State) : Res :=
  whenRun s fun s =>
    match s.perTimers[j.toNat]? with
    | none => .refused (.noSuchTimer j.toNat)
    | some e =>
      .next (lineSet e.cpu e.line e.mode (vecOf e.hasVec e.vec)
        { s with perTimers := s.perTimers.modify j.toNat fun e => { e with ticks := e.ticks + 1 } })

end Sys2Proof.Machine
end

