-- ==== Sys2Proof/Machine/Latch.lean ====
section
/-! DEFINITION. The Cross-CPU Latch operations (41_latch.md). -/

namespace Sys2Proof.Machine

/-- What LATCH.CONFIGURE finds wrong, in the order of its rule (41_latch.md R160). DESIGN CHOICE (log 36): with a target,
a vector byte without `has_vec` is no error. -/
def latchConfigureError (l : Nat) (hasTarget : Bool) (fire : Fire) (deassert hasVec : Bool) (tcpu tline vec : Byte)
    (s : State) : Option ErrCode :=
  if (Table.get s.latches l).isSome then some .dup
  else if hasTarget ∧ s.ncpu ≤ tcpu.toNat then some .unit
  else if ¬hasTarget ∧ (fire ≠ .level ∨ deassert ∨ hasVec ∨ tcpu ≠ 0 ∨ tline ≠ 0 ∨ vec ≠ 0) then some .value
  else none

/-- LATCH.CONFIGURE (41_latch.md R160); the value is a free byte (log 4). -/
def execLatchConfigure (l : Byte) (mode : LatchMode) (hasTarget : Bool) (fire : Fire) (deassert hasVec : Bool)
    (tcpu tline vec : Byte) (s : State) : Res :=
  whenConfig s fun s =>
    let d := drawByte (.latchValue l.toNat) s
    configure (latchConfigureError l.toNat hasTarget fire deassert hasVec tcpu tline vec s)
      (.latchConfigure l mode hasTarget fire deassert hasVec tcpu tline vec) s
      (d.2.setLatch l.toNat
        { mode := mode
          hasTarget := hasTarget
          tcpu := tcpu.toNat
          tline := tline.toNat
          fire := fire
          deassert := deassert
          hasVec := hasVec
          vec := vec
          value := d.1
          pending := false })

/-- LATCH.WRITE (41_latch.md R161). -/
def execLatchWrite (l v : Byte) (s : State) : Res := whenRun s (latchWrite l.toNat v)

/-- LATCH.READ (41_latch.md R162). -/
def execLatchRead (l : Byte) (s : State) : Res := whenRun s fun s => andThen (latchRead l.toNat s) giveByte

/-- LATCH.ACK (41_latch.md R163). -/
def execLatchAck (l : Byte) (s : State) : Res := whenRun s (latchAck l.toNat)

/-- LATCH.PENDING_R (41_latch.md R164). -/
def execLatchPendingR (l : Byte) (s : State) : Res := whenRun s fun s => andThen (latchPending l.toNat s) giveFlag

end Sys2Proof.Machine
end

