-- ==== Sys2Proof/Machine/Peripheral.lean ====
section
/-! DEFINITION. The Protection/Peripheral Device Adapter operations (44_peripheral.md). -/

namespace Sys2Proof.Machine

/-- The six bits of P0 that a wiring gives a role (44_peripheral.md R250). -/
def port0Bits (w : PortWiring) : List Nat :=
  [w.outBit.toNat, w.ackBit.toNat, w.p2selLo.toNat, w.p2selLo.toNat + 1, w.p3selLo.toNat, w.p3selLo.toNat + 1]

/-- What PORT.CONFIGURE finds wrong, in the order of its rule (44_peripheral.md R250). -/
def portConfigureError (w : PortWiring) (s : State) : Option ErrCode :=
  if s.pcfg.isSome then some .dup
  else if (Table.get s.latches w.outLatch.toNat).isNone ∨ (Table.get s.latches w.inLatch.toNat).isNone ∨
      s.ncpu ≤ w.rstCpu.toNat ∨ s.ncpu ≤ w.mcu.toNat then some .unit
  else if 6 < w.p2selLo.toNat ∨ 6 < w.p3selLo.toNat then some .value
  else if ¬(port0Bits w).Nodup then some .value
  else if w.inpBit.toNat < 4 ∨ w.outpBit.toNat < 4 ∨ w.inpBit = w.outpBit then some .value
  else none

/-- PORT.CONFIGURE (44_peripheral.md R250). -/
def execPortConfigure (w : PortWiring) (s : State) : Res :=
  whenConfig s fun s =>
    configure (portConfigureError w s) (.portConfigure w) s { s with pcfg := some w, p0 := 0, p1 := 0, p2 := 0, p3 := 0 }

/-- A port operation: refused where there is no peripheral (60_exceptions.md R302). -/
def onPorts (s : State) (f : PortWiring → State → Res) : Res :=
  whenRun s fun s =>
    match s.pcfg with
    | none => .refused .noPeripheral
    | some w => f w s

/-- P0.READ (44_peripheral.md R255). -/
def execP0Read (s : State) : Res := onPorts s fun _ s => giveByte (s.p0, s)

/-- P1.READ (44_peripheral.md R256). DEDUCED (log 35): a read of an inbound latch in mode READ_CLEARS clears its flag, as
R256 and 70_reset_and_hazards.md R359 say, though the table of 20_memory.md R55 lists no effect for it. -/
def execP1Read (s : State) : Res := onPorts s fun w s => andThen (latchRead w.inLatch.toNat s) giveByte

/-- The byte of a P2 read; the fourth selector value has no source (44_peripheral.md R257; log 8). -/
def port2Byte (w : PortWiring) (s : State) : Byte × State :=
  match selector s.p0 w.p2selLo with
  | 0 => externByte (.input w.p2src0.toNat) s
  | 1 => externByte (.input w.p2src1.toNat) s
  | 2 => externByte (.input w.p2src2.toNat) s
  | _ => drawByte .port2 s

/-- P2.READ (44_peripheral.md R257). -/
def execP2Read (s : State) : Res := onPorts s fun w s => giveByte (port2Byte w s)

/-- P3.READ (44_peripheral.md R258). -/
def execP3Read (s : State) : Res :=
  onPorts s fun w s =>
    let a := externByte (.dip w.dip0.toNat) s
    let b := externByte (.dip w.dip1.toNat) a.2
    andThen (latchPending w.inLatch.toNat b.2) fun i =>
    andThen (latchPending w.outLatch.toNat i.2) fun o =>
    giveByte (port3Byte w s.p0 a.1 b.1 i.1 o.1, o.2)

/-- P0.WRITE: the rising edge sends P1, the falling edge acknowledges, in that order (44_peripheral.md R251, R259).
DESIGN CHOICE (log 34): the write that "makes no edge" of 60_exceptions.md R304 item 10 is one that makes neither of
these two edges, whatever the other bits do. -/
def execP0Write (v : Byte) (s : State) : Res :=
  onPorts s fun w s =>
    let rise := risingEdge s.p0 v w.outBit.toNat
    let fall := fallingEdge s.p0 v w.ackBit.toNat
    let s1 := ({ s with p0 := v } : State).emitIf (!rise && !fall)
    andThen (if rise then latchWrite w.outLatch.toNat s.p1 s1 else .next s1) fun s2 =>
    if fall then latchAck w.inLatch.toNat s2 else .next s2

/-- P1.WRITE (44_peripheral.md R252). -/
def execP1Write (v : Byte) (s : State) : Res := onPorts s fun _ s => .next { s with p1 := v }

/-- P2.WRITE (44_peripheral.md R253). -/
def execP2Write (v : Byte) (s : State) : Res := onPorts s fun _ s => .next { s with p2 := v }

/-- P3.WRITE: RESET of the target CPU follows the bit (44_peripheral.md R254). -/
def execP3Write (v : Byte) (s : State) : Res :=
  onPorts s fun w s =>
    .next (lineSet w.rstCpu.toNat resetLine
      (if v.getLsbD w.rstBit.toNat = w.rstActive then .assert else .clear) none { s with p3 := v })

end Sys2Proof.Machine
end

