-- ==== Sys2Proof/Machine/System.lean ====
section
/-! DEFINITION. The host operations: SYS.RESET, SYS.SAVE, SYS.RESTORE, SYS.START, REGION.DEFINE (45_system.md). -/

namespace Sys2Proof.Machine

/-- What SYS.START and SYS.RESET both set: pending flags and lines cleared, port shadows, raster and tick counts zero,
every CPU reset by its core (45_system.md R281, R282; 10_state.md R38). -/
def State.clearRunState (s : State) : State :=
  { s with
    latches := Table.mapVals (fun _ k => { k with pending := false }) s.latches
    cpus := s.cpus.map fun cpu => { cpu with lines := [] }
    p0 := 0
    p1 := 0
    p2 := 0
    p3 := 0
    scanV := 0
    scanF := 0
    perTimers := s.perTimers.map fun e => { e with ticks := 0 }
    out := { s.out with cpusReset := true } }

/-- What SYS.RESET leaves unspecified: every latch value and every last decoded value, drawn anew (45_system.md R282;
10_state.md R38; log 4). -/
def State.redraw (s : State) : State :=
  { s with
    latches := Table.mapVals (fun l k => { k with value := Config.freeByte (.latchValue l) s.draws }) s.latches
    cpus := s.cpus.mapIdx fun c cpu =>
      { cpu with
        mem := { cpu.mem with ldv := Config.freeByte (.ldv c false) s.draws }
        io := { cpu.io with ldv := Config.freeByte (.ldv c true) s.draws } }
    draws := s.draws + 1 }

/-- The next step of every CPU is the CPU.POLL that opens its first instruction, since its core has been reset
(45_system.md R282; log 37). -/
def State.restartAll (s : State) : State := { s with restarts := List.range s.ncpu }

/-- The snapshot of the mutable state (45_system.md R283; log 21). -/
def State.snapshot (s : State) : Snapshot where
  active := Table.mapVals (fun _ k => k.active) s.banks
  latchValue := Table.mapVals (fun _ k => k.value) s.latches
  latchPending := Table.mapVals (fun _ k => k.pending) s.latches
  p0 := s.p0
  p1 := s.p1
  p2 := s.p2
  p3 := s.p3
  regions := Table.mapVals (fun _ g => ⟨g.size, g.bytes⟩) (s.regions.filter fun e => e.2.mutbl)
  cpus := s.cpus.map fun cpu => ⟨cpu.mem.ldv, cpu.io.ldv, cpu.lines.filter fun e => e.2.level != .clear⟩
  scanV := s.scanV
  scanF := s.scanF
  ticks := s.perTimers.map fun e => e.ticks
  restarts := s.restarts

/-- The active entry saved for a bank is one the bank has (45_system.md R284). -/
def activeFits (banks : Table Bank) (saved : Table Nat) : Bool :=
  banks.all fun e => match Table.get saved e.1 with
    | some active => decide (active < e.2.count)
    | none => true

/-- The byte string saved for a region is as long as the region (45_system.md R284). -/
def sizesFit (regions : Table Region) (saved : Table RegionSnap) : Bool :=
  regions.all fun e => match Table.get saved e.1 with
    | some n => n.size == e.2.size
    | none => true

/-- The snapshot was made under the present configuration: it has a field for exactly the configured units and each
value fits its unit (45_system.md R284). -/
def Snapshot.fits (n : Snapshot) (s : State) : Bool :=
  Table.sameUnits n.active s.banks && Table.sameUnits n.latchValue s.latches &&
    Table.sameUnits n.latchPending s.latches &&
    Table.sameUnits n.regions (s.regions.filter fun e => e.2.mutbl) &&
    activeFits s.banks n.active && sizesFit s.regions n.regions && n.cpus.length == s.cpus.length &&
    decide (n.scanV < s.scanLines) && n.ticks.length == s.perTimers.length

/-- Every named element takes its saved value; a line with no saved level is CLEAR (45_system.md R284). The CPUs that
were to begin with their poll at the save are so again (log 37). -/
def State.restore (s : State) (n : Snapshot) : State :=
  { s with
    banks := Table.mapVals (fun b k => { k with active := (Table.get n.active b).getD k.active }) s.banks
    latches := Table.mapVals (fun l k =>
      { k with
        value := (Table.get n.latchValue l).getD k.value
        pending := (Table.get n.latchPending l).getD k.pending }) s.latches
    p0 := n.p0
    p1 := n.p1
    p2 := n.p2
    p3 := n.p3
    regions := Table.mapVals (fun r g =>
      match Table.get n.regions r with
      | some saved => if g.mutbl then { g with bytes := saved.bytes } else g
      | none => g) s.regions
    cpus := List.zipWith (fun cpu saved =>
      { mem := { cpu.mem with ldv := saved.ldvMem }
        io := { cpu.io with ldv := saved.ldvIo }
        lines := saved.lines }) s.cpus n.cpus
    scanV := n.scanV
    scanF := n.scanF
    perTimers := List.zipWith (fun e k => { e with ticks := k }) s.perTimers n.ticks
    restarts := n.restarts }

/-- SYS.RESET (45_system.md R282). -/
def execSysReset (s : State) : Res := whenRun s fun s => .next s.clearRunState.redraw.restartAll

/-- SYS.SAVE (45_system.md R283). -/
def execSysSave (slot : Byte) (s : State) : Res :=
  whenRun s fun s => .next { s with snaps := Table.set s.snaps slot.toNat s.snapshot }

/-- SYS.RESTORE (45_system.md R284). -/
def execSysRestore (slot : Byte) (s : State) : Res :=
  whenRun s fun s =>
    match Table.get s.snaps slot.toNat with
    | none => .refused (.noSnapshot slot.toNat)
    | some n => if n.fits s then .next (s.restore n) else .refused (.snapshotMisfit slot.toNat)

/-- SYS.START (45_system.md R281). -/
def execSysStart (s : State) : Res := whenConfig s fun s => .next { s.clearRunState with phase := .run }

/-- What REGION.DEFINE finds wrong (45_system.md R280). -/
def regionDefineError (r : Nat) (size : Word32) (s : State) : Option ErrCode :=
  if (Table.get s.regions r).isSome then some .dup
  else if size = 0 then some .value
  else none

/-- REGION.DEFINE (45_system.md R280). -/
def execRegionDefine (r : Byte) (mutbl : Bool) (size : Word32) (s : State) : Res :=
  whenConfig s fun s =>
    configure (regionDefineError r.toNat size s) (.regionDefine r mutbl size) s
      { s with regions := Table.set s.regions r.toNat ⟨size.toNat, mutbl, []⟩ }

end Sys2Proof.Machine
end

