-- ==== Sys2Proof/Machine/Dispatch.lean ====
section
/-! DEFINITION. Each operation's meaning, one arm per row of spec/opcode_table.json. -/

namespace Sys2Proof.Machine

def exec (i : Instr) (s : State) : Host.Outcome State Fault Refusal :=
  match i with
  | .sysReset => Sys2Proof.Machine.execSysReset s
  | .sysSave slot => Sys2Proof.Machine.execSysSave slot s
  | .sysRestore slot => Sys2Proof.Machine.execSysRestore slot s
  | .sysStart => Sys2Proof.Machine.execSysStart s
  | .regionDefine r mutbl size => Sys2Proof.Machine.execRegionDefine r mutbl size s
  | .bankConfigure b policy startIndex region count windowSize xorMask => Sys2Proof.Machine.execBankConfigure b policy startIndex region count windowSize xorMask s
  | .bankSelect b index => Sys2Proof.Machine.execBankSelect b index s
  | .bankRead b offset => Sys2Proof.Machine.execBankRead b offset s
  | .bankWrite b offset v => Sys2Proof.Machine.execBankWrite b offset v s
  | .latchConfigure l mode hasTarget fire deassert hasVec tcpu tline vec => Sys2Proof.Machine.execLatchConfigure l mode hasTarget fire deassert hasVec tcpu tline vec s
  | .latchWrite l v => Sys2Proof.Machine.execLatchWrite l v s
  | .latchRead l => Sys2Proof.Machine.execLatchRead l s
  | .latchAck l => Sys2Proof.Machine.execLatchAck l s
  | .latchPendingR l => Sys2Proof.Machine.execLatchPendingR l s
  | .busRegisterRange c mode space lo hi target => Sys2Proof.Machine.execBusRegisterRange c mode space lo hi target s
  | .busRead c addr => Sys2Proof.Machine.execBusRead c addr s
  | .busWrite c addr v => Sys2Proof.Machine.execBusWrite c addr v s
  | .busSetPolicy c policy space mask obc => Sys2Proof.Machine.execBusSetPolicy c policy space mask obc s
  | .ioRead c addr => Sys2Proof.Machine.execIoRead c addr s
  | .ioWrite c addr v => Sys2Proof.Machine.execIoWrite c addr v s
  | .lineClear c n => Sys2Proof.Machine.execLineClear c n s
  | .lineAssert c n hasVec vec => Sys2Proof.Machine.execLineAssert c n hasVec vec s
  | .linePulse c n hasVec vec => Sys2Proof.Machine.execLinePulse c n hasVec vec s
  | .lineHold c n hasVec vec => Sys2Proof.Machine.execLineHold c n hasVec vec s
  | .cpuPoll c => Sys2Proof.Machine.execCpuPoll c s
  | .cpuIack c n => Sys2Proof.Machine.execCpuIack c n s
  | .scanConfigure c n scanline mode hasVec vec => Sys2Proof.Machine.execScanConfigure c n scanline mode hasVec vec s
  | .scanAdvance => Sys2Proof.Machine.execScanAdvance s
  | .perConfigure c n hz mode hasVec vec => Sys2Proof.Machine.execPerConfigure c n hz mode hasVec vec s
  | .perTick j => Sys2Proof.Machine.execPerTick j s
  | .portConfigure w => Sys2Proof.Machine.execPortConfigure w s
  | .p0Read => Sys2Proof.Machine.execP0Read s
  | .p1Read => Sys2Proof.Machine.execP1Read s
  | .p2Read => Sys2Proof.Machine.execP2Read s
  | .p3Read => Sys2Proof.Machine.execP3Read s
  | .p0Write v => Sys2Proof.Machine.execP0Write v s
  | .p1Write v => Sys2Proof.Machine.execP1Write v s
  | .p2Write v => Sys2Proof.Machine.execP2Write v s
  | .p3Write v => Sys2Proof.Machine.execP3Write v s

end Sys2Proof.Machine
end

