-- ==== Sys2Proof/Machine/Issue.lean ====
section
/-! DEFINITION. Which agent issues an operation, the instruction slots, and taking the next operation from the queue
(10_state.md R20; 20_memory.md R64; 30_encoding.md R114; 43_coordinator.md R221; log 1, log 14, log 15, log 37). -/

namespace Sys2Proof.Machine

/-- The peripheral, where there is one: the unit `MCU` (44_peripheral.md R250). -/
def State.peripheral (s : State) : Agent :=
  match s.pcfg with
  | some w => .cpu w.mcu.toNat
  | none => .any

/-- The agent that issues an operation (30_encoding.md R114; 60_exceptions.md R311 (b); log 14). -/
def issuer (i : Instr) (s : State) : Agent :=
  match i with
  | .sysReset | .sysSave _ | .sysRestore _ | .sysStart | .regionDefine _ _ _ => .host
  | .bankConfigure _ _ _ _ _ _ _ | .latchConfigure _ _ _ _ _ _ _ _ _ | .busRegisterRange _ _ _ _ _ _ => .host
  | .busSetPolicy _ _ _ _ _ | .scanConfigure _ _ _ _ _ _ | .perConfigure _ _ _ _ _ _ | .portConfigure _ => .host
  | .bankSelect _ _ | .bankRead _ _ | .bankWrite _ _ _ => .any
  | .latchWrite _ _ | .latchRead _ | .latchAck _ | .latchPendingR _ => .any
  | .lineClear _ _ | .lineAssert _ _ _ _ | .linePulse _ _ _ _ | .lineHold _ _ _ _ => .any
  | .busRead c _ | .busWrite c _ _ | .ioRead c _ | .ioWrite c _ _ | .cpuPoll c | .cpuIack c _ => .cpu c.toNat
  | .scanAdvance => .scanTimer
  | .perTick j => .perTimer j.toNat
  | .p0Read | .p1Read | .p2Read | .p3Read => s.peripheral
  | .p0Write _ | .p1Write _ | .p2Write _ | .p3Write _ => s.peripheral

/-- The phase an operation belongs to (30_encoding.md R114). -/
def phaseOf : Instr → Phase
  | .sysStart | .regionDefine _ _ _ | .bankConfigure _ _ _ _ _ _ _ => .config
  | .latchConfigure _ _ _ _ _ _ _ _ _ | .busRegisterRange _ _ _ _ _ _ | .busSetPolicy _ _ _ _ _ => .config
  | .scanConfigure _ _ _ _ _ _ | .perConfigure _ _ _ _ _ _ | .portConfigure _ => .config
  | .sysReset | .sysSave _ | .sysRestore _ => .run
  | .bankSelect _ _ | .bankRead _ _ | .bankWrite _ _ _ => .run
  | .latchWrite _ _ | .latchRead _ | .latchAck _ | .latchPendingR _ => .run
  | .busRead _ _ | .busWrite _ _ _ | .ioRead _ _ | .ioWrite _ _ _ => .run
  | .lineClear _ _ | .lineAssert _ _ _ _ | .linePulse _ _ _ _ | .lineHold _ _ _ _ | .cpuPoll _ | .cpuIack _ _ => .run
  | .scanAdvance | .perTick _ => .run
  | .p0Read | .p1Read | .p2Read | .p3Read | .p0Write _ | .p1Write _ | .p2Write _ | .p3Write _ => .run

/-- The CPU that would issue the operation but is held by its RESET line, where the agent is such a CPU: a held CPU
issues no operation (43_coordinator.md R221; log 13). -/
def State.heldIssuer (s : State) : Agent → Option Nat
  | .cpu c => if s.held c then some c else none
  | .host | .scanTimer | .perTimer _ | .any => none

/-- The CPU that the operation polls: a CPU.POLL opens an instruction (20_memory.md R64). -/
def polledCpu (i : Instr) : Option Nat :=
  match i with
  | .cpuPoll c => some c.toNat
  | _ => none

/-- The operation is the CPU.POLL that opens an instruction (20_memory.md R64). -/
def opensSlot (i : Instr) : Bool := (polledCpu i).isSome

/-- The agent is an execution unit, whose unit of interleaving is the instruction; a step of any other agent is a unit
of its own (20_memory.md R64). -/
def Agent.isCpu : Agent → Bool
  | .cpu _ => true
  | .host | .scanTimer | .perTimer _ | .any => false

/-- The agent is a CPU that its RESET line or SYS.RESET has reset and that has not polled since: its next step is the
CPU.POLL that opens its first instruction (43_coordinator.md R221; 45_system.md R282; log 37). -/
def State.restarting (s : State) : Agent → Bool
  | .cpu c => s.restarts.contains c
  | .host | .scanTimer | .perTimer _ | .any => false

/-- The operation `i` of agent `a` may stand where it stands: inside a turn, an operation of the same CPU other than the
poll that opens an instruction; at the front of a turn, any operation, but in a whole instruction and in the first one
after a reset of the CPU the poll (20_memory.md R64; 43_coordinator.md R221; 45_system.md R282; log 15, log 37). -/
def State.inSlot (s : State) (whole : Bool) (i : Instr) (a : Agent) : Bool :=
  match s.slot with
  | some b => b == a && a.isCpu && !opensSlot i
  | none => !((whole && a.isCpu) || s.restarting a) || opensSlot i

/-- The operation is the poll in which its CPU sees a pulse on its RESET line (43_coordinator.md R221). -/
def State.seesReset (s : State) (i : Instr) : Bool :=
  match polledCpu i with
  | some c => (s.line c resetLine).level == .pulse
  | none => false

/-- The words of a turn that are still to be executed once its operation `i` is: the core of a CPU that sees a pulse on
its RESET line restarts instead of executing the instruction that its poll would have opened (43_coordinator.md R221). -/
def State.wordsLeft (s : State) (i : Instr) (ws : List OpWord) : List OpWord := if s.seesReset i then [] else ws

/-- CPU `c` has been reset and has not polled since, once operation `i` is issued: it is held, or it sees a pulse on its
RESET line in this poll, or it was reset before and this is no poll of it (43_coordinator.md R221; 45_system.md
R282). -/
def State.resetBy (s : State) (i : Instr) (c : Nat) : Bool :=
  s.held c || if polledCpu i = some c then s.seesReset i else s.restarts.contains c

/-- The queue once the operation at its front is taken: the words `ws` that its turn still has come next, before any
other agent's (20_memory.md R64). -/
def afterOp (turn : Turn) (ws : List OpWord) (later : List Turn) : List Turn :=
  if ws.isEmpty then later else { turn with words := ws } :: later

/-- The turn that is in progress once agent `a` has issued an operation and `ws` are the words its turn still has
(20_memory.md R64). -/
def slotAfter (a : Agent) (ws : List OpWord) : Option Agent := if ws.isEmpty then none else some a

/-- The state in which the operation at the front of the queue is executed: it is taken from `turn`, whose other words
are `ws` (log 1, log 15, log 37). -/
def State.takeOp (s : State) (i : Instr) (turn : Turn) (ws : List OpWord) (later : List Turn) : State :=
  { s with
    queue := afterOp turn (s.wordsLeft i ws) later
    slot := slotAfter (issuer i s) (s.wordsLeft i ws)
    restarts := (List.range s.ncpu).filter (s.resetBy i) }

/-- The state with the words of one operation as a turn in front of the queue (log 1, log 15). -/
def State.issue (s : State) (ws : List OpWord) : State := { s with queue := ⟨false, ws⟩ :: s.queue, slot := none }

end Sys2Proof.Machine
end

