-- ==== Sys2Proof/Machine/Step.lean ====
section
/-! DEFINITION. One step of the fabric: the next operation of the execution order (20_memory.md R63). -/

namespace Sys2Proof.Machine

/-- One step. With no operation issued nothing happens (log 2); words the decoder rejects are refused (30_encoding.md
R116, R117); a CPU its RESET line holds issues no operation (43_coordinator.md R221, log 13), no agent issues one inside
another's instruction (20_memory.md R64, log 15), and a CPU that has been reset begins with its poll (R221;
45_system.md R282; log 37); otherwise the operation is executed whole (00_scope.md R9). -/
def step (s : State) : Host.Outcome State Fault Refusal :=
  match s.queue with
  | [] => .next s
  | turn :: later =>
    match decode turn.words with
    | none => .refused .invalidWord
    | some (i, ws) =>
      match s.heldIssuer (issuer i s) with
      | some c => .refused (.cpuHeld c)
      | none =>
        if s.inSlot turn.whole i (issuer i s) then exec i (s.takeOp i turn ws later)
        else .refused (.outsideSlot (issuer i s))

/-- The state with the operation whose bits are `w` as the next turn of the queue (log 1). -/
def State.withFetchWord (s : State) (nbits w : Nat) : State := s.issue (tableOp nbits w)

end Sys2Proof.Machine
end

