-- ==== Sys2Proof/Safety.lean ====
section
/-! DEFINITION. The terms claims about the fabric use: the parts of the state that a frame speaks about, and the
invariants of the configuration and of the run-time state. -/

namespace Sys2Proof.Machine

/-! ## Frames -/

/-- The size and the mutability of a region, its configuration (10_state.md R23). -/
def Region.setup (g : Region) : Nat × Bool := (g.size, g.mutbl)

/-- A bank's configuration: all of it but `active` (10_state.md R24). -/
def Bank.setup (k : Bank) : Bank := { k with active := 0 }

/-- A latch's configuration: all of it but `value` and `pending` (10_state.md R39). -/
def Latch.setup (k : Latch) : Latch := { k with value := 0, pending := false }

/-- A space's configuration: all of it but its last decoded value (10_state.md R26). -/
def BusSpace.setup (b : BusSpace) : BusSpace := { b with ldv := 0 }

/-- A periodic entry without its tick count (10_state.md R30). -/
def PerTimer.setup (e : PerTimer) : PerTimer := { e with ticks := 0 }

/-- `LDV[c][sp]`, where there is such a CPU. -/
def State.ldv? (s : State) (c : Nat) (sp : Space) : Option Byte := (s.space? c sp).map fun b => b.ldv

/-- The parts of the state. -/
inductive Part where
  | phase
  | memory
  | regionSetup
  | banks
  | latches
  | busSetup
  | ldv
  | lines
  | p0
  | p1
  | p2
  | p3
  | pcfg
  | raster
  | scanSetup
  | timers
  | snaps
  | error
  | slot
  | restarts
  | queue
  | extIn
  | draws
  | out
deriving DecidableEq, Repr

/-- A part of the state reads the same in both states: every byte of memory, every line and every record through the
model's own read of it. -/
def Part.same (s t : State) : Part → Prop
  | .phase => t.phase = s.phase
  | .memory => ∀ r off, t.byteAt r off = s.byteAt r off
  | .regionSetup => ∀ r, (Table.get t.regions r).map Region.setup = (Table.get s.regions r).map Region.setup
  | .banks => ∀ b, Table.get t.banks b = Table.get s.banks b
  | .latches => ∀ l, Table.get t.latches l = Table.get s.latches l
  | .busSetup => t.ncpu = s.ncpu ∧
      ∀ c sp, (t.space? c sp).map BusSpace.setup = (s.space? c sp).map BusSpace.setup
  | .ldv => ∀ c sp, t.ldv? c sp = s.ldv? c sp
  | .lines => ∀ c n, t.line c n = s.line c n
  | .p0 => t.p0 = s.p0
  | .p1 => t.p1 = s.p1
  | .p2 => t.p2 = s.p2
  | .p3 => t.p3 = s.p3
  | .pcfg => t.pcfg = s.pcfg
  | .raster => t.scanV = s.scanV ∧ t.scanF = s.scanF
  | .scanSetup => t.scanLines = s.scanLines ∧ t.scanEntries = s.scanEntries
  | .timers => t.perTimers = s.perTimers
  | .snaps => ∀ slot, Table.get t.snaps slot = Table.get s.snaps slot
  | .error => t.error = s.error
  | .slot => t.slot = s.slot
  | .restarts => t.restarts = s.restarts
  | .queue => t.queue = s.queue
  | .extIn => t.extIn = s.extIn
  | .draws => t.draws = s.draws
  | .out => t.out = s.out

/-- Every part of the state but those listed reads the same in both states. -/
def Unchanged (s t : State) (but : List Part) : Prop := ∀ p, p ∉ but → Part.same s t p

/-- All configuration reads the same in both states (10_state.md R35). -/
def SameSetup (s t : State) : Prop :=
  (∀ r, (Table.get t.regions r).map Region.setup = (Table.get s.regions r).map Region.setup) ∧
  (∀ b, (Table.get t.banks b).map Bank.setup = (Table.get s.banks b).map Bank.setup) ∧
  (∀ l, (Table.get t.latches l).map Latch.setup = (Table.get s.latches l).map Latch.setup) ∧
  t.ncpu = s.ncpu ∧
  (∀ c sp, (t.space? c sp).map BusSpace.setup = (s.space? c sp).map BusSpace.setup) ∧
  t.pcfg = s.pcfg ∧ t.scanLines = s.scanLines ∧ t.scanEntries = s.scanEntries ∧
  t.perTimers.map PerTimer.setup = s.perTimers.map PerTimer.setup

/-- The operation handed out this result, called no `Sink` and reset no CPU. What it may log is left open
(60_exceptions.md R303, R304). -/
def HandsOut (t : State) (r : Result) : Prop := t.out.result = r ∧ t.out.sink = none ∧ t.out.cpusReset = false

/-- `LDV[c][sp]` holds `v` and every other last decoded value is as before (20_memory.md R60). -/
def LdvSet (s t : State) (c : Nat) (sp : Space) (v : Byte) : Prop :=
  ∀ d sq, t.ldv? d sq = if d = c ∧ sq = sp then some v else s.ldv? d sq

/-- Line `n` of CPU `c` has the record `r`, and every other line is as before. -/
def LineIs (s t : State) (c n : Nat) (r : LineRec) : Prop :=
  ∀ d m, t.line d m = if d = c ∧ m = n then r else s.line d m

/-- Latch `l` has the record `k`, and every other latch is as before. -/
def LatchIs (s t : State) (l : Nat) (k : Latch) : Prop :=
  Table.get t.latches l = some k ∧ ∀ m, m ≠ l → Table.get t.latches m = Table.get s.latches m

/-- The record of a line that latch `k` has raised (41_latch.md R161; 43_coordinator.md R210). -/
def Latch.raised (k : Latch) : LineRec :=
  ⟨match k.fire with | .level => .assert | .pulse => .pulse, k.hasVec, if k.hasVec then k.vec else 0⟩

/-- What LATCH.WRITE does to latch `l` with the record `k` and to the lines (41_latch.md R161). A latch that fires has a
target CPU that exists (R160). -/
def LatchWritten (s t : State) (l : Nat) (k : Latch) (v : Byte) : Prop :=
  LatchIs s t l { k with value := v, pending := true } ∧
    if k.hasTarget = true ∧ k.pending = false then LineIs s t k.tcpu k.tline k.raised else Part.same s t .lines

/-- Clearing the pending flag of this latch lowers its line (41_latch.md R162, R163). -/
def Latch.lowers (k : Latch) : Prop := k.pending = true ∧ k.hasTarget = true ∧ k.fire = .level ∧ k.deassert = true

/-- What clearing the pending flag of latch `l` with the record `k` does where `clears` holds; else nothing
(41_latch.md R162, R163). -/
def LatchCleared (s t : State) (l : Nat) (k : Latch) (clears : Prop) : Prop :=
  (clears → LatchIs s t l { k with pending := false } ∧
    (k.lowers → LineIs s t k.tcpu k.tline LineRec.cleared) ∧ (¬k.lowers → Part.same s t .lines)) ∧
  (¬clears → Part.same s t .latches ∧ Part.same s t .lines)

/-- A configuration error is taken: the operation changes nothing, `PHASE` becomes ABORTED, and the code and the
operation's words are recorded (60_exceptions.md R301, R302). -/
def Raises (i : Instr) (s : State) (code : ErrCode) : Prop :=
  ∃ t, exec i s = .next t ∧ t.phase = .aborted ∧ t.error = some ⟨code, encode i⟩ ∧
    Unchanged s t [.phase, .error, .out]

/-- The error that the check of a range's target raises, by the kind of target (42_bus.md R180). -/
def TargetRaises (s : State) (lo hi : Nat) (g : Target) (code : ErrCode) : Prop :=
  match g with
  | .kMem region roff =>
    (Table.get s.regions region.toNat = none ∧ code = .unit) ∨
      ∃ r, Table.get s.regions region.toNat = some r ∧ r.size ≤ roff.toNat + (hi - lo) ∧ code = .value
  | .kBank bank =>
    (Table.get s.banks bank.toNat = none ∧ code = .unit) ∨
      ∃ k, Table.get s.banks bank.toNat = some k ∧
        ((k.binding ≠ none ∧ code = .dup) ∨ (k.binding = none ∧ hi - lo + 1 ≠ k.wsize ∧ code = .value))
  | .kLatchData latch => Table.get s.latches latch.toNat = none ∧ code = .unit
  | .kLatchAck latch => Table.get s.latches latch.toNat = none ∧ code = .unit
  | .kStatus l0 l1 l2 l3 valid invert =>
    let missing : Prop := ∃ i l, (i, l) ∈ [(0, l0), (1, l1), (2, l2), (3, l3)] ∧ valid.getLsbD i = true ∧
      Table.get s.latches l.toNat = none
    let stray : Prop := ∃ i l, (i, l) ∈ [(0, l0), (1, l1), (2, l2), (3, l3)] ∧ valid.getLsbD i = false ∧
      (l ≠ 0 ∨ invert.getLsbD i = true)
    (missing ∧ code = .unit) ∨ (¬missing ∧ stray ∧ code = .value)
  | .kBankSel bank shift _ =>
    (Table.get s.banks bank.toNat = none ∧ code = .unit) ∨
      (Table.get s.banks bank.toNat ≠ none ∧ 7 < shift.toNat ∧ code = .value)
  | .kLine tcpu _ mode _ _ =>
    (s.ncpu ≤ tcpu.toNat ∧ code = .unit) ∨ (tcpu.toNat < s.ncpu ∧ 3 < mode.toNat ∧ code = .value)
  | .kLineBit tcpu _ bit active =>
    (s.ncpu ≤ tcpu.toNat ∧ code = .unit) ∨
      (tcpu.toNat < s.ncpu ∧ (7 < bit.toNat ∨ 1 < active.toNat) ∧ code = .value)
  | .kInput _ => False
  | .kSink _ => False

/-- The snapshot was not made under the present configuration: a field names a unit that is not configured, a configured
unit has no field, a bank's active entry is none it has, the raster position is no scanline, or a region's byte string
has the wrong length (45_system.md R283, R284). Only mutable regions have a field. -/
def Snapshot.Misfits (n : Snapshot) (s : State) : Prop :=
  (∃ b, (Table.get n.active b).isSome ≠ (Table.get s.banks b).isSome) ∨
  (∃ l, (Table.get n.latchValue l).isSome ≠ (Table.get s.latches l).isSome) ∨
  (∃ l, (Table.get n.latchPending l).isSome ≠ (Table.get s.latches l).isSome) ∨
  (∃ r, (Table.get n.regions r).isSome ≠ (Table.get s.regions r).any fun g => g.mutbl) ∨
  n.cpus.length ≠ s.ncpu ∨ n.ticks.length ≠ s.perTimers.length ∨
  (∃ b k a, Table.get s.banks b = some k ∧ Table.get n.active b = some a ∧ k.count ≤ a) ∨
  s.scanLines ≤ n.scanV ∨
  ∃ r g saved, Table.get s.regions r = some g ∧ Table.get n.regions r = some saved ∧ saved.size ≠ g.size

/-! ## Operations by space, and several operations -/

/-- BUS.READ or IO.READ (42_bus.md R182, R184). -/
def readOp : Space → Byte → Word32 → Instr
  | .mem, c, addr => .busRead c addr
  | .io, c, addr => .ioRead c addr

/-- BUS.WRITE or IO.WRITE (42_bus.md R183, R185). -/
def writeOp : Space → Byte → Word32 → Byte → Instr
  | .mem, c, addr, v => .busWrite c addr v
  | .io, c, addr, v => .ioWrite c addr v

/-- Operations executed one after another. -/
def runOps : List Instr → State → Res
  | [], s => .next s
  | i :: is, s => andThen (exec i s) (runOps is)

/-- The target an access of CPU `c` in space `sp` resolves to, where it hits (20_memory.md R57). -/
def State.target? (s : State) (c : Nat) (sp : Space) (addr : Word32) (dir : Dir) : Option Target :=
  (s.space? c sp).bind fun b => (b.resolve addr dir).map fun p => p.1.target

/-- The operation is an access of CPU `c` in space `sp` that hits. -/
def hitsSpace (i : Instr) (s : State) (c : Nat) (sp : Space) : Prop :=
  ∃ cc addr, cc.toNat = c ∧ ((i = readOp sp cc addr ∧ (s.target? c sp addr .rd).isSome = true) ∨
    ∃ v, i = writeOp sp cc addr v ∧ (s.target? c sp addr .wr).isSome = true)

/-- The operation reads a location bound to this target. -/
def readsTarget (i : Instr) (s : State) (g : Target) : Prop :=
  ∃ cc sp addr, i = readOp sp cc addr ∧ s.target? cc.toNat sp addr .rd = some g

/-- The operation writes a location bound to this target. -/
def writesTarget (i : Instr) (s : State) (g : Target) : Prop :=
  ∃ cc sp addr v, i = writeOp sp cc addr v ∧ s.target? cc.toNat sp addr .wr = some g

/-- The ways to set the pending flag of latch `l` (10_state.md R34): LATCH.WRITE, itself, through a data port or through
a P0 write. -/
def setsLatch (i : Instr) (s : State) (l : Byte) : Prop :=
  (∃ v, i = .latchWrite l v) ∨ writesTarget i s (.kLatchData l) ∨
    ∃ v w, i = .p0Write v ∧ s.pcfg = some w ∧ w.outLatch = l ∧ risingEdge s.p0 v w.outBit.toNat = true

/-- The ways to clear the pending flag of latch `l` other than a reset (10_state.md R34): LATCH.READ and LATCH.ACK,
themselves, through a register or through a port. -/
def clearsLatch (i : Instr) (s : State) (l : Byte) : Prop :=
  i = .latchRead l ∨ i = .latchAck l ∨ readsTarget i s (.kLatchData l) ∨ readsTarget i s (.kLatchAck l) ∨
    writesTarget i s (.kLatchAck l) ∨ (∃ w, i = .p1Read ∧ s.pcfg = some w ∧ w.inLatch = l) ∨
    ∃ v w, i = .p0Write v ∧ s.pcfg = some w ∧ w.inLatch = l ∧ fallingEdge s.p0 v w.ackBit.toNat = true

/-! ## Invariants -/

/-- The memory is canonical and holds no byte past the region's end. -/
def regionOk (size : Nat) (bytes : Memory) : Bool := Memory.wf bytes && bytes.all fun e => decide (e.1 < size)

/-- Every region's memory, and every saved one, is canonical. -/
def State.memoryOk (s : State) : Bool :=
  (s.regions.all fun e => regionOk e.2.size e.2.bytes) &&
    s.snaps.all fun n => n.2.regions.all fun e => regionOk e.2.size e.2.bytes

/-- A table of lines is canonical: it lists exactly lines that are not cleared. -/
def linesCanonical (lines : Table LineRec) : Bool := Table.wf lines && lines.all fun e => e.2 != LineRec.cleared

/-- Every CPU's lines, and every saved line, are canonical. -/
def State.linesOk (s : State) : Bool :=
  (s.cpus.all fun cpu => linesCanonical cpu.lines) &&
    s.snaps.all fun n => n.2.cpus.all fun cpu => linesCanonical cpu.lines

/-- The tables of the units are canonical. -/
def State.tablesOk (s : State) : Bool :=
  Table.wf s.regions && Table.wf s.banks && Table.wf s.latches && Table.wf s.snaps

/-- Everything the state keeps in a canonical form has it. -/
def State.canonicalOk (s : State) : Bool := s.memoryOk && s.linesOk && s.tablesOk

/-- The raster stands at a scanline (10_state.md R29). -/
def State.rasterOk (s : State) : Bool := decide (s.scanV < s.scanLines)

/-- A bank's windows lie inside its region and its active entry is one it has (10_state.md R24; 40_bank.md R140). -/
def bankOk (s : State) (k : Bank) : Bool :=
  decide (k.active < k.count) &&
    match Table.get s.regions k.region with
    | some g => decide ((k.start + k.count) * k.wsize ≤ g.size)
    | none => false

/-- Every bank is as BANK.CONFIGURE and BANK.SELECT leave it. -/
def State.banksOk (s : State) : Bool := s.banks.all fun e => bankOk s e.2

/-- What a registered range's target names exists and fits the range (42_bus.md R180). -/
def targetOk (s : State) (c : Nat) (sp : Space) (lo hi : Nat) : Target → Bool
  | .kMem region roff =>
    match Table.get s.regions region.toNat with
    | some g => decide (roff.toNat + (hi - lo) < g.size)
    | none => false
  | .kBank bank =>
    match Table.get s.banks bank.toNat with
    | some k => decide (hi - lo + 1 = k.wsize) && decide (k.binding = some ⟨lo, c, sp⟩)
    | none => false
  | .kLatchData latch => s.hasLatch latch
  | .kLatchAck latch => s.hasLatch latch
  | .kStatus l0 l1 l2 l3 valid _ =>
    (!valid.getLsbD 0 || s.hasLatch l0) && (!valid.getLsbD 1 || s.hasLatch l1) &&
      (!valid.getLsbD 2 || s.hasLatch l2) && (!valid.getLsbD 3 || s.hasLatch l3)
  | .kBankSel bank shift _ => (Table.get s.banks bank.toNat).isSome && decide (shift.toNat ≤ 7)
  | .kLine tcpu _ mode _ _ => decide (tcpu.toNat < s.ncpu) && decide (mode.toNat ≤ 3)
  | .kLineBit tcpu _ bit active =>
    decide (tcpu.toNat < s.ncpu) && decide (bit.toNat ≤ 7) && decide (active.toNat ≤ 1)
  | .kInput _ => true
  | .kSink _ => true

/-- A range's bounds are addresses of its space in order (10_state.md R25). -/
def boundsOk (addrW : Nat) (e : BusRange) : Bool := decide (e.lo ≤ e.hi) && decide (e.hi < 2 ^ addrW)

/-- No two ranges of a map share an address (10_state.md R25). -/
def disjointMap (map : List BusRange) : Bool := decide (map.Pairwise fun d e => d.hi < e.lo ∨ e.hi < d.lo)

/-- The ranges of a map are in order and share no address (10_state.md R25). -/
def BusSpace.rangesOk (b : BusSpace) : Bool := b.map.all (boundsOk b.addrW) && disjointMap b.map

/-- Every map of every CPU keeps the invariant of 10_state.md R25. -/
def State.mapsOk (s : State) : Bool := s.cpus.all fun cpu => cpu.mem.rangesOk && cpu.io.rangesOk

/-- What the ranges of a map target exists (42_bus.md R180). -/
def targetsOk (s : State) (c : Nat) (sp : Space) (b : BusSpace) : Bool :=
  b.map.all fun e => targetOk s c sp e.lo e.hi e.target

/-- What every range of every map targets exists. -/
def State.targetsOk (s : State) : Bool :=
  s.cpus.zipIdx.all fun e => Machine.targetsOk s e.2 .mem e.1.mem && Machine.targetsOk s e.2 .io e.1.io

/-- A latch's target CPU exists (41_latch.md R160). -/
def State.latchesOk (s : State) : Bool := s.latches.all fun e => !e.2.hasTarget || decide (e.2.tcpu < s.ncpu)

/-- The peripheral's latches and CPUs exist (44_peripheral.md R250). -/
def State.peripheralOk (s : State) : Bool :=
  match s.pcfg with
  | none => true
  | some w => s.hasLatch w.outLatch && s.hasLatch w.inLatch && decide (w.rstCpu.toNat < s.ncpu) &&
      decide (w.mcu.toNat < s.ncpu)

/-- A scanline entry names a scanline and a CPU that exist and a mode other than CLEAR (10_state.md R29;
43_coordinator.md R217). -/
def scanEntryOk (s : State) (e : ScanEntry) : Bool :=
  decide (e.cpu < s.ncpu) && decide (e.scanline < s.scanLines) && e.mode != .clear

/-- A periodic entry names a CPU that exists and a mode other than CLEAR (43_coordinator.md R219). -/
def perTimerOk (s : State) (e : PerTimer) : Bool := decide (e.cpu < s.ncpu) && e.mode != .clear

/-- Every timer entry is as its configuration leaves it. -/
def State.timersOk (s : State) : Bool := s.scanEntries.all (scanEntryOk s) && s.perTimers.all (perTimerOk s)

/-- Every unit that a configured record names exists, so that every configured path reaches a unit (60_exceptions.md
R302). -/
def State.refsOk (s : State) : Bool := s.banksOk && s.targetsOk && s.latchesOk && s.peripheralOk && s.timersOk

/-- The fabric is ABORTED exactly when a configuration error is recorded (60_exceptions.md R302). -/
def State.errorOk (s : State) : Bool := decide (s.phase = .aborted) == s.error.isSome

/-- The maps are in order, the raster stands at a scanline, and the fabric is ABORTED exactly with an error recorded. -/
def State.shapeOk (s : State) : Bool := s.mapsOk && s.rasterOk && s.errorOk

end Sys2Proof.Machine
end

