-- ==== Sys2Proof/Certificates/Slice0/Obligations.lean ====
section
/-! DEFINITION. The statements about the fabric that are to be proved, each from the rule of spec/ its docstring
names. -/

open Sys2Proof Sys2Proof.Machine

/-! ## The encoding and the step -/

/-- Decoding the words of a well-formed operation gives it back, with every operand at every value (30_encoding.md R110
to R118). -/
def Obligations.DecodeOfEncode : Prop :=
  ∀ (i : Instr) (rest : List OpWord), i.wf = true → decode (encode i ++ rest) = some (i, rest)

/-- The decoder accepts nothing but the words of a well-formed operation: an illegal opcode, a non-zero unused bit and
a reserved code are all "invalid" (30_encoding.md R116, R117). -/
def Obligations.DecodeOnlyEncodings : Prop :=
  ∀ (ws : List OpWord) (i : Instr) (rest : List OpWord),
    decode ws = some (i, rest) → i.wf = true ∧ ws = encode i ++ rest

/-- Words the spec writes out decode to the operations it says they are (the examples of 40_bank.md to 45_system.md). -/
def Obligations.ExampleWordsDecode : Prop :=
  decode [0x0500000004000000] = some (.regionDefine 0 false 0x40000, []) ∧
  decode [0x0400000000000000] = some (.sysStart, []) ∧
  decode [0x20000A0000000200] = some (.latchConfigure 0 .separateAck true .level true false 2 0 0, []) ∧
  decode [0x3000010000800001, 0x9FFF, 0] = some (.busRegisterRange 0 .r .mem 0x8000 0x9FFF (.kBank 0), []) ∧
  decode [0x330281000000FF00] = some (.busSetPolicy 2 .const .io 0xFF 0, []) ∧
  decode [0x43000000000001FD] = some (.lineHold 0 0 true 0xFD, []) ∧
  decode [0x460000010300F0FD] = some (.scanConfigure 0 0 240 .hold true 0xFD, []) ∧
  decode [0x480201000201E900] = some (.perConfigure 2 1 489 .pulse false 0, []) ∧
  decode [0x5203000000000080] = some (.p3Write 0x80, [])

/-- When the words of the turn at the front of the queue begin with an operation whose issuer is not held and which may
stand there, the step is that operation's meaning, with its words taken from the turn; what the turn still has comes
next and the turn stays in progress, so that no other agent's operation falls inside an instruction (20_memory.md R63,
R64; 00_scope.md R9). A poll in which the CPU sees a pulse on RESET opens no instruction: the rest of its turn is gone,
and the CPU is to begin again with its poll, as a CPU that was held is (43_coordinator.md R221; log 37); after SYS.RESET
every CPU is, and SYS.RESTORE puts back who is (45_system.md R282, R284). The queue of turns is the model's own (log 1, log 15). -/
def Obligations.StepRunsOperation : Prop :=
  ∀ (s : State) (turn : Turn) (later : List Turn) (i : Instr) (ws kept : List OpWord),
    s.queue = turn :: later → decode turn.words = some (i, ws) →
    let polls : Nat → Prop := fun c => ∃ b : Byte, b.toNat = c ∧ i = .cpuPoll b
    let pulsed : Nat → Prop := fun c => polls c ∧ (s.line c 2).level = .pulse
    let first : Nat → Prop := fun c => c < s.ncpu ∧ ((s.line c 2).level = .assert ∨ (s.line c 2).level = .hold ∨
      pulsed c ∨ (¬polls c ∧ c ∈ s.restarts))
    ((∃ c, pulsed c) → kept = []) → (¬(∃ c, pulsed c) → kept = ws) →
    (s.heldIssuer (issuer i s) = none → s.inSlot turn.whole i (issuer i s) = true →
      ∃ r : List Nat, (∀ c, c ∈ r ↔ first c) ∧ step s = exec i { s with
        queue := if kept = [] then later else ⟨turn.whole, kept⟩ :: later
        slot := if kept = [] then none else some (issuer i s)
        restarts := r }) ∧
    (∀ t, step s = .next t → t.queue = (if kept = [] then later else ⟨turn.whole, kept⟩ :: later) ∧
      t.slot = (if kept = [] then none else some (issuer i s)) ∧
      (i = .sysReset → ∀ c, c ∈ t.restarts ↔ c < s.ncpu) ∧
      (i ≠ .sysReset → (∀ slot, i ≠ .sysRestore slot) → ∀ c, c ∈ t.restarts ↔ first c))

/-- What a step does where no operation is executed: nothing with an empty queue (the model's choice, log 2), a refusal
of invalid words (30_encoding.md R116, R117), a refusal of an operation of a CPU that its RESET line holds at level
ASSERT or HOLD (43_coordinator.md R221, log 13), and a refusal of an operation that cannot stand where it stands: inside
an instruction, one of another agent or a second CPU.POLL; at the front of a whole instruction, one that is not its
CPU.POLL (20_memory.md R64, log 15); of a CPU that its RESET line or SYS.RESET has reset and that has not polled since,
one that is not its CPU.POLL (R221, 45_system.md R282, log 37). -/
def Obligations.StepStops : Prop :=
  ∀ s : State,
    (s.queue = [] → step s = .next s) ∧
    ∀ turn later, s.queue = turn :: later →
      (decode turn.words = none → step s = .refused .invalidWord) ∧
      (∀ i ws c, decode turn.words = some (i, ws) → issuer i s = .cpu c →
        ((s.line c 2).level = .assert ∨ (s.line c 2).level = .hold) → step s = .refused (.cpuHeld c)) ∧
      (∀ i ws b, decode turn.words = some (i, ws) → s.heldIssuer (issuer i s) = none → s.slot = some b →
        (issuer i s ≠ b ∨ b.isCpu = false ∨ ∃ c, i = .cpuPoll c) →
        step s = .refused (.outsideSlot (issuer i s))) ∧
      (∀ i ws c, decode turn.words = some (i, ws) → s.heldIssuer (issuer i s) = none → s.slot = none →
        (turn.whole = true ∨ c ∈ s.restarts) → issuer i s = .cpu c → (∀ d, i ≠ .cpuPoll d) →
        step s = .refused (.outsideSlot (.cpu c)))

/-- An operation issued in a phase it does not belong to is refused, in ABORTED every operation (60_exceptions.md
R302; 30_encoding.md R114). -/
def Obligations.WrongPhaseRefused : Prop :=
  ∀ (i : Instr) (s : State), s.phase ≠ phaseOf i → exec i s = .refused (.wrongPhase s.phase)

/-! ## Power-on and the host's operations -/

/-- The fabric at power-on, whatever its parameters, and the parameters of `State.reset` (10_state.md R22, R26, R38;
70_reset_and_hazards.md R350). The three numbers of `State.reset` are the model's choice (log 3), and so is
that no snapshot exists (log 33). -/
def Obligations.PowerOnValues : Prop :=
  (∀ (ncpu addrW lines : Nat), addrW ≤ 32 →
    let s := State.powerOn ncpu addrW lines
    s.phase = .config ∧ s.error = none ∧ s.ncpu = ncpu ∧ s.pcfg = none ∧
    (∀ n, Table.get s.regions n = none ∧ Table.get s.banks n = none ∧ Table.get s.latches n = none ∧
      Table.get s.snaps n = none) ∧
    (∀ c sp, c < ncpu → ∃ b, s.space? c sp = some b ∧ b.addrW = addrW ∧ b.map = [] ∧ b.policy = .const ∧
      b.obc = 0xFF ∧ b.mask.toNat = 2 ^ addrW - 1) ∧
    (∀ c n, s.line c n = ⟨.clear, false, 0⟩) ∧
    s.p0 = 0 ∧ s.p1 = 0 ∧ s.p2 = 0 ∧ s.p3 = 0 ∧
    s.scanLines = lines ∧ s.scanV = 0 ∧ s.scanF = 0 ∧ s.scanEntries = [] ∧ s.perTimers = []) ∧
  State.reset = State.powerOn 4 16 256

/-- The machine right after reset has every invariant that is stated below to be kept by each step. -/
def Obligations.ResetMeetsInvariants : Prop :=
  State.reset.canonicalOk = true ∧ State.reset.shapeOk = true ∧ State.reset.refsOk = true

/-- REGION.DEFINE (45_system.md R280): the two errors in the order of the rule; else the region has its size and
mutability, its bytes are the image's or the unspecified ones of power-on, and nothing else changes. -/
def Obligations.RegionDefineEffect : Prop :=
  ∀ (s : State) (r : Byte) (mutbl : Bool) (size : Word32), s.phase = .config →
    ((Table.get s.regions r.toNat).isSome = true → Raises (.regionDefine r mutbl size) s .dup) ∧
    (Table.get s.regions r.toNat = none → size = 0 → Raises (.regionDefine r mutbl size) s .value) ∧
    (Table.get s.regions r.toNat = none → size ≠ 0 → ∃ t, exec (.regionDefine r mutbl size) s = .next t ∧
      (Table.get t.regions r.toNat).map Region.setup = some (size.toNat, mutbl) ∧
      (∀ off, t.byteAt r.toNat off = if off < size.toNat then
        some (if mutbl then Config.ramPowerOn r.toNat off else Config.romImage r.toNat off) else none) ∧
      (∀ q, q ≠ r.toNat → (Table.get t.regions q).map Region.setup = (Table.get s.regions q).map Region.setup ∧
        ∀ off, t.byteAt q off = s.byteAt q off) ∧
      HandsOut t .none ∧ Unchanged s t [.memory, .regionSetup, .out])

/-- SYS.START (45_system.md R281): `PHASE` becomes RUN and every mutable element takes its value of 10_state.md R38. The
latch values and last decoded values, which R38 calls unspecified after it, are kept: they are the free bytes drawn
before, which nothing has read (the model's inference, log 22). -/
def Obligations.SysStartEffect : Prop :=
  ∀ s : State, s.phase = .config → ∃ t, exec .sysStart s = .next t ∧ t.phase = .run ∧
    (∀ l, Table.get t.latches l = (Table.get s.latches l).map fun k => { k with pending := false }) ∧
    (∀ c n, t.line c n = ⟨.clear, false, 0⟩) ∧
    t.p0 = 0 ∧ t.p1 = 0 ∧ t.p2 = 0 ∧ t.p3 = 0 ∧ t.scanV = 0 ∧ t.scanF = 0 ∧
    t.perTimers = s.perTimers.map (fun e => { e with ticks := 0 }) ∧ t.out.cpusReset = true ∧
    Unchanged s t [.phase, .latches, .lines, .p0, .p1, .p2, .p3, .raster, .timers, .out]

/-- SYS.RESET (45_system.md R282): pending flags, lines, ports, raster and ticks cleared; latch values and last decoded
values left open; every CPU is to begin with its CPU.POLL (log 37); the phase, all configuration, every active bank
entry and every region byte kept. -/
def Obligations.SysResetEffect : Prop :=
  ∀ s : State, s.phase = .run → ∃ t, exec .sysReset s = .next t ∧
    (∀ l, (Table.get t.latches l).map Latch.setup = (Table.get s.latches l).map Latch.setup ∧
      ∀ k, Table.get t.latches l = some k → k.pending = false) ∧
    (∀ c n, t.line c n = ⟨.clear, false, 0⟩) ∧
    t.p0 = 0 ∧ t.p1 = 0 ∧ t.p2 = 0 ∧ t.p3 = 0 ∧ t.scanV = 0 ∧ t.scanF = 0 ∧
    t.perTimers = s.perTimers.map (fun e => { e with ticks := 0 }) ∧ t.out.cpusReset = true ∧
    (∀ c, c ∈ t.restarts ↔ c < s.ncpu) ∧
    Unchanged s t [.latches, .lines, .ldv, .p0, .p1, .p2, .p3, .raster, .timers, .restarts, .draws, .out]

/-- SYS.SAVE (45_system.md R283): the slot holds the named values of the present state, and nothing else changes. The
field `restarts` is the model's own (log 37). -/
def Obligations.SysSaveEffect : Prop :=
  ∀ (s : State) (slot : Byte), s.phase = .run → Table.wf s.regions = true → ∃ t n,
    exec (.sysSave slot) s = .next t ∧ Table.get t.snaps slot.toNat = some n ∧
    (∀ m, m ≠ slot.toNat → Table.get t.snaps m = Table.get s.snaps m) ∧
    (∀ b, Table.get n.active b = (Table.get s.banks b).map fun k => k.active) ∧
    (∀ l, Table.get n.latchValue l = (Table.get s.latches l).map fun k => k.value) ∧
    (∀ l, Table.get n.latchPending l = (Table.get s.latches l).map fun k => k.pending) ∧
    n.p0 = s.p0 ∧ n.p1 = s.p1 ∧ n.p2 = s.p2 ∧ n.p3 = s.p3 ∧
    (∀ r g, Table.get s.regions r = some g →
      Table.get n.regions r = if g.mutbl then some ⟨g.size, g.bytes⟩ else none) ∧
    (∀ c : Nat, n.cpus[c]? = s.cpus[c]?.map fun (cpu : Cpu) =>
      (⟨cpu.mem.ldv, cpu.io.ldv, cpu.lines.filter fun e => e.2.level != .clear⟩ : CpuSnap)) ∧
    n.scanV = s.scanV ∧ n.scanF = s.scanF ∧ n.ticks = s.perTimers.map (fun e => e.ticks) ∧ n.restarts = s.restarts ∧
    HandsOut t .none ∧ Unchanged s t [.snaps, .out]

/-- SYS.RESTORE (45_system.md R284): a missing snapshot is refused, and one that misfits by any of the rule's conditions;
else every named element takes its saved value, every line with no saved level is CLEAR, all configuration is as it was,
and nothing fires. The field `restarts` is the model's own (log 37). -/
def Obligations.SysRestoreEffect : Prop :=
  ∀ (s : State) (slot : Byte), s.phase = .run →
    (Table.get s.snaps slot.toNat = none → exec (.sysRestore slot) s = .refused (.noSnapshot slot.toNat)) ∧
    (∀ n, Table.get s.snaps slot.toNat = some n → n.fits s = false ∨ (s.tablesOk = true ∧ n.Misfits s) →
      exec (.sysRestore slot) s = .refused (.snapshotMisfit slot.toNat)) ∧
    (∀ n, Table.get s.snaps slot.toNat = some n → n.fits s = true ∨ (s.tablesOk = true ∧ ¬n.Misfits s) →
      ∃ t, exec (.sysRestore slot) s = .next t ∧
      SameSetup s t ∧
      (∀ b k a, Table.get s.banks b = some k → Table.get n.active b = some a →
        Table.get t.banks b = some { k with active := a }) ∧
      (∀ l k v p, Table.get s.latches l = some k → Table.get n.latchValue l = some v →
        Table.get n.latchPending l = some p → Table.get t.latches l = some { k with value := v, pending := p }) ∧
      t.p0 = n.p0 ∧ t.p1 = n.p1 ∧ t.p2 = n.p2 ∧ t.p3 = n.p3 ∧
      (∀ r g saved off, Table.get s.regions r = some g → g.mutbl = true → Table.get n.regions r = some saved →
        off < g.size → t.byteAt r off = some ((Table.get saved.bytes off).getD (Config.ramPowerOn r off))) ∧
      (∀ r g off, Table.get s.regions r = some g → g.mutbl = false → t.byteAt r off = s.byteAt r off) ∧
      (∀ (c : Nat) cs, n.cpus[c]? = some cs → t.ldv? c .mem = some cs.ldvMem ∧ t.ldv? c .io = some cs.ldvIo ∧
        ∀ m, t.line c m = lineOf cs.lines m) ∧
      t.scanV = n.scanV ∧ t.scanF = n.scanF ∧ t.perTimers.map (fun e => e.ticks) = n.ticks ∧
      t.restarts = n.restarts ∧ HandsOut t .none ∧
      Unchanged s t [.memory, .banks, .latches, .ldv, .lines, .p0, .p1, .p2, .p3, .raster, .timers, .restarts, .out])

/-- Saving, restoring and saving again gives two equal snapshots, whatever was executed in between: a snapshot of `s`
restored in any later state `u` of the same configuration, and saved again (45_system.md R284). -/
def Obligations.SaveRestoreSave : Prop :=
  ∀ (s u : State) (slot : Byte), u.phase = .run → s.tablesOk = true → u.tablesOk = true → s.banksOk = true →
    s.rasterOk = true → SameSetup s u → Table.get u.snaps slot.toNat = some s.snapshot →
    ∃ v w, exec (.sysRestore slot) u = .next v ∧ exec (.sysSave slot) v = .next w ∧
      Table.get w.snaps slot.toNat = some s.snapshot

/-! ## The Bank Table -/

/-- BANK.CONFIGURE (40_bank.md R140): the four errors in the order of the rule; else the bank's record is made with
entry 0 active, and nothing else changes. -/
def Obligations.BankConfigureEffect : Prop :=
  ∀ (s : State) (b : Byte) (policy : BankPolicy) (startIndex : Word32) (region : Byte)
    (count windowSize xorMask : Word32), s.phase = .config →
    let i : Instr := .bankConfigure b policy startIndex region count windowSize xorMask
    ((Table.get s.banks b.toNat).isSome = true → Raises i s .dup) ∧
    (Table.get s.banks b.toNat = none → Table.get s.regions region.toNat = none → Raises i s .unit) ∧
    (∀ g, Table.get s.banks b.toNat = none → Table.get s.regions region.toNat = some g →
      (count = 0 ∨ windowSize = 0) → Raises i s .value) ∧
    (∀ g, Table.get s.banks b.toNat = none → Table.get s.regions region.toNat = some g →
      count ≠ 0 → windowSize ≠ 0 → g.size < (startIndex.toNat + count.toNat) * windowSize.toNat →
      Raises i s .bankRange) ∧
    (∀ g, Table.get s.banks b.toNat = none → Table.get s.regions region.toNat = some g →
      count ≠ 0 → windowSize ≠ 0 → (startIndex.toNat + count.toNat) * windowSize.toNat ≤ g.size →
      ∃ t, exec i s = .next t ∧
        Table.get t.banks b.toNat = some ⟨region.toNat, startIndex.toNat, count.toNat, windowSize.toNat, xorMask,
          policy, none, 0⟩ ∧
        (∀ m, m ≠ b.toNat → Table.get t.banks m = Table.get s.banks m) ∧
        HandsOut t .none ∧ Unchanged s t [.banks, .out])

/-- BANK.SELECT (40_bank.md R141, R145): the mask is applied first and the range check made on the result; an
out-of-range entry is clamped to the last one or ignored, by the bank's policy; nothing else changes. -/
def Obligations.BankSelectEffect : Prop :=
  ∀ (s : State) (b : Byte) (index : Word32), s.phase = .run →
    (Table.get s.banks b.toNat = none → exec (.bankSelect b index) s = .refused (.bankNotConfigured b.toNat)) ∧
    (∀ k, Table.get s.banks b.toNat = some k → ∃ t, exec (.bankSelect b index) s = .next t ∧
      Table.get t.banks b.toNat = some { k with active :=
        if (index ^^^ k.xor).toNat < k.count then (index ^^^ k.xor).toNat
        else match k.policy with
          | .clamp => k.count - 1
          | .noop => k.active } ∧
      (∀ m, m ≠ b.toNat → Table.get t.banks m = Table.get s.banks m) ∧
      HandsOut t .none ∧ Unchanged s t [.banks, .out])

/-- BANK.READ (40_bank.md R142): the byte of the visible window, with no side effect; an offset outside the window is
refused. -/
def Obligations.BankReadEffect : Prop :=
  ∀ (s : State) (b : Byte) (off : Word32), s.phase = .run →
    (Table.get s.banks b.toNat = none → exec (.bankRead b off) s = .refused (.bankNotConfigured b.toNat)) ∧
    (∀ k, Table.get s.banks b.toNat = some k → k.wsize ≤ off.toNat →
      exec (.bankRead b off) s = .refused (.offsetOutsideWindow b.toNat off.toNat)) ∧
    (∀ k v, Table.get s.banks b.toNat = some k → off.toNat < k.wsize →
      s.byteAt k.region ((k.start + k.active) * k.wsize + off.toNat) = some v →
      ∃ t, exec (.bankRead b off) s = .next t ∧ HandsOut t (.byte v) ∧ Unchanged s t [.out])

/-- BANK.WRITE (40_bank.md R143): the byte of the visible window is stored where the region is mutable, and the write
discarded where it is not; every other byte and everything else stays. -/
def Obligations.BankWriteEffect : Prop :=
  ∀ (s : State) (b : Byte) (off : Word32) (v : Byte), s.phase = .run →
    (Table.get s.banks b.toNat = none → exec (.bankWrite b off v) s = .refused (.bankNotConfigured b.toNat)) ∧
    (∀ k, Table.get s.banks b.toNat = some k → k.wsize ≤ off.toNat →
      exec (.bankWrite b off v) s = .refused (.offsetOutsideWindow b.toNat off.toNat)) ∧
    (∀ k g, Table.get s.banks b.toNat = some k → off.toNat < k.wsize → Table.get s.regions k.region = some g →
      (k.start + k.active) * k.wsize + off.toNat < g.size →
      ∃ t, exec (.bankWrite b off v) s = .next t ∧
        (∀ r o, t.byteAt r o =
          if g.mutbl = true ∧ r = k.region ∧ o = (k.start + k.active) * k.wsize + off.toNat then some v
          else s.byteAt r o) ∧
        HandsOut t .none ∧ Unchanged s t [.memory, .out])

/-- A select of an entry in range followed by a read returns the byte of that entry, for every bank as configured
(40_bank.md R144). -/
def Obligations.SelectThenReadLaw : Prop :=
  ∀ (s : State) (b : Byte) (k : Bank) (index off : Word32), s.phase = .run →
    Table.get s.banks b.toNat = some k → bankOk s k = true → (index ^^^ k.xor).toNat < k.count →
    off.toNat < k.wsize → ∃ v t, runOps [.bankSelect b index, .bankRead b off] s = .next t ∧
      t.out.result = .byte v ∧ s.byteAt k.region ((k.start + (index ^^^ k.xor).toNat) * k.wsize + off.toNat) = some v

/-! ## The latches -/

/-- LATCH.CONFIGURE (41_latch.md R160): the three errors in the order of the rule; else the latch has its configuration,
is not pending, and holds a value that no rule fixes (log 4). That a latch with a target may carry a vector byte it does
not use is the model's choice (log 36). -/
def Obligations.LatchConfigureEffect : Prop :=
  ∀ (s : State) (l : Byte) (mode : LatchMode) (hasTarget : Bool) (fire : Fire) (deassert hasVec : Bool)
    (tcpu tline vec : Byte), s.phase = .config →
    let i : Instr := .latchConfigure l mode hasTarget fire deassert hasVec tcpu tline vec
    let absent : Prop := fire = .level ∧ deassert = false ∧ hasVec = false ∧ tcpu = 0 ∧ tline = 0 ∧ vec = 0
    ((Table.get s.latches l.toNat).isSome = true → Raises i s .dup) ∧
    (Table.get s.latches l.toNat = none → hasTarget = true → s.ncpu ≤ tcpu.toNat → Raises i s .unit) ∧
    (Table.get s.latches l.toNat = none → hasTarget = false → ¬absent → Raises i s .value) ∧
    (Table.get s.latches l.toNat = none → (hasTarget = true ∧ tcpu.toNat < s.ncpu) ∨ (hasTarget = false ∧ absent) →
      ∃ t v, exec i s = .next t ∧
        LatchIs s t l.toNat ⟨mode, hasTarget, tcpu.toNat, tline.toNat, fire, deassert, hasVec, vec, v, false⟩ ∧
        HandsOut t .none ∧ Unchanged s t [.latches, .draws, .out])

/-- LATCH.WRITE (41_latch.md R161): the value is stored and the flag set; the target's line is raised only where the
flag was false; every other latch, line and part of the state stays. -/
def Obligations.LatchWriteEffect : Prop :=
  ∀ (s : State) (l v : Byte),
    encode (.latchWrite l v) = [0x21#8 ++ l ++ 0#8 ++ 0#32 ++ v] ∧
    (s.phase ≠ .run → exec (.latchWrite l v) s = .refused (.wrongPhase s.phase)) ∧
    (s.phase = .run → Table.get s.latches l.toNat = none →
      exec (.latchWrite l v) s = .refused (.latchNotConfigured l.toNat)) ∧
    (∀ k, s.phase = .run → Table.get s.latches l.toNat = some k → (k.hasTarget = true → k.tcpu < s.ncpu) →
      ∃ t, exec (.latchWrite l v) s = .next t ∧ LatchWritten s t l.toNat k v ∧ HandsOut t .none ∧
        Unchanged s t [.latches, .lines, .out])

/-- LATCH.READ (41_latch.md R162): the value goes to the issuer; only in mode READ_CLEARS is the flag cleared, and the
line lowered with it where the latch says so. -/
def Obligations.LatchReadEffect : Prop :=
  ∀ (s : State) (l : Byte), s.phase = .run →
    (Table.get s.latches l.toNat = none → exec (.latchRead l) s = .refused (.latchNotConfigured l.toNat)) ∧
    (∀ k, Table.get s.latches l.toNat = some k → ∃ t, exec (.latchRead l) s = .next t ∧
      HandsOut t (.byte k.value) ∧ LatchCleared s t l.toNat k (k.mode = .readClears) ∧
      Unchanged s t [.latches, .lines, .out])

/-- LATCH.ACK (41_latch.md R163): in mode SEPARATE_ACK with the flag set it is cleared, and the line lowered with it
where the latch says so; else nothing changes. -/
def Obligations.LatchAckEffect : Prop :=
  ∀ (s : State) (l : Byte), s.phase = .run →
    (Table.get s.latches l.toNat = none → exec (.latchAck l) s = .refused (.latchNotConfigured l.toNat)) ∧
    (∀ k, Table.get s.latches l.toNat = some k → ∃ t, exec (.latchAck l) s = .next t ∧
      HandsOut t .none ∧ LatchCleared s t l.toNat k (k.mode = .separateAck ∧ k.pending = true) ∧
      Unchanged s t [.latches, .lines, .out])

/-- LATCH.PENDING_R (41_latch.md R164): the flag goes to the issuer, with no side effect, however often it is read. -/
def Obligations.LatchPendingEffect : Prop :=
  ∀ (s : State) (l : Byte),
    encode (.latchPendingR l) = [0x24#8 ++ l ++ 0#8 ++ 0#32 ++ 0#8] ∧
    (s.phase ≠ .run → exec (.latchPendingR l) s = .refused (.wrongPhase s.phase)) ∧
    (s.phase = .run → Table.get s.latches l.toNat = none →
      exec (.latchPendingR l) s = .refused (.latchNotConfigured l.toNat)) ∧
    (∀ k, s.phase = .run → Table.get s.latches l.toNat = some k →
      (∃ t, exec (.latchPendingR l) s = .next t ∧ HandsOut t (.flag k.pending) ∧ Unchanged s t [.out]) ∧
      ∀ j, ∃ t, runOps (List.replicate (j + 1) (.latchPendingR l)) s = .next t ∧ HandsOut t (.flag k.pending) ∧
        Unchanged s t [.out])

/-- The handshake laws (41_latch.md R162, R163): after a write every read returns the value written; in mode
SEPARATE_ACK the flag stays set over any number of reads until the acknowledge; in mode READ_CLEARS it is clear after
the first read. -/
def Obligations.HandshakeLaws : Prop :=
  ∀ (s : State) (l v : Byte) (k : Latch) (j : Nat), s.phase = .run → Table.get s.latches l.toNat = some k →
    (∃ t, runOps (.latchWrite l v :: List.replicate (j + 1) (.latchRead l)) s = .next t ∧ t.out.result = .byte v) ∧
    (k.mode = .separateAck →
      (∃ t, runOps (.latchWrite l v :: List.replicate j (.latchRead l) ++ [.latchPendingR l]) s = .next t ∧
        t.out.result = .flag true) ∧
      ∃ t, runOps (.latchWrite l v :: List.replicate j (.latchRead l) ++ [.latchAck l, .latchPendingR l]) s = .next t ∧
        t.out.result = .flag false) ∧
    (k.mode = .readClears →
      ∃ t, runOps (.latchWrite l v :: List.replicate (j + 1) (.latchRead l) ++ [.latchPendingR l]) s = .next t ∧
        t.out.result = .flag false)

/-- A pending flag changes in no other way than the listed ones (10_state.md R34): it becomes set only by a LATCH.WRITE,
direct or through a register or a port, and clear only by a LATCH.ACK or a LATCH.READ, direct or through a register or a
port, or by SYS.RESET or SYS.START; SYS.RESTORE overwrites it. -/
def Obligations.PendingChangesOnlySo : Prop :=
  ∀ (i : Instr) (s t : State) (l : Byte) (k k' : Latch), exec i s = .next t →
    Table.get s.latches l.toNat = some k → Table.get t.latches l.toNat = some k' →
    (k.pending = false → k'.pending = true → setsLatch i s l ∨ ∃ slot, i = .sysRestore slot) ∧
    (k.pending = true → k'.pending = false →
      clearsLatch i s l ∨ i = .sysReset ∨ i = .sysStart ∨ ∃ slot, i = .sysRestore slot)

/-! ## The bus -/

/-- BUS.REGISTER_RANGE (42_bus.md R180): the errors in the order of the rule, those of the target last, by its kind; else
the range ends the map, a bank it targets gets its base, owner and space, and nothing else changes. That a trigger
register may carry a vector byte it does not use is the model's choice (log 36). -/
def Obligations.RegisterRangeEffect : Prop :=
  ∀ (s : State) (c : Byte) (mode : Access) (sp : Space) (lo hi : Word32) (g : Target), s.phase = .config →
    let i : Instr := .busRegisterRange c mode sp lo hi g
    (s.ncpu ≤ c.toNat → Raises i s .unit) ∧
    (∀ b, s.space? c.toNat sp = some b → (hi.toNat < lo.toNat ∨ 2 ^ b.addrW ≤ hi.toNat) → Raises i s .value) ∧
    (∀ b, s.space? c.toNat sp = some b → lo.toNat ≤ hi.toNat → hi.toNat < 2 ^ b.addrW →
      (∃ e ∈ b.map, e.lo ≤ hi.toNat ∧ lo.toNat ≤ e.hi) → Raises i s .overlap) ∧
    (∀ b code, s.space? c.toNat sp = some b → lo.toNat ≤ hi.toNat → hi.toNat < 2 ^ b.addrW →
      (∀ e ∈ b.map, hi.toNat < e.lo ∨ e.hi < lo.toNat) → TargetRaises s lo.toNat hi.toNat g code →
      Raises i s code) ∧
    (∀ b, s.space? c.toNat sp = some b → lo.toNat ≤ hi.toNat → hi.toNat < 2 ^ b.addrW →
      (∀ e ∈ b.map, hi.toNat < e.lo ∨ e.hi < lo.toNat) → (∀ code, ¬TargetRaises s lo.toNat hi.toNat g code) →
      ∃ t, exec i s = .next t ∧
        t.space? c.toNat sp = some { b with map := b.map ++ [⟨lo.toNat, hi.toNat, mode, g⟩] } ∧
        (∀ d sq, ¬(d = c.toNat ∧ sq = sp) → t.space? d sq = s.space? d sq) ∧ t.ncpu = s.ncpu ∧
        (∀ m, Table.get t.banks m = if g = .kBank (BitVec.ofNat 8 m) ∧ m < 256 then
          (Table.get s.banks m).map fun k => { k with binding := some ⟨lo.toNat, c.toNat, sp⟩ }
          else Table.get s.banks m) ∧
        HandsOut t .none ∧ Unchanged s t [.busSetup, .banks, .out])

/-- BUS.SETPOLICY (42_bus.md R181): the two errors in the order of the rule; else mask, policy and constant of the one
space are set, and nothing else changes. -/
def Obligations.SetPolicyEffect : Prop :=
  ∀ (s : State) (c : Byte) (policy : OpenBusPolicy) (sp : Space) (mask : Word32) (obc : Byte), s.phase = .config →
    let i : Instr := .busSetPolicy c policy sp mask obc
    (s.ncpu ≤ c.toNat → Raises i s .unit) ∧
    (c.toNat < s.ncpu → policy = .last → obc ≠ 0 → Raises i s .value) ∧
    (∀ b, s.space? c.toNat sp = some b → (policy = .const ∨ obc = 0) → ∃ t m, exec i s = .next t ∧
      t.space? c.toNat sp = some { b with mask := m, policy := policy, obc := obc } ∧
      m.toNat = mask.toNat % 2 ^ b.addrW ∧
      (∀ d sq, ¬(d = c.toNat ∧ sq = sp) → t.space? d sq = s.space? d sq) ∧ t.ncpu = s.ncpu ∧
      HandsOut t .none ∧ Unchanged s t [.busSetup, .out])

/-- `Resolve` (20_memory.md R57, R62): the address is cut to the width of the space and masked; the one range that
contains it answers, where its access mode lets the direction through. -/
def Obligations.ResolveAnswers : Prop :=
  ∀ (b : BusSpace) (a : Word32) (dir : Dir) (e : BusRange) (off a1 : Nat), b.rangesOk = true →
    a1 = (a.toNat % 2 ^ b.addrW) &&& b.mask.toNat →
    (b.resolve a dir = some (e, off) ↔ e ∈ b.map ∧ e.lo ≤ a1 ∧ a1 ≤ e.hi ∧ off = a1 - e.lo ∧
      match dir with
      | .rd => e.mode = .r ∨ e.mode = .rw
      | .wr => e.mode = .w ∨ e.mode = .rw)

/-- BUS.READ and IO.READ (42_bus.md R182, R184): a hit gives what its target gives and sets the last decoded value of
its space; a miss gives the open-bus value of 20_memory.md R60 and changes nothing. That the value under policy LAST is
the last decoded value is the spec's own definition, which it warns not to lean on (93_implementation_defined.md U2;
log 20). -/
def Obligations.BusReadDispatch : Prop :=
  ∀ (s : State) (sp : Space) (c : Byte) (addr : Word32),
    encode (readOp sp c addr) = [(match sp with | .mem => 0x31#8 | .io => 0x34#8) ++ c ++ 0#8 ++ addr ++ 0#8] ∧
    (s.phase ≠ .run → exec (readOp sp c addr) s = .refused (.wrongPhase s.phase)) ∧
    (s.phase = .run → s.ncpu ≤ c.toNat → exec (readOp sp c addr) s = .refused (.noSuchCpu c.toNat)) ∧
    (∀ b, s.phase = .run → s.space? c.toNat sp = some b → b.resolve addr .rd = none →
      ∃ t, exec (readOp sp c addr) s = .next t ∧
        HandsOut t (.byte (if b.policy = .const then b.obc else b.ldv)) ∧ Unchanged s t [.out]) ∧
    (∀ b e off v u, s.phase = .run → s.space? c.toNat sp = some b → b.resolve addr .rd = some (e, off) →
      readTarget (if b.policy = .const then b.obc else b.ldv) e.target off { s with out := Output.empty } =
        .next (v, u) →
      ∃ t, exec (readOp sp c addr) s = .next t ∧ HandsOut t (.byte v) ∧ LdvSet u t c.toNat sp v ∧
        Unchanged u t [.ldv, .out])

/-- BUS.WRITE and IO.WRITE (42_bus.md R183, R185): a hit does what its target does and sets the last decoded value of
its space; a miss changes nothing at all. -/
def Obligations.BusWriteDispatch : Prop :=
  ∀ (s : State) (sp : Space) (c : Byte) (addr : Word32) (v : Byte),
    encode (writeOp sp c addr v) = [(match sp with | .mem => 0x32#8 | .io => 0x35#8) ++ c ++ 0#8 ++ addr ++ v] ∧
    (s.phase ≠ .run → exec (writeOp sp c addr v) s = .refused (.wrongPhase s.phase)) ∧
    (s.phase = .run → s.ncpu ≤ c.toNat → exec (writeOp sp c addr v) s = .refused (.noSuchCpu c.toNat)) ∧
    (∀ b, s.phase = .run → s.space? c.toNat sp = some b → b.resolve addr .wr = none →
      ∃ t, exec (writeOp sp c addr v) s = .next t ∧ HandsOut t .none ∧ Unchanged s t [.out]) ∧
    (∀ b e off u, s.phase = .run → s.space? c.toNat sp = some b → b.resolve addr .wr = some (e, off) →
      writeTarget e.target off v { s with out := Output.empty } = .next u →
      ∃ t, exec (writeOp sp c addr v) s = .next t ∧ t.out = u.out ∧ LdvSet u t c.toNat sp v ∧ Unchanged u t [.ldv])

/-- A read that hits a memory block or a bank window returns the byte of the region and changes the last decoded value
of its space only (20_memory.md R58, R61; 42_bus.md R186, R187). -/
def Obligations.MemoryTargetRead : Prop :=
  ∀ (s : State) (sp : Space) (c : Byte) (addr : Word32) (b : BusSpace) (e : BusRange) (off : Nat) (v : Byte),
    s.phase = .run → s.space? c.toNat sp = some b → b.resolve addr .rd = some (e, off) →
    ((∃ region roff, e.target = .kMem region roff ∧ s.byteAt region.toNat (roff.toNat + off) = some v) ∨
      ∃ bank k, e.target = .kBank bank ∧ Table.get s.banks bank.toNat = some k ∧ off < k.wsize ∧
        s.byteAt k.region ((k.start + k.active) * k.wsize + off) = some v) →
    ∃ t, exec (readOp sp c addr) s = .next t ∧ HandsOut t (.byte v) ∧ LdvSet s t c.toNat sp v ∧
      Unchanged s t [.ldv, .out]

/-- A write that hits a memory block or a bank window stores the byte where the region is mutable and is discarded where
it is not; the last decoded value is the byte written, and every other byte stays (20_memory.md R59, R61; 42_bus.md
R186, R187). -/
def Obligations.MemoryTargetWrite : Prop :=
  ∀ (s : State) (sp : Space) (c : Byte) (addr : Word32) (v : Byte) (b : BusSpace) (e : BusRange) (off r o : Nat)
    (g : Region), s.phase = .run → s.space? c.toNat sp = some b → b.resolve addr .wr = some (e, off) →
    ((∃ region roff, e.target = .kMem region roff ∧ r = region.toNat ∧ o = roff.toNat + off) ∨
      ∃ bank k, e.target = .kBank bank ∧ Table.get s.banks bank.toNat = some k ∧ off < k.wsize ∧ r = k.region ∧
        o = (k.start + k.active) * k.wsize + off) →
    Table.get s.regions r = some g → o < g.size →
    ∃ t, exec (writeOp sp c addr v) s = .next t ∧
      (∀ q p, t.byteAt q p = if g.mutbl = true ∧ q = r ∧ p = o then some v else s.byteAt q p) ∧
      HandsOut t .none ∧ LdvSet s t c.toNat sp v ∧ Unchanged s t [.memory, .ldv, .out]

/-- A read that hits a register handler (42_bus.md R188 to R195): the data port reads the latch, the acknowledge strobe
gives the open-bus value from before and acknowledges, the status register packs flags, a register with no read side
gives the open-bus value, an input or a sink gives the next byte the outside world has handed over, or else the free
byte of that very input, or of that sink and offset (log 7). -/
def Obligations.RegisterTargetRead : Prop :=
  ∀ (s : State) (sp : Space) (c : Byte) (addr : Word32) (b : BusSpace) (e : BusRange) (off : Nat),
    s.phase = .run → s.space? c.toNat sp = some b → b.resolve addr .rd = some (e, off) →
    (∀ l k, e.target = .kLatchData l → Table.get s.latches l.toNat = some k →
      ∃ t, exec (readOp sp c addr) s = .next t ∧ HandsOut t (.byte k.value) ∧
        LatchCleared s t l.toNat k (k.mode = .readClears) ∧ LdvSet s t c.toNat sp k.value ∧
        Unchanged s t [.latches, .lines, .ldv, .out]) ∧
    (∀ l k, e.target = .kLatchAck l → Table.get s.latches l.toNat = some k →
      ∃ t, exec (readOp sp c addr) s = .next t ∧ HandsOut t (.byte b.openBus) ∧
        LatchCleared s t l.toNat k (k.mode = .separateAck ∧ k.pending = true) ∧
        LdvSet s t c.toNat sp b.openBus ∧ Unchanged s t [.latches, .lines, .ldv, .out]) ∧
    (∀ l0 l1 l2 l3 valid invert, e.target = .kStatus l0 l1 l2 l3 valid invert →
      (∀ i l, (i, l) ∈ [(0, l0), (1, l1), (2, l2), (3, l3)] → valid.getLsbD i = true → s.hasLatch l = true) →
      ∃ t v, exec (readOp sp c addr) s = .next t ∧ HandsOut t (.byte v) ∧ v.toNat < 16 ∧
        (∀ i l, (i, l) ∈ [(0, l0), (1, l1), (2, l2), (3, l3)] → v.getLsbD i =
          (valid.getLsbD i && (((Table.get s.latches l.toNat).map fun k => k.pending) == some (!invert.getLsbD i)))) ∧
        LdvSet s t c.toNat sp v ∧ Unchanged s t [.ldv, .out]) ∧
    ((∃ bank shift mask, e.target = .kBankSel bank shift mask) ∨
        (∃ tcpu line mode vec hasVec, e.target = .kLine tcpu line mode vec hasVec) ∨
        (∃ tcpu line bit active, e.target = .kLineBit tcpu line bit active) →
      ∃ t, exec (readOp sp c addr) s = .next t ∧ HandsOut t (.byte b.openBus) ∧
        LdvSet s t c.toNat sp b.openBus ∧ Unchanged s t [.ldv, .out]) ∧
    (∀ site, (∃ src, e.target = .kInput src ∧ site = Config.Site.input src.toNat) ∨
        (∃ sink, e.target = .kSink sink ∧ site = Config.Site.sinkRead sink.toNat off) →
      ∃ t v, exec (readOp sp c addr) s = .next t ∧ HandsOut t (.byte v) ∧
        (∀ x rest, s.extIn = x :: rest → v = x ∧ t.extIn = rest ∧ t.draws = s.draws) ∧
        (s.extIn = [] → v = Config.freeByte site s.draws ∧ t.extIn = [] ∧ t.draws = s.draws + 1) ∧
        LdvSet s t c.toNat sp v ∧ Unchanged s t [.extIn, .draws, .ldv, .out])

/-- A write that hits a register handler (42_bus.md R188 to R195): the data port writes the latch, the acknowledge strobe
acknowledges whatever the byte, a register with no write side discards it, a bank select register selects, a trigger
register and a control bit set their line, a sink gets the byte and the offset; the last decoded value is the byte
written. -/
def Obligations.RegisterTargetWrite : Prop :=
  ∀ (s : State) (sp : Space) (c : Byte) (addr : Word32) (v : Byte) (b : BusSpace) (e : BusRange) (off : Nat),
    s.phase = .run → s.space? c.toNat sp = some b → b.resolve addr .wr = some (e, off) →
    (∀ l k, e.target = .kLatchData l → Table.get s.latches l.toNat = some k →
      (k.hasTarget = true → k.tcpu < s.ncpu) →
      ∃ t, exec (writeOp sp c addr v) s = .next t ∧ HandsOut t .none ∧ LatchWritten s t l.toNat k v ∧
        LdvSet s t c.toNat sp v ∧ Unchanged s t [.latches, .lines, .ldv, .out]) ∧
    (∀ l k, e.target = .kLatchAck l → Table.get s.latches l.toNat = some k →
      ∃ t, exec (writeOp sp c addr v) s = .next t ∧ HandsOut t .none ∧
        LatchCleared s t l.toNat k (k.mode = .separateAck ∧ k.pending = true) ∧
        LdvSet s t c.toNat sp v ∧ Unchanged s t [.latches, .lines, .ldv, .out]) ∧
    ((∃ l0 l1 l2 l3 valid invert, e.target = .kStatus l0 l1 l2 l3 valid invert) ∨ (∃ src, e.target = .kInput src) →
      ∃ t, exec (writeOp sp c addr v) s = .next t ∧ HandsOut t .none ∧ LdvSet s t c.toNat sp v ∧
        Unchanged s t [.ldv, .out]) ∧
    (∀ bank shift mask k, e.target = .kBankSel bank shift mask → Table.get s.banks bank.toNat = some k →
      ∃ t, exec (writeOp sp c addr v) s = .next t ∧ HandsOut t .none ∧
        Table.get t.banks bank.toNat = some { k with active :=
          if ((((v >>> shift.toNat) &&& mask).setWidth 32) ^^^ k.xor).toNat < k.count then
            ((((v >>> shift.toNat) &&& mask).setWidth 32) ^^^ k.xor).toNat
          else match k.policy with
            | .clamp => k.count - 1
            | .noop => k.active } ∧
        (∀ m, m ≠ bank.toNat → Table.get t.banks m = Table.get s.banks m) ∧
        LdvSet s t c.toNat sp v ∧ Unchanged s t [.banks, .ldv, .out]) ∧
    (∀ tcpu line mode vec hasVec, e.target = .kLine tcpu line mode vec hasVec → tcpu.toNat < s.ncpu →
      ∃ t, exec (writeOp sp c addr v) s = .next t ∧ HandsOut t .none ∧
        LineIs s t tcpu.toNat line.toNat
          (if mode.setWidth 2 = 0#2 then LineRec.cleared
            else ⟨LineMode.ofCode (mode.setWidth 2), hasVec, if hasVec then vec else 0⟩) ∧
        LdvSet s t c.toNat sp v ∧ Unchanged s t [.lines, .ldv, .out]) ∧
    (∀ tcpu line bit active, e.target = .kLineBit tcpu line bit active → tcpu.toNat < s.ncpu → active.toNat ≤ 1 →
      ∃ t, exec (writeOp sp c addr v) s = .next t ∧ HandsOut t .none ∧
        LineIs s t tcpu.toNat line.toNat
          (if (v.getLsbD bit.toNat).toNat = active.toNat then ⟨.assert, false, 0⟩ else LineRec.cleared) ∧
        LdvSet s t c.toNat sp v ∧ Unchanged s t [.lines, .ldv, .out]) ∧
    (∀ sink, e.target = .kSink sink → ∃ t, exec (writeOp sp c addr v) s = .next t ∧ t.out.result = .none ∧
      t.out.sink = some ⟨sink.toNat, off, v⟩ ∧ t.out.cpusReset = false ∧ LdvSet s t c.toNat sp v ∧
      Unchanged s t [.ldv, .out])

/-- Every bus access of a configured fabric completes: none faults, is refused or waits, whatever the address
(20_memory.md R53, R62; 60_exceptions.md R300, R303). -/
def Obligations.BusAccessesComplete : Prop :=
  ∀ (s : State) (sp : Space) (c : Byte) (addr : Word32) (v : Byte), s.phase = .run → s.refsOk = true →
    c.toNat < s.ncpu →
    (∃ t, exec (readOp sp c addr) s = .next t) ∧ ∃ t, exec (writeOp sp c addr v) s = .next t

/-- A byte that one CPU writes to a mutable memory block is what the very next read of that byte gives, by any CPU in
any space through any range bound to it (20_memory.md R65; 42_bus.md R186). -/
def Obligations.SharedByteVisible : Prop :=
  ∀ (s : State) (sp sq : Space) (c d : Byte) (addr addr' : Word32) (v : Byte) (b b' : BusSpace) (e e' : BusRange)
    (off off' : Nat) (region : Byte) (roff roff' : Word32) (g : Region), s.phase = .run →
    s.space? c.toNat sp = some b → b.resolve addr .wr = some (e, off) → e.target = .kMem region roff →
    s.space? d.toNat sq = some b' → b'.resolve addr' .rd = some (e', off') → e'.target = .kMem region roff' →
    roff.toNat + off = roff'.toNat + off' → Table.get s.regions region.toNat = some g → g.mutbl = true →
    roff.toNat + off < g.size →
    ∃ t, runOps [writeOp sp c addr v, readOp sq d addr'] s = .next t ∧ t.out.result = .byte v

/-! ## The coordinator -/

/-- LINE.CLEAR (43_coordinator.md R211): the line's record is cleared, whatever it was, and a CPU whose RESET line is
cleared is held no longer; nothing else changes. -/
def Obligations.LineClearEffect : Prop :=
  ∀ (s : State) (c n : Byte),
    encode (.lineClear c n) = [0x40#8 ++ c ++ n ++ 0#32 ++ 0#8] ∧
    (s.phase ≠ .run → exec (.lineClear c n) s = .refused (.wrongPhase s.phase)) ∧
    (s.phase = .run → s.ncpu ≤ c.toNat → exec (.lineClear c n) s = .refused (.noSuchCpu c.toNat)) ∧
    (s.phase = .run → c.toNat < s.ncpu → ∃ t, exec (.lineClear c n) s = .next t ∧
      LineIs s t c.toNat n.toNat ⟨.clear, false, 0⟩ ∧ (n = 2 → t.held c.toNat = false) ∧ HandsOut t .none ∧
      Unchanged s t [.lines, .out])

/-- LINE.ASSERT, LINE.PULSE and LINE.HOLD (43_coordinator.md R210, R212, R213, R214): the line's record is replaced
whole, with the operation's level and vector; nothing else changes. -/
def Obligations.LineRaiseEffect : Prop :=
  ∀ (s : State) (c n : Byte) (hasVec : Bool) (vec : Byte) (i : Instr) (m : LineMode), s.phase = .run →
    ((i = .lineAssert c n hasVec vec ∧ m = .assert) ∨ (i = .linePulse c n hasVec vec ∧ m = .pulse) ∨
      (i = .lineHold c n hasVec vec ∧ m = .hold)) →
    (s.ncpu ≤ c.toNat → exec i s = .refused (.noSuchCpu c.toNat)) ∧
    (c.toNat < s.ncpu → ∃ t, exec i s = .next t ∧
      LineIs s t c.toNat n.toNat ⟨m, hasVec, if hasVec then vec else 0⟩ ∧ HandsOut t .none ∧
      Unchanged s t [.lines, .out])

/-- CPU.POLL (43_coordinator.md R215): the snapshot holds exactly the lines of the CPU that are not CLEAR, with their
records; its PULSE lines are cleared, and nothing else changes. -/
def Obligations.CpuPollEffect : Prop :=
  ∀ (s : State) (c : Byte), s.phase = .run →
    (s.ncpu ≤ c.toNat → exec (.cpuPoll c) s = .refused (.noSuchCpu c.toNat)) ∧
    (c.toNat < s.ncpu → s.linesOk = true → ∃ t snap, exec (.cpuPoll c) s = .next t ∧ HandsOut t (.lines snap) ∧
      (∀ n r, (n, r) ∈ snap ↔ s.line c.toNat n = r ∧ r.level ≠ .clear) ∧
      (∀ d n, t.line d n = if d = c.toNat ∧ (s.line d n).level = .pulse then ⟨.clear, false, 0⟩ else s.line d n) ∧
      Unchanged s t [.lines, .out])

/-- CPU.IACK (43_coordinator.md R216): a HOLD line is cleared, any other line stays as it is. -/
def Obligations.CpuIackEffect : Prop :=
  ∀ (s : State) (c n : Byte), s.phase = .run →
    (s.ncpu ≤ c.toNat → exec (.cpuIack c n) s = .refused (.noSuchCpu c.toNat)) ∧
    (c.toNat < s.ncpu → ∃ t, exec (.cpuIack c n) s = .next t ∧
      LineIs s t c.toNat n.toNat
        (if (s.line c.toNat n.toNat).level = .hold then ⟨.clear, false, 0⟩ else s.line c.toNat n.toNat) ∧
      HandsOut t .none ∧ Unchanged s t [.lines, .out])

/-- SCAN.CONFIGURE and PER.CONFIGURE (43_coordinator.md R217, R219): the two errors of each in the order of its rule;
else the entry ends its list, a periodic one with no ticks, and nothing else changes. That a vector byte is accepted and
stored where the entry has no vector is the model's choice (log 36). -/
def Obligations.TimerConfigureEffect : Prop :=
  ∀ (s : State) (c n : Byte) (x : BitVec 16) (mode : LineMode) (hasVec : Bool) (vec : Byte), s.phase = .config →
    (s.ncpu ≤ c.toNat → Raises (.scanConfigure c n x mode hasVec vec) s .unit ∧
      Raises (.perConfigure c n x mode hasVec vec) s .unit) ∧
    (c.toNat < s.ncpu → s.scanLines ≤ x.toNat → Raises (.scanConfigure c n x mode hasVec vec) s .value) ∧
    (c.toNat < s.ncpu → x = 0 → Raises (.perConfigure c n x mode hasVec vec) s .value) ∧
    (c.toNat < s.ncpu → x.toNat < s.scanLines → ∃ t, exec (.scanConfigure c n x mode hasVec vec) s = .next t ∧
      t.scanEntries = s.scanEntries ++ [⟨x.toNat, c.toNat, n.toNat, mode, hasVec, vec⟩] ∧
      t.scanLines = s.scanLines ∧ HandsOut t .none ∧ Unchanged s t [.scanSetup, .out]) ∧
    (c.toNat < s.ncpu → x ≠ 0 → ∃ t, exec (.perConfigure c n x mode hasVec vec) s = .next t ∧
      t.perTimers = s.perTimers ++ [⟨c.toNat, n.toNat, mode, hasVec, vec, x.toNat, 0⟩] ∧
      HandsOut t .none ∧ Unchanged s t [.timers, .out])

/-- SCAN.ADVANCE (43_coordinator.md R218): the raster moves to the next scanline, wrapping and counting a frame after
the last; each line becomes what the last entry for that scanline and that line says, and stays where there is none. -/
def Obligations.ScanAdvanceEffect : Prop :=
  ∀ s : State, s.phase = .run → (∀ e ∈ s.scanEntries, e.cpu < s.ncpu ∧ e.mode ≠ .clear) →
    ∃ t, exec .scanAdvance s = .next t ∧
      (t.scanV = if s.scanV = s.scanLines - 1 then 0 else s.scanV + 1) ∧
      (t.scanF = if s.scanV = s.scanLines - 1 then s.scanF + 1 else s.scanF) ∧
      (∀ c n, t.line c n =
        match (s.scanEntries.filter fun e => e.scanline == t.scanV && e.cpu == c && e.line == n).getLast? with
        | some e => ⟨e.mode, e.hasVec, if e.hasVec then e.vec else 0⟩
        | none => s.line c n) ∧
      HandsOut t .none ∧ Unchanged s t [.raster, .lines, .out]

/-- PER.TICK (43_coordinator.md R220): the entry counts a tick and its line operation is performed; a missing entry is
refused. -/
def Obligations.PerTickEffect : Prop :=
  ∀ (s : State) (j : Byte), s.phase = .run →
    (s.perTimers.length ≤ j.toNat → exec (.perTick j) s = .refused (.noSuchTimer j.toNat)) ∧
    (∀ e, s.perTimers[j.toNat]? = some e → e.cpu < s.ncpu → e.mode ≠ .clear → ∃ t, exec (.perTick j) s = .next t ∧
      t.perTimers = s.perTimers.set j.toNat { e with ticks := e.ticks + 1 } ∧
      LineIs s t e.cpu e.line ⟨e.mode, e.hasVec, if e.hasVec then e.vec else 0⟩ ∧
      HandsOut t .none ∧ Unchanged s t [.timers, .lines, .out])

/-- In as many consecutive steps of the scanline timer as there are scanlines, every scanline is entered by exactly one
step, and then the raster stands where it stood, one frame later (43_coordinator.md R218). -/
def Obligations.FrameEntersEachScanlineOnce : Prop :=
  ∀ s : State, s.phase = .run → s.rasterOk = true →
    (∀ v, v < s.scanLines → ∃ k, k < s.scanLines ∧
      (∃ t, runOps (List.replicate (k + 1) .scanAdvance) s = .next t ∧ t.scanV = v) ∧
      ∀ j, j < s.scanLines → (∃ t, runOps (List.replicate (j + 1) .scanAdvance) s = .next t ∧ t.scanV = v) → j = k) ∧
    ∃ t, runOps (List.replicate s.scanLines .scanAdvance) s = .next t ∧ t.scanV = s.scanV ∧ t.scanF = s.scanF + 1

/-! ## The peripheral adapter -/

/-- PORT.CONFIGURE (44_peripheral.md R250): the errors in the order of the rule; else the wiring is fixed, the four
shadows are 0, and nothing else changes. -/
def Obligations.PortConfigureEffect : Prop :=
  ∀ (s : State) (w : PortWiring), s.phase = .config →
    let units : Prop := s.hasLatch w.outLatch = true ∧ s.hasLatch w.inLatch = true ∧ w.rstCpu.toNat < s.ncpu ∧
      w.mcu.toNat < s.ncpu
    let bits : List Nat := [w.outBit.toNat, w.ackBit.toNat, w.p2selLo.toNat, w.p2selLo.toNat + 1, w.p3selLo.toNat,
      w.p3selLo.toNat + 1]
    let values : Prop := w.p2selLo.toNat ≤ 6 ∧ w.p3selLo.toNat ≤ 6 ∧ bits.Nodup ∧ 4 ≤ w.inpBit.toNat ∧
      4 ≤ w.outpBit.toNat ∧ w.inpBit ≠ w.outpBit
    (s.pcfg.isSome = true → Raises (.portConfigure w) s .dup) ∧
    (s.pcfg = none → ¬units → Raises (.portConfigure w) s .unit) ∧
    (s.pcfg = none → units → ¬values → Raises (.portConfigure w) s .value) ∧
    (s.pcfg = none → units → values → ∃ t, exec (.portConfigure w) s = .next t ∧ t.pcfg = some w ∧
      t.p0 = 0 ∧ t.p1 = 0 ∧ t.p2 = 0 ∧ t.p3 = 0 ∧ HandsOut t .none ∧
      Unchanged s t [.pcfg, .p0, .p1, .p2, .p3, .out])

/-- P0.READ (44_peripheral.md R255): the P0 shadow, and no effect; the byte is 0 right after SYS.START or SYS.RESET, and
every operation but P0.WRITE and SYS.RESTORE keeps a shadow of 0 (log 29: the 0 is a stand-in that no proof about a
program should lean on, 93_implementation_defined.md U5). -/
def Obligations.P0ReadEffect : Prop :=
  ∀ s : State,
    encode .p0Read = [0x5100000000000000] ∧
    (s.phase ≠ .run → exec .p0Read s = .refused (.wrongPhase s.phase)) ∧
    (s.phase = .run → s.pcfg = none → exec .p0Read s = .refused .noPeripheral) ∧
    (∀ w, s.phase = .run → s.pcfg = some w → ∃ t, exec .p0Read s = .next t ∧ HandsOut t (.byte s.p0) ∧
      Unchanged s t [.out]) ∧
    (∀ w, s.pcfg = some w →
      (s.phase = .config → ∃ t, runOps [.sysStart, .p0Read] s = .next t ∧ HandsOut t (.byte 0)) ∧
      (s.phase = .run → ∃ t, runOps [.sysReset, .p0Read] s = .next t ∧ HandsOut t (.byte 0))) ∧
    (∀ i t, s.p0 = 0 → exec i s = .next t → (∀ v, i ≠ .p0Write v) → (∀ slot, i ≠ .sysRestore slot) → t.p0 = 0)

/-- P1.READ (44_peripheral.md R256): LATCH.READ of the inbound latch, with its effect on the pending flag, as R256 and
70_reset_and_hazards.md R359 say and not as the table of 20_memory.md R55 does (the model's inference, log 35). -/
def Obligations.P1ReadEffect : Prop :=
  ∀ (s : State) (w : PortWiring) (k : Latch), s.phase = .run → s.pcfg = some w →
    Table.get s.latches w.inLatch.toNat = some k → ∃ t, exec .p1Read s = .next t ∧
      HandsOut t (.byte k.value) ∧ LatchCleared s t w.inLatch.toNat k (k.mode = .readClears) ∧
      Unchanged s t [.latches, .lines, .out]

/-- P2.READ (44_peripheral.md R257): two bits of P0 select one of the three input sources of the wiring, whose byte is
the next one the outside world has handed over or else the free byte of that very source (log 7); with value 3 the byte
is a free one of its own and nothing is taken from the outside world (log 8); no other effect. -/
def Obligations.P2ReadEffect : Prop :=
  ∀ (s : State) (w : PortWiring), s.phase = .run → s.pcfg = some w → ∃ t v, exec .p2Read s = .next t ∧
    HandsOut t (.byte v) ∧
    (∀ sel, sel = (s.p0.toNat / 2 ^ w.p2selLo.toNat) % 4 →
      (sel ≠ 3 → ∀ x rest, s.extIn = x :: rest → v = x ∧ t.extIn = rest ∧ t.draws = s.draws) ∧
      (∀ src, (sel = 0 ∧ src = w.p2src0) ∨ (sel = 1 ∧ src = w.p2src1) ∨ (sel = 2 ∧ src = w.p2src2) → s.extIn = [] →
        v = Config.freeByte (.input src.toNat) s.draws ∧ t.extIn = [] ∧ t.draws = s.draws + 1) ∧
      (sel = 3 → v = Config.freeByte .port2 s.draws ∧ t.extIn = s.extIn ∧ t.draws = s.draws + 1)) ∧
    Unchanged s t [.extIn, .draws, .out]

/-- P3.READ (44_peripheral.md R258): the bits that two bits of P0 choose of the two inverted DIP bytes, the two pending
flags at their bits, 0 elsewhere; no effect inside the fabric. Each of the wiring's two DIP sources in turn gives the
next byte the outside world has handed over, or else the free byte of that very source (log 7). -/
def Obligations.P3ReadEffect : Prop :=
  ∀ (s : State) (w : PortWiring) (kin kout : Latch), s.phase = .run → s.pcfg = some w →
    Table.get s.latches w.inLatch.toNat = some kin → Table.get s.latches w.outLatch.toNat = some kout →
    w.inpBit ≠ w.outpBit → 4 ≤ w.inpBit.toNat → 4 ≤ w.outpBit.toNat →
    ∃ (t : State) (d0 d1 v : Byte), exec .p3Read s = .next t ∧ HandsOut t (.byte v) ∧
      (∀ x y rest, s.extIn = x :: y :: rest → d0 = ~~~x ∧ d1 = ~~~y ∧ t.extIn = rest ∧ t.draws = s.draws) ∧
      (∀ x, s.extIn = [x] → d0 = ~~~x ∧ d1 = ~~~Config.freeByte (.dip w.dip1.toNat) s.draws ∧ t.extIn = [] ∧
        t.draws = s.draws + 1) ∧
      (s.extIn = [] → d0 = ~~~Config.freeByte (.dip w.dip0.toNat) s.draws ∧
        d1 = ~~~Config.freeByte (.dip w.dip1.toNat) (s.draws + 1) ∧ t.extIn = [] ∧ t.draws = s.draws + 2) ∧
      (∀ sel, sel = (s.p0.toNat / 2 ^ w.p3selLo.toNat) % 4 → ∀ i, i < 8 → v.getLsbD i =
        if i = w.inpBit.toNat then kin.pending
        else if i = w.outpBit.toNat then kout.pending
        else if i = 0 then d0.getLsbD sel
        else if i = 1 then d0.getLsbD (sel + 4)
        else if i = 2 then d1.getLsbD sel
        else if i = 3 then d1.getLsbD (sel + 4)
        else false) ∧
      Unchanged s t [.extIn, .draws, .out]

/-- P0.WRITE (44_peripheral.md R251, R259): the shadow takes the byte; a rising edge of the one bit writes P1 to the
outbound latch, a falling edge of the other acknowledges the inbound latch after it, and no edge does neither. -/
def Obligations.P0WriteEffect : Prop :=
  ∀ (s : State) (w : PortWiring) (kin kout : Latch) (v : Byte), s.phase = .run → s.pcfg = some w →
    Table.get s.latches w.inLatch.toNat = some kin → Table.get s.latches w.outLatch.toNat = some kout →
    (kout.hasTarget = true → kout.tcpu < s.ncpu) →
    ∃ t, exec (.p0Write v) s = .next t ∧ t.p0 = v ∧
      (∃ m kin', (if s.p0.getLsbD w.outBit.toNat = false ∧ v.getLsbD w.outBit.toNat = true
          then LatchWritten s m w.outLatch.toNat kout s.p1
          else Part.same s m .latches ∧ Part.same s m .lines) ∧
        Table.get m.latches w.inLatch.toNat = some kin' ∧
        LatchCleared m t w.inLatch.toNat kin'
          ((s.p0.getLsbD w.ackBit.toNat = true ∧ v.getLsbD w.ackBit.toNat = false) ∧ kin'.mode = .separateAck ∧
            kin'.pending = true)) ∧
      HandsOut t .none ∧ Unchanged s t [.p0, .latches, .lines, .out]

/-- P1.WRITE and P2.WRITE (44_peripheral.md R252, R253): the shadow takes the byte and nothing else changes; every port
operation is refused where there is no peripheral. -/
def Obligations.ShadowWriteEffect : Prop :=
  ∀ (s : State) (v : Byte), s.phase = .run →
    (s.pcfg = none → exec (.p0Write v) s = .refused .noPeripheral ∧ exec (.p1Write v) s = .refused .noPeripheral ∧
      exec (.p2Write v) s = .refused .noPeripheral ∧ exec (.p3Write v) s = .refused .noPeripheral ∧
      exec .p1Read s = .refused .noPeripheral ∧ exec .p2Read s = .refused .noPeripheral ∧
      exec .p3Read s = .refused .noPeripheral ∧ exec .p0Read s = .refused .noPeripheral) ∧
    (∀ w, s.pcfg = some w → (∃ t, exec (.p1Write v) s = .next t ∧ t.p1 = v ∧ HandsOut t .none ∧
        Unchanged s t [.p1, .out]) ∧
      ∃ t, exec (.p2Write v) s = .next t ∧ t.p2 = v ∧ HandsOut t .none ∧ Unchanged s t [.p2, .out])

/-- P3.WRITE (44_peripheral.md R254): the shadow takes the byte, and the RESET line of the target CPU is asserted where
the bit has its active value and cleared where it has not, in the same step. -/
def Obligations.P3WriteEffect : Prop :=
  ∀ (s : State) (w : PortWiring) (v : Byte), s.phase = .run → s.pcfg = some w → w.rstCpu.toNat < s.ncpu →
    ∃ t, exec (.p3Write v) s = .next t ∧ t.p3 = v ∧
      LineIs s t w.rstCpu.toNat 2
        (if v.getLsbD w.rstBit.toNat = w.rstActive then ⟨.assert, false, 0⟩ else ⟨.clear, false, 0⟩) ∧
      HandsOut t .none ∧ Unchanged s t [.p3, .lines, .out]

/-! ## The whole machine -/

/-- Once `PHASE` is RUN it stays RUN, no error is recorded, and no configuration changes (10_state.md R21, R35;
60_exceptions.md R300, R311). -/
def Obligations.ConfigurationFrozen : Prop :=
  ∀ (i : Instr) (s t : State), s.phase = .run → exec i s = .next t →
    t.phase = .run ∧ t.error = s.error ∧ SameSetup s t

/-- No operation changes a byte of an immutable region (10_state.md R23; 20_memory.md R59; 60_exceptions.md R304). -/
def Obligations.ImmutableBytesFixed : Prop :=
  ∀ (i : Instr) (s t : State) (r : Nat) (g : Region), exec i s = .next t → Table.get s.regions r = some g →
    g.mutbl = false → ∀ off, t.byteAt r off = s.byteAt r off

/-- Every step keeps memory, lines and unit tables in their canonical form, which is the model's own representation of
the state of 10_state.md R23 and R27 (log 5). -/
def Obligations.StepKeepsCanonical : Prop :=
  ∀ s t : State, s.canonicalOk = true → step s = .next t → t.canonicalOk = true

/-- Every step keeps the ranges of each map in order and free of overlaps, the raster at a scanline, and the fabric
ABORTED exactly with an error recorded (10_state.md R25, R29; 60_exceptions.md R302). -/
def Obligations.StepKeepsShape : Prop :=
  ∀ s t : State, s.shapeOk = true → step s = .next t → t.shapeOk = true

/-- Every step keeps every reference of a configured record valid: each bank's windows inside its region with its active
entry below the count, each range's target, each latch's target CPU and the peripheral's units (10_state.md R24;
40_bank.md R140; 42_bus.md R180; 60_exceptions.md R302). -/
def Obligations.StepKeepsReferences : Prop :=
  ∀ s t : State, s.refsOk = true → step s = .next t → t.refsOk = true

/-- The last decoded value of a space changes only by an access of its own CPU in that space that hits, by SYS.RESET and
by SYS.RESTORE (20_memory.md R60; 45_system.md R282, R284). That SYS.START keeps it, after which 10_state.md R38 calls
it unspecified, is the model's inference (log 22). -/
def Obligations.LdvChangesOnlySo : Prop :=
  ∀ (i : Instr) (s t : State) (c : Nat) (sp : Space), exec i s = .next t → t.ldv? c sp ≠ s.ldv? c sp →
    hitsSpace i s c sp ∨ i = .sysReset ∨ ∃ slot, i = .sysRestore slot

/-- The active entry of a bank changes only by a BANK.SELECT of that bank, direct or through a bank select register, and
by SYS.RESTORE (20_memory.md R61; 45_system.md R284). -/
def Obligations.ActiveChangesOnlySo : Prop :=
  ∀ (i : Instr) (s t : State) (b : Byte) (k k' : Bank), exec i s = .next t →
    Table.get s.banks b.toNat = some k → Table.get t.banks b.toNat = some k' → k'.active ≠ k.active →
    (∃ index, i = .bankSelect b index) ∨ (∃ shift mask, writesTarget i s (.kBankSel b shift mask)) ∨
      ∃ slot, i = .sysRestore slot
end

