-- ==== Sys2Proof/Laws/Decode.lean ====
section
/-! SUPPORT. Taking fields out of packed words gives back the fields, and packing the fields of a word gives back the
word. -/

namespace Sys2Proof.Laws

/-! ## Fields of concatenations -/

/-- A field that lies above the low part of a concatenation. -/
theorem slice_append_hi {m n : Nat} (a : BitVec m) (b : BitVec n) {lo len : Nat} (h : n ≤ lo) :
    slice lo len (a ++ b) = slice (lo - n) len a := by
  apply BitVec.eq_of_getLsbD_eq
  intro i hi
  simp only [slice, BitVec.getLsbD_extractLsb', BitVec.getLsbD_append, hi, decide_true, Bool.true_and]
  rw [if_neg (by omega), show lo + i - n = lo - n + i by omega]

/-- A field that lies inside the low part of a concatenation. -/
theorem slice_append_lo {m n : Nat} (a : BitVec m) (b : BitVec n) {lo len : Nat} (h : lo + len ≤ n) :
    slice lo len (a ++ b) = slice lo len b := by
  apply BitVec.eq_of_getLsbD_eq
  intro i hi
  simp only [slice, BitVec.getLsbD_extractLsb', BitVec.getLsbD_append, hi, decide_true, Bool.true_and]
  rw [if_pos (by omega)]

/-- The whole word as a field. -/
@[simp] theorem slice_all {n : Nat} (a : BitVec n) : slice 0 n a = a := by
  apply BitVec.eq_of_getLsbD_eq
  intro i hi
  simp [slice, hi]

/-- A field of a zero word. -/
@[simp] theorem slice_zero {n : Nat} (lo len : Nat) : slice lo len (0#n) = 0#len := by
  apply BitVec.eq_of_getLsbD_eq
  intro i hi
  simp [slice]

theorem flagAt_append_hi {m n : Nat} (a : BitVec m) (b : BitVec n) {k : Nat} (h : n ≤ k) :
    flagAt k (a ++ b) = flagAt (k - n) a := by
  simp only [flagAt, BitVec.getLsbD_append]
  rw [if_neg (by omega)]

theorem flagAt_append_lo {m n : Nat} (a : BitVec m) (b : BitVec n) {k : Nat} (h : k < n) :
    flagAt k (a ++ b) = flagAt k b := by
  simp only [flagAt, BitVec.getLsbD_append]
  rw [if_pos h]

@[simp] theorem flagAt_ofBool (p : Bool) : flagAt 0 (BitVec.ofBool p) = p := by cases p <;> rfl

/-- Two fields that meet make one field. -/
theorem slice_append_slice {n : Nat} (w : BitVec n) (lo a b : Nat) :
    slice (lo + b) a w ++ slice lo b w = slice lo (a + b) w := by
  apply BitVec.eq_of_getLsbD_eq
  intro i hi
  simp only [slice, BitVec.getLsbD_append, BitVec.getLsbD_extractLsb', hi, decide_true, Bool.true_and]
  by_cases h : i < b
  · simp [h]
  · have h1 : i - b < a := by omega
    have h2 : lo + b + (i - b) = lo + i := by omega
    simp [h, h1, h2]

theorem ofBool_flagAt {n : Nat} (w : BitVec n) (k : Nat) : BitVec.ofBool (flagAt k w) = slice k 1 w := by
  apply BitVec.eq_of_getLsbD_eq
  intro i hi
  have : i = 0 := by omega
  subst this
  simp [flagAt, slice]

/-! ## The head word -/

@[simp] theorem ofWord_word (h : Head) : Head.ofWord h.word = h := by
  obtain ⟨a, b, c, d, e⟩ := h
  simp only [Head.ofWord, Head.word, Head.mk.injEq]
  exact ⟨(slice_append_hi _ e (by decide)).trans ((slice_append_hi _ d (by decide)).trans
      ((slice_append_hi _ c (by decide)).trans ((slice_append_hi _ b (by decide)).trans (slice_all a)))),
    (slice_append_hi _ e (by decide)).trans ((slice_append_hi _ d (by decide)).trans
        ((slice_append_hi _ c (by decide)).trans ((slice_append_lo _ b (by decide)).trans (slice_all b)))),
    (slice_append_hi _ e (by decide)).trans ((slice_append_hi _ d (by decide)).trans
        ((slice_append_lo _ c (by decide)).trans (slice_all c))),
    (slice_append_hi _ e (by decide)).trans ((slice_append_lo _ d (by decide)).trans (slice_all d)),
    (slice_append_lo _ e (by decide)).trans (slice_all e)⟩

@[simp] theorem word_ofWord (w : OpWord) : (Head.ofWord w).word = w := by
  simp only [Head.ofWord, Head.word]
  rw [slice_append_slice w 48 8 8, slice_append_slice w 40 16 8, slice_append_slice w 8 24 32,
    slice_append_slice w 0 56 8]
  exact slice_all w

/-! ## Codes -/

@[simp] theorem lineMode_ofCode_code (m : LineMode) : LineMode.ofCode m.code = m := by cases m <;> rfl

@[simp] theorem lineMode_code_ofCode (k : BitVec 2) : (LineMode.ofCode k).code = k := by revert k; decide

@[simp] theorem space_ofCode_code (m : Space) : Space.ofCode m.code = m := by cases m <;> rfl

@[simp] theorem space_code_ofCode (k : Bool) : (Space.ofCode k).code = k := by cases k <;> rfl

@[simp] theorem access_ofCode_code (m : Access) : Access.ofCode m.code = some m := by cases m <;> rfl

theorem access_code_ofCode {k : BitVec 2} {m : Access} (h : Access.ofCode k = some m) : m.code = k := by
  revert k; cases m <;> decide

@[simp] theorem openBus_ofCode_code (m : OpenBusPolicy) : OpenBusPolicy.ofCode m.code = m := by cases m <;> rfl

@[simp] theorem openBus_code_ofCode (k : Bool) : (OpenBusPolicy.ofCode k).code = k := by cases k <;> rfl

@[simp] theorem bankPolicy_ofCode_code (m : BankPolicy) : BankPolicy.ofCode m.code = m := by cases m <;> rfl

@[simp] theorem bankPolicy_code_ofCode (k : Bool) : (BankPolicy.ofCode k).code = k := by cases k <;> rfl

@[simp] theorem latchMode_ofCode_code (m : LatchMode) : LatchMode.ofCode m.code = m := by cases m <;> rfl

@[simp] theorem latchMode_code_ofCode (k : Bool) : (LatchMode.ofCode k).code = k := by cases k <;> rfl

@[simp] theorem fire_ofCode_code (m : Fire) : Fire.ofCode m.code = m := by cases m <;> rfl

@[simp] theorem fire_code_ofCode (k : Bool) : (Fire.ofCode k).code = k := by cases k <;> rfl

/-! ## Target operands -/

@[simp] theorem targetFields_ofWord_word (f : TargetFields) : TargetFields.ofWord f.kind f.word = f := by
  obtain ⟨k, a, b, c, d, w⟩ := f
  simp only [TargetFields.ofWord, TargetFields.word, TargetFields.mk.injEq, true_and]
  exact ⟨(slice_append_hi _ w (by decide)).trans ((slice_append_hi _ d (by decide)).trans
      ((slice_append_hi _ c (by decide)).trans ((slice_append_hi _ b (by decide)).trans (slice_all a)))),
    (slice_append_hi _ w (by decide)).trans ((slice_append_hi _ d (by decide)).trans
        ((slice_append_hi _ c (by decide)).trans ((slice_append_lo _ b (by decide)).trans (slice_all b)))),
    (slice_append_hi _ w (by decide)).trans ((slice_append_hi _ d (by decide)).trans
        ((slice_append_lo _ c (by decide)).trans (slice_all c))),
    (slice_append_hi _ w (by decide)).trans ((slice_append_lo _ d (by decide)).trans (slice_all d)),
    (slice_append_lo _ w (by decide)).trans (slice_all w)⟩

@[simp] theorem targetFields_word_ofWord (k : Byte) (w : OpWord) : (TargetFields.ofWord k w).word = w := by
  simp only [TargetFields.ofWord, TargetFields.word]
  rw [slice_append_slice w 48 8 8, slice_append_slice w 40 16 8, slice_append_slice w 32 24 8,
    slice_append_slice w 0 32 32]
  exact slice_all w

theorem need_eq_some {α : Type} {ok : Bool} {x y : α} : need ok x = some y ↔ ok = true ∧ x = y := by
  cases ok <;> simp [need]

/-! ## Packed fields -/

theorem packBit_fields (k : Bool) : slice 1 7 (packBit k) = 0#7 ∧ flagAt 0 (packBit k) = k := by
  revert k; decide

theorem packBit_of_fields {x : Byte} (h : slice 1 7 x = 0#7) : packBit (flagAt 0 x) = x := by
  revert x; decide

theorem packLatchAux_fields (mode : LatchMode) (hasTarget : Bool) (fire : Fire) (deassert hasVec : Bool) :
    slice 5 3 (packLatchAux mode hasTarget fire deassert hasVec) = 0#3 ∧
    LatchMode.ofCode (flagAt 0 (packLatchAux mode hasTarget fire deassert hasVec)) = mode ∧
    flagAt 1 (packLatchAux mode hasTarget fire deassert hasVec) = hasTarget ∧
    Fire.ofCode (flagAt 2 (packLatchAux mode hasTarget fire deassert hasVec)) = fire ∧
    flagAt 3 (packLatchAux mode hasTarget fire deassert hasVec) = deassert ∧
    flagAt 4 (packLatchAux mode hasTarget fire deassert hasVec) = hasVec := by
  cases mode <;> cases fire <;> revert hasTarget deassert hasVec <;> decide

theorem packLatchAux_of_fields {x : Byte} (h : slice 5 3 x = 0#3) :
    packLatchAux (LatchMode.ofCode (flagAt 0 x)) (flagAt 1 x) (Fire.ofCode (flagAt 2 x)) (flagAt 3 x) (flagAt 4 x) =
      x := by
  revert x; decide

theorem packRangeAux_fields (mode : Access) (space : Space) :
    slice 2 5 (packRangeAux mode space) = 0#5 ∧ Access.ofCode (slice 0 2 (packRangeAux mode space)) = some mode ∧
    Space.ofCode (flagAt 7 (packRangeAux mode space)) = space := by
  cases mode <;> cases space <;> decide

theorem packRangeAux_of_fields {x : Byte} (h : slice 2 5 x = 0#5) {mode : Access}
    (hm : Access.ofCode (slice 0 2 x) = some mode) : packRangeAux mode (Space.ofCode (flagAt 7 x)) = x := by
  revert x; cases mode <;> decide

theorem packPolicyAux_fields (policy : OpenBusPolicy) (space : Space) :
    slice 1 6 (packPolicyAux policy space) = 0#6 ∧
    OpenBusPolicy.ofCode (flagAt 0 (packPolicyAux policy space)) = policy ∧
    Space.ofCode (flagAt 7 (packPolicyAux policy space)) = space := by
  cases policy <;> cases space <;> decide

theorem packPolicyAux_of_fields {x : Byte} (h : slice 1 6 x = 0#6) :
    packPolicyAux (OpenBusPolicy.ofCode (flagAt 0 x)) (Space.ofCode (flagAt 7 x)) = x := by
  revert x; decide

theorem packVec_fields (hasVec : Bool) : slice 1 31 (packVec hasVec) = 0#31 ∧ flagAt 0 (packVec hasVec) = hasVec := by
  revert hasVec; decide

theorem packVec_of_fields {x : Word32} (h : slice 1 31 x = 0#31) : packVec (flagAt 0 x) = x := by
  unfold packVec
  rw [ofBool_flagAt, ← h, slice_append_slice x 0 31 1]
  exact slice_all x

theorem packIds_fields (hi lo : Byte) :
    slice 16 16 (packIds hi lo) = 0#16 ∧ slice 8 8 (packIds hi lo) = hi ∧ slice 0 8 (packIds hi lo) = lo :=
  ⟨(slice_append_hi _ lo (by decide)).trans ((slice_append_hi _ hi (by decide)).trans (slice_all _)),
    (slice_append_hi _ lo (by decide)).trans ((slice_append_lo _ hi (by decide)).trans (slice_all hi)),
    (slice_append_lo _ lo (by decide)).trans (slice_all lo)⟩

theorem packIds_of_fields {x : Word32} (h : slice 16 16 x = 0#16) : packIds (slice 8 8 x) (slice 0 8 x) = x := by
  unfold packIds
  rw [← h, slice_append_slice x 8 16 8, slice_append_slice x 0 24 8]
  exact slice_all x

theorem packExt_fields (v : Word32) : slice 32 32 (packExt v) = 0#32 ∧ slice 0 32 (packExt v) = v :=
  ⟨(slice_append_hi _ v (by decide)).trans (slice_all _), (slice_append_lo _ v (by decide)).trans (slice_all v)⟩

theorem packExt_of_fields {x : OpWord} (h : slice 32 32 x = 0#32) : packExt (slice 0 32 x) = x := by
  unfold packExt
  rw [← h, slice_append_slice x 0 32 32]
  exact slice_all x

theorem packTimer_fields (value : BitVec 16) (mode : LineMode) (hasVec : Bool) :
    slice 18 6 (packTimer value mode hasVec) = 0#6 ∧ slice 25 7 (packTimer value mode hasVec) = 0#7 ∧
    slice 16 2 (packTimer value mode hasVec) = mode.code ∧ slice 0 16 (packTimer value mode hasVec) = value ∧
    flagAt 24 (packTimer value mode hasVec) = hasVec :=
  ⟨(slice_append_hi _ value (by decide)).trans
      ((slice_append_hi _ mode.code (by decide)).trans ((slice_append_lo _ 0#6 (by decide)).trans (slice_all _))),
    (slice_append_hi _ value (by decide)).trans ((slice_append_hi _ mode.code (by decide)).trans
      ((slice_append_hi _ 0#6 (by decide)).trans ((slice_append_hi _ _ (by decide)).trans (slice_all _)))),
    (slice_append_hi _ value (by decide)).trans ((slice_append_lo _ mode.code (by decide)).trans (slice_all _)),
    (slice_append_lo _ value (by decide)).trans (slice_all value),
    (flagAt_append_hi _ value (by decide)).trans ((flagAt_append_hi _ mode.code (by decide)).trans
      ((flagAt_append_hi _ 0#6 (by decide)).trans
        ((flagAt_append_lo _ (BitVec.ofBool hasVec) (by decide)).trans (flagAt_ofBool hasVec))))⟩

theorem packTimer_of_fields {x : Word32} (h : slice 18 6 x = 0#6) (h' : slice 25 7 x = 0#7) :
    packTimer (slice 0 16 x) (LineMode.ofCode (slice 16 2 x)) (flagAt 24 x) = x := by
  unfold packTimer
  rw [lineMode_code_ofCode, ofBool_flagAt, ← h, ← h', slice_append_slice x 24 7 1, slice_append_slice x 18 8 6,
    slice_append_slice x 16 14 2, slice_append_slice x 0 16 16]
  exact slice_all x

/-! ## The wiring word -/

section Wiring

variable (p : PortWiring)

theorem extWord_dip1 : slice 56 8 p.extWord = p.dip1 :=
    (slice_append_hi _ p.outBit (by decide)).trans <| (slice_append_hi _ p.ackBit (by decide)).trans <|
    (slice_append_hi _ p.p2selLo (by decide)).trans <| (slice_append_hi _ p.p3selLo (by decide)).trans <|
    (slice_append_hi _ p.rstBit (by decide)).trans <|
        (slice_append_hi _ (BitVec.ofBool p.rstActive) (by decide)).trans <|
    (slice_append_hi _ p.inpBit (by decide)).trans <| (slice_append_hi _ p.outpBit (by decide)).trans <|
    (slice_append_hi _ 0#2 (by decide)).trans <| (slice_append_hi _ p.p2src0 (by decide)).trans <|
    (slice_append_hi _ p.p2src1 (by decide)).trans <| (slice_append_hi _ p.p2src2 (by decide)).trans <|
    (slice_append_hi _ p.dip0 (by decide)).trans <|
    slice_all p.dip1

theorem extWord_dip0 : slice 48 8 p.extWord = p.dip0 :=
    (slice_append_hi _ p.outBit (by decide)).trans <| (slice_append_hi _ p.ackBit (by decide)).trans <|
    (slice_append_hi _ p.p2selLo (by decide)).trans <| (slice_append_hi _ p.p3selLo (by decide)).trans <|
    (slice_append_hi _ p.rstBit (by decide)).trans <|
        (slice_append_hi _ (BitVec.ofBool p.rstActive) (by decide)).trans <|
    (slice_append_hi _ p.inpBit (by decide)).trans <| (slice_append_hi _ p.outpBit (by decide)).trans <|
    (slice_append_hi _ 0#2 (by decide)).trans <| (slice_append_hi _ p.p2src0 (by decide)).trans <|
    (slice_append_hi _ p.p2src1 (by decide)).trans <| (slice_append_hi _ p.p2src2 (by decide)).trans <|
    (slice_append_lo _ p.dip0 (by decide)).trans <|
    slice_all p.dip0

theorem extWord_p2src2 : slice 40 8 p.extWord = p.p2src2 :=
    (slice_append_hi _ p.outBit (by decide)).trans <| (slice_append_hi _ p.ackBit (by decide)).trans <|
    (slice_append_hi _ p.p2selLo (by decide)).trans <| (slice_append_hi _ p.p3selLo (by decide)).trans <|
    (slice_append_hi _ p.rstBit (by decide)).trans <|
        (slice_append_hi _ (BitVec.ofBool p.rstActive) (by decide)).trans <|
    (slice_append_hi _ p.inpBit (by decide)).trans <| (slice_append_hi _ p.outpBit (by decide)).trans <|
    (slice_append_hi _ 0#2 (by decide)).trans <| (slice_append_hi _ p.p2src0 (by decide)).trans <|
    (slice_append_hi _ p.p2src1 (by decide)).trans <| (slice_append_lo _ p.p2src2 (by decide)).trans <|
    slice_all p.p2src2

theorem extWord_p2src1 : slice 32 8 p.extWord = p.p2src1 :=
    (slice_append_hi _ p.outBit (by decide)).trans <| (slice_append_hi _ p.ackBit (by decide)).trans <|
    (slice_append_hi _ p.p2selLo (by decide)).trans <| (slice_append_hi _ p.p3selLo (by decide)).trans <|
    (slice_append_hi _ p.rstBit (by decide)).trans <|
        (slice_append_hi _ (BitVec.ofBool p.rstActive) (by decide)).trans <|
    (slice_append_hi _ p.inpBit (by decide)).trans <| (slice_append_hi _ p.outpBit (by decide)).trans <|
    (slice_append_hi _ 0#2 (by decide)).trans <| (slice_append_hi _ p.p2src0 (by decide)).trans <|
    (slice_append_lo _ p.p2src1 (by decide)).trans <|
    slice_all p.p2src1

theorem extWord_p2src0 : slice 24 8 p.extWord = p.p2src0 :=
    (slice_append_hi _ p.outBit (by decide)).trans <| (slice_append_hi _ p.ackBit (by decide)).trans <|
    (slice_append_hi _ p.p2selLo (by decide)).trans <| (slice_append_hi _ p.p3selLo (by decide)).trans <|
    (slice_append_hi _ p.rstBit (by decide)).trans <|
        (slice_append_hi _ (BitVec.ofBool p.rstActive) (by decide)).trans <|
    (slice_append_hi _ p.inpBit (by decide)).trans <| (slice_append_hi _ p.outpBit (by decide)).trans <|
    (slice_append_hi _ 0#2 (by decide)).trans <| (slice_append_lo _ p.p2src0 (by decide)).trans <|
    slice_all p.p2src0

theorem extWord_unused : slice 22 2 p.extWord = 0#2 :=
    (slice_append_hi _ p.outBit (by decide)).trans <| (slice_append_hi _ p.ackBit (by decide)).trans <|
    (slice_append_hi _ p.p2selLo (by decide)).trans <| (slice_append_hi _ p.p3selLo (by decide)).trans <|
    (slice_append_hi _ p.rstBit (by decide)).trans <|
        (slice_append_hi _ (BitVec.ofBool p.rstActive) (by decide)).trans <|
    (slice_append_hi _ p.inpBit (by decide)).trans <| (slice_append_hi _ p.outpBit (by decide)).trans <|
    (slice_append_lo _ 0#2 (by decide)).trans <|
    slice_all 0#2

theorem extWord_outpBit : slice 19 3 p.extWord = p.outpBit :=
    (slice_append_hi _ p.outBit (by decide)).trans <| (slice_append_hi _ p.ackBit (by decide)).trans <|
    (slice_append_hi _ p.p2selLo (by decide)).trans <| (slice_append_hi _ p.p3selLo (by decide)).trans <|
    (slice_append_hi _ p.rstBit (by decide)).trans <|
        (slice_append_hi _ (BitVec.ofBool p.rstActive) (by decide)).trans <|
    (slice_append_hi _ p.inpBit (by decide)).trans <| (slice_append_lo _ p.outpBit (by decide)).trans <|
    slice_all p.outpBit

theorem extWord_inpBit : slice 16 3 p.extWord = p.inpBit :=
    (slice_append_hi _ p.outBit (by decide)).trans <| (slice_append_hi _ p.ackBit (by decide)).trans <|
    (slice_append_hi _ p.p2selLo (by decide)).trans <| (slice_append_hi _ p.p3selLo (by decide)).trans <|
    (slice_append_hi _ p.rstBit (by decide)).trans <|
        (slice_append_hi _ (BitVec.ofBool p.rstActive) (by decide)).trans <|
    (slice_append_lo _ p.inpBit (by decide)).trans <|
    slice_all p.inpBit

theorem extWord_rstActive : slice 15 1 p.extWord = BitVec.ofBool p.rstActive :=
    (slice_append_hi _ p.outBit (by decide)).trans <| (slice_append_hi _ p.ackBit (by decide)).trans <|
    (slice_append_hi _ p.p2selLo (by decide)).trans <| (slice_append_hi _ p.p3selLo (by decide)).trans <|
    (slice_append_hi _ p.rstBit (by decide)).trans <|
        (slice_append_lo _ (BitVec.ofBool p.rstActive) (by decide)).trans <|
    slice_all (BitVec.ofBool p.rstActive)

theorem extWord_rstBit : slice 12 3 p.extWord = p.rstBit :=
    (slice_append_hi _ p.outBit (by decide)).trans <| (slice_append_hi _ p.ackBit (by decide)).trans <|
    (slice_append_hi _ p.p2selLo (by decide)).trans <| (slice_append_hi _ p.p3selLo (by decide)).trans <|
    (slice_append_lo _ p.rstBit (by decide)).trans <|
    slice_all p.rstBit

theorem extWord_p3selLo : slice 9 3 p.extWord = p.p3selLo :=
    (slice_append_hi _ p.outBit (by decide)).trans <| (slice_append_hi _ p.ackBit (by decide)).trans <|
    (slice_append_hi _ p.p2selLo (by decide)).trans <| (slice_append_lo _ p.p3selLo (by decide)).trans <|
    slice_all p.p3selLo

theorem extWord_p2selLo : slice 6 3 p.extWord = p.p2selLo :=
    (slice_append_hi _ p.outBit (by decide)).trans <| (slice_append_hi _ p.ackBit (by decide)).trans <|
    (slice_append_lo _ p.p2selLo (by decide)).trans <|
    slice_all p.p2selLo

theorem extWord_ackBit : slice 3 3 p.extWord = p.ackBit :=
    (slice_append_hi _ p.outBit (by decide)).trans <| (slice_append_lo _ p.ackBit (by decide)).trans <|
    slice_all p.ackBit

theorem extWord_outBit : slice 0 3 p.extWord = p.outBit :=
    (slice_append_lo _ p.outBit (by decide)).trans <|
    slice_all p.outBit

theorem ofWords_extWord : PortWiring.ofWords (Head.mk 0x50#8 p.outLatch p.inLatch (packIds p.mcu p.rstCpu) 0#8)
    p.extWord = p := by
  have hb : flagAt 15 p.extWord = p.rstActive := by
    have h := extWord_rstActive p
    rw [← ofBool_flagAt] at h
    cases hx : flagAt 15 p.extWord <;> cases hy : p.rstActive <;> simp_all
  have hi := packIds_fields p.mcu p.rstCpu
  simp only [PortWiring.ofWords, hi, hb, extWord_dip1, extWord_dip0, extWord_p2src2, extWord_p2src1,
      extWord_p2src0, extWord_outpBit, extWord_inpBit, extWord_rstBit, extWord_p3selLo, extWord_p2selLo,
      extWord_ackBit, extWord_outBit]

end Wiring

theorem extWord_ofWords (h : Head) {e : OpWord} (he : slice 22 2 e = 0#2) : (PortWiring.ofWords h e).extWord = e := by
  simp only [PortWiring.ofWords, PortWiring.extWord]
  rw [ofBool_flagAt, ← he, slice_append_slice e 48 8 8,
    slice_append_slice e 40 16 8,
    slice_append_slice e 32 24 8,
    slice_append_slice e 24 32 8,
    slice_append_slice e 22 40 2,
    slice_append_slice e 19 42 3,
    slice_append_slice e 16 45 3,
    slice_append_slice e 15 48 1,
    slice_append_slice e 12 49 3,
    slice_append_slice e 9 52 3,
    slice_append_slice e 6 55 3,
    slice_append_slice e 3 58 3,
    slice_append_slice e 0 61 3]
  exact slice_all e

/-- The fields of a target give back the target. -/
theorem ofFields_fields (g : Target) : Target.ofFields g.fields = some g := by
  cases g with
  | kStatus l0 l1 l2 l3 v n =>
    have h0 : slice 8 24 (0#24 ++ n ++ v) = 0#24 :=
      (slice_append_hi _ v (by decide)).trans ((slice_append_hi _ n (by decide)).trans (slice_all _))
    have h1 : slice 0 4 (0#24 ++ n ++ v) = v := (slice_append_lo _ v (by decide)).trans (slice_all v)
    have h2 : slice 4 4 (0#24 ++ n ++ v) = n :=
      (slice_append_hi _ v (by decide)).trans ((slice_append_lo _ n (by decide)).trans (slice_all n))
    exact need_eq_some.2 ⟨beq_iff_eq.2 h0, by rw [Target.fields, h1, h2]⟩
  | kLine a b c d e =>
    have h0 : slice 1 31 (0#31 ++ BitVec.ofBool e) = 0#31 :=
      (slice_append_hi _ (BitVec.ofBool e) (by decide)).trans (slice_all _)
    have h1 : flagAt 0 (0#31 ++ BitVec.ofBool e) = e :=
      (flagAt_append_lo _ (BitVec.ofBool e) (by decide)).trans (flagAt_ofBool e)
    exact need_eq_some.2 ⟨beq_iff_eq.2 h0, by rw [Target.fields, h1]⟩
  | _ => rfl

/-! ## What the decoder accepts -/

/-- A byte is the literal of its number. -/
theorem eq_ofNat_of_toNat {x : Byte} {n : Nat} (h : x.toNat = n) : x = BitVec.ofNat 8 n := by
  apply BitVec.eq_of_toNat_eq; simp [← h]

/-- All that the decoder of format S accepts: the head word of a well-formed operation with no extension words. -/
theorem decodeShort_some {h : Head} {i : Instr} (hd : decodeShort h = some i) : i.wf = true ∧ i.head = h ∧
    i.exts = [] := by
  obtain ⟨o, u, a, g, d⟩ := h
  unfold decodeShort at hd
  split at hd
  all_goals rename_i ho
  all_goals try (have ho := eq_ofNat_of_toNat ho; subst ho)
  all_goals try (rw [need_eq_some] at hd; obtain ⟨hc, rfl⟩ := hd)
  all_goals try simp only [Bool.and_eq_true, beq_iff_eq] at hc
  case h_29 =>
    split at hd
    · rename_i hc
      simp only [Bool.and_eq_true, beq_iff_eq] at hc
      split at hd <;> simp only [Option.some.injEq, reduceCtorEq] at hd
      all_goals rename_i hu; have hu := eq_ofNat_of_toNat hu; subst hu; subst hd
      all_goals obtain ⟨⟨rfl, rfl⟩, rfl⟩ := hc; exact ⟨rfl, rfl, rfl⟩
    · simp at hd
  case h_30 =>
    split at hd
    · rename_i hc
      simp only [Bool.and_eq_true, beq_iff_eq] at hc
      split at hd <;> simp only [Option.some.injEq, reduceCtorEq] at hd
      all_goals rename_i hu; have hu := eq_ofNat_of_toNat hu; subst hu; subst hd
      all_goals obtain ⟨rfl, rfl⟩ := hc; exact ⟨rfl, rfl, rfl⟩
    · simp at hd
  case h_31 => simp at hd
  all_goals simp only [Instr.wf, Instr.head, Instr.exts, Head.mk.injEq, true_and, and_true]
  all_goals first
    | (simp_all; done)
    | skip
  all_goals simp only [BitVec.ofNat_eq_ofNat] at *
  · obtain ⟨h1, rfl⟩ := hc
    exact ⟨trivial, packBit_of_fields h1, rfl⟩
  · exact ⟨trivial, packLatchAux_of_fields hc.1, packIds_of_fields hc.2⟩
  · exact ⟨trivial, packPolicyAux_of_fields hc⟩
  · exact ⟨hc.2, trivial, packVec_of_fields hc.1⟩
  · exact ⟨hc.2, trivial, packVec_of_fields hc.1⟩
  · exact ⟨hc.2, trivial, packVec_of_fields hc.1⟩
  · exact ⟨hc.2, trivial, packTimer_of_fields hc.1.1 hc.1.2⟩
  · exact ⟨hc.2, trivial, packTimer_of_fields hc.1.1 hc.1.2⟩

/-- All that the decoder of targets accepts: the fields of a target. -/
theorem ofFields_some {f : TargetFields} {g : Target} (h : Target.ofFields f = some g) : g.fields = f := by
  obtain ⟨k, a, b, c, d, w⟩ := f
  unfold Target.ofFields at h
  split at h
  all_goals rename_i ho
  all_goals try (have ho := eq_ofNat_of_toNat ho; subst ho)
  all_goals try (rw [need_eq_some] at h; obtain ⟨hc, rfl⟩ := h)
  all_goals try simp only [Bool.and_eq_true, beq_iff_eq] at hc
  all_goals first
    | (simp at h; done)
    | (simp_all [Target.fields]; done)
    | skip
  · simp only [BitVec.ofNat_eq_ofNat] at hc
    simp only [Target.fields, TargetFields.mk.injEq, true_and]
    refine ⟨rfl, ?_⟩
    rw [← hc, slice_append_slice w 4 24 4, slice_append_slice w 0 28 4]
    exact slice_all w
  · simp only [BitVec.ofNat_eq_ofNat] at hc
    simp only [Target.fields, TargetFields.mk.injEq, true_and]
    refine ⟨rfl, ?_⟩
    rw [ofBool_flagAt, ← hc, slice_append_slice w 0 31 1]
    exact slice_all w

end Sys2Proof.Laws
end

