-- ==== Sys2Proof/Laws/State.lean ====
section
/-! SUPPORT. One lemma per field per update of the state: what each named update leaves in each field. -/

namespace Sys2Proof.Laws

open Sys2Proof.Machine

variable (s : State)

section Emit

variable (e : DiagEvent)

@[simp] theorem emit_phase : (s.emit e).phase = s.phase := rfl
@[simp] theorem emit_regions : (s.emit e).regions = s.regions := rfl
@[simp] theorem emit_banks : (s.emit e).banks = s.banks := rfl
@[simp] theorem emit_latches : (s.emit e).latches = s.latches := rfl
@[simp] theorem emit_cpus : (s.emit e).cpus = s.cpus := rfl
@[simp] theorem emit_pcfg : (s.emit e).pcfg = s.pcfg := rfl
@[simp] theorem emit_p0 : (s.emit e).p0 = s.p0 := rfl
@[simp] theorem emit_p1 : (s.emit e).p1 = s.p1 := rfl
@[simp] theorem emit_p2 : (s.emit e).p2 = s.p2 := rfl
@[simp] theorem emit_p3 : (s.emit e).p3 = s.p3 := rfl
@[simp] theorem emit_scanLines : (s.emit e).scanLines = s.scanLines := rfl
@[simp] theorem emit_scanV : (s.emit e).scanV = s.scanV := rfl
@[simp] theorem emit_scanF : (s.emit e).scanF = s.scanF := rfl
@[simp] theorem emit_scanEntries : (s.emit e).scanEntries = s.scanEntries := rfl
@[simp] theorem emit_perTimers : (s.emit e).perTimers = s.perTimers := rfl
@[simp] theorem emit_snaps : (s.emit e).snaps = s.snaps := rfl
@[simp] theorem emit_error : (s.emit e).error = s.error := rfl
@[simp] theorem emit_slot : (s.emit e).slot = s.slot := rfl
@[simp] theorem emit_restarts : (s.emit e).restarts = s.restarts := rfl
@[simp] theorem emit_queue : (s.emit e).queue = s.queue := rfl
@[simp] theorem emit_extIn : (s.emit e).extIn = s.extIn := rfl
@[simp] theorem emit_draws : (s.emit e).draws = s.draws := rfl
@[simp] theorem emit_out : (s.emit e).out = { s.out with log := s.out.log ++ [e] } := rfl

end Emit

section EmitIf

variable (b : Bool)

@[simp] theorem emitIf_phase : (s.emitIf b).phase = s.phase := by cases b <;> rfl
@[simp] theorem emitIf_regions : (s.emitIf b).regions = s.regions := by cases b <;> rfl
@[simp] theorem emitIf_banks : (s.emitIf b).banks = s.banks := by cases b <;> rfl
@[simp] theorem emitIf_latches : (s.emitIf b).latches = s.latches := by cases b <;> rfl
@[simp] theorem emitIf_cpus : (s.emitIf b).cpus = s.cpus := by cases b <;> rfl
@[simp] theorem emitIf_pcfg : (s.emitIf b).pcfg = s.pcfg := by cases b <;> rfl
@[simp] theorem emitIf_p0 : (s.emitIf b).p0 = s.p0 := by cases b <;> rfl
@[simp] theorem emitIf_p1 : (s.emitIf b).p1 = s.p1 := by cases b <;> rfl
@[simp] theorem emitIf_p2 : (s.emitIf b).p2 = s.p2 := by cases b <;> rfl
@[simp] theorem emitIf_p3 : (s.emitIf b).p3 = s.p3 := by cases b <;> rfl
@[simp] theorem emitIf_scanLines : (s.emitIf b).scanLines = s.scanLines := by cases b <;> rfl
@[simp] theorem emitIf_scanV : (s.emitIf b).scanV = s.scanV := by cases b <;> rfl
@[simp] theorem emitIf_scanF : (s.emitIf b).scanF = s.scanF := by cases b <;> rfl
@[simp] theorem emitIf_scanEntries : (s.emitIf b).scanEntries = s.scanEntries := by cases b <;> rfl
@[simp] theorem emitIf_perTimers : (s.emitIf b).perTimers = s.perTimers := by cases b <;> rfl
@[simp] theorem emitIf_snaps : (s.emitIf b).snaps = s.snaps := by cases b <;> rfl
@[simp] theorem emitIf_error : (s.emitIf b).error = s.error := by cases b <;> rfl
@[simp] theorem emitIf_slot : (s.emitIf b).slot = s.slot := by cases b <;> rfl
@[simp] theorem emitIf_restarts : (s.emitIf b).restarts = s.restarts := by cases b <;> rfl
@[simp] theorem emitIf_queue : (s.emitIf b).queue = s.queue := by cases b <;> rfl
@[simp] theorem emitIf_extIn : (s.emitIf b).extIn = s.extIn := by cases b <;> rfl
@[simp] theorem emitIf_draws : (s.emitIf b).draws = s.draws := by cases b <;> rfl

end EmitIf

section SetLine

variable (c n : Nat) (r : LineRec)

@[simp] theorem setLine_phase : (s.setLine c n r).phase = s.phase := rfl
@[simp] theorem setLine_regions : (s.setLine c n r).regions = s.regions := rfl
@[simp] theorem setLine_banks : (s.setLine c n r).banks = s.banks := rfl
@[simp] theorem setLine_latches : (s.setLine c n r).latches = s.latches := rfl
@[simp] theorem setLine_cpus :
    (s.setLine c n r).cpus = s.cpus.modify c fun cpu => { cpu with lines := setLineRec cpu.lines n r } := rfl
@[simp] theorem setLine_pcfg : (s.setLine c n r).pcfg = s.pcfg := rfl
@[simp] theorem setLine_p0 : (s.setLine c n r).p0 = s.p0 := rfl
@[simp] theorem setLine_p1 : (s.setLine c n r).p1 = s.p1 := rfl
@[simp] theorem setLine_p2 : (s.setLine c n r).p2 = s.p2 := rfl
@[simp] theorem setLine_p3 : (s.setLine c n r).p3 = s.p3 := rfl
@[simp] theorem setLine_scanLines : (s.setLine c n r).scanLines = s.scanLines := rfl
@[simp] theorem setLine_scanV : (s.setLine c n r).scanV = s.scanV := rfl
@[simp] theorem setLine_scanF : (s.setLine c n r).scanF = s.scanF := rfl
@[simp] theorem setLine_scanEntries : (s.setLine c n r).scanEntries = s.scanEntries := rfl
@[simp] theorem setLine_perTimers : (s.setLine c n r).perTimers = s.perTimers := rfl
@[simp] theorem setLine_snaps : (s.setLine c n r).snaps = s.snaps := rfl
@[simp] theorem setLine_error : (s.setLine c n r).error = s.error := rfl
@[simp] theorem setLine_slot : (s.setLine c n r).slot = s.slot := rfl
@[simp] theorem setLine_restarts : (s.setLine c n r).restarts = s.restarts := rfl
@[simp] theorem setLine_queue : (s.setLine c n r).queue = s.queue := rfl
@[simp] theorem setLine_extIn : (s.setLine c n r).extIn = s.extIn := rfl
@[simp] theorem setLine_draws : (s.setLine c n r).draws = s.draws := rfl
@[simp] theorem setLine_out : (s.setLine c n r).out = s.out := rfl

end SetLine

section LineSet

variable (c n : Nat) (m : LineMode) (v : Option Byte)

@[simp] theorem lineSet_phase : (lineSet c n m v s).phase = s.phase := rfl
@[simp] theorem lineSet_regions : (lineSet c n m v s).regions = s.regions := rfl
@[simp] theorem lineSet_banks : (lineSet c n m v s).banks = s.banks := rfl
@[simp] theorem lineSet_latches : (lineSet c n m v s).latches = s.latches := rfl
@[simp] theorem lineSet_cpus :
    (lineSet c n m v s).cpus = s.cpus.modify c fun cpu => { cpu with lines := setLineRec cpu.lines n (lineRecOf m v) } := rfl
@[simp] theorem lineSet_pcfg : (lineSet c n m v s).pcfg = s.pcfg := rfl
@[simp] theorem lineSet_p0 : (lineSet c n m v s).p0 = s.p0 := rfl
@[simp] theorem lineSet_p1 : (lineSet c n m v s).p1 = s.p1 := rfl
@[simp] theorem lineSet_p2 : (lineSet c n m v s).p2 = s.p2 := rfl
@[simp] theorem lineSet_p3 : (lineSet c n m v s).p3 = s.p3 := rfl
@[simp] theorem lineSet_scanLines : (lineSet c n m v s).scanLines = s.scanLines := rfl
@[simp] theorem lineSet_scanV : (lineSet c n m v s).scanV = s.scanV := rfl
@[simp] theorem lineSet_scanF : (lineSet c n m v s).scanF = s.scanF := rfl
@[simp] theorem lineSet_scanEntries : (lineSet c n m v s).scanEntries = s.scanEntries := rfl
@[simp] theorem lineSet_perTimers : (lineSet c n m v s).perTimers = s.perTimers := rfl
@[simp] theorem lineSet_snaps : (lineSet c n m v s).snaps = s.snaps := rfl
@[simp] theorem lineSet_error : (lineSet c n m v s).error = s.error := rfl
@[simp] theorem lineSet_slot : (lineSet c n m v s).slot = s.slot := rfl
@[simp] theorem lineSet_restarts : (lineSet c n m v s).restarts = s.restarts := rfl
@[simp] theorem lineSet_queue : (lineSet c n m v s).queue = s.queue := rfl
@[simp] theorem lineSet_extIn : (lineSet c n m v s).extIn = s.extIn := rfl
@[simp] theorem lineSet_draws : (lineSet c n m v s).draws = s.draws := rfl
@[simp] theorem lineSet_out : (lineSet c n m v s).out = s.out := rfl

end LineSet

section SetLatch

variable (l : Nat) (k : Latch)

@[simp] theorem setLatch_phase : (s.setLatch l k).phase = s.phase := rfl
@[simp] theorem setLatch_regions : (s.setLatch l k).regions = s.regions := rfl
@[simp] theorem setLatch_banks : (s.setLatch l k).banks = s.banks := rfl
@[simp] theorem setLatch_latches : (s.setLatch l k).latches = Table.set s.latches l k := rfl
@[simp] theorem setLatch_cpus : (s.setLatch l k).cpus = s.cpus := rfl
@[simp] theorem setLatch_pcfg : (s.setLatch l k).pcfg = s.pcfg := rfl
@[simp] theorem setLatch_p0 : (s.setLatch l k).p0 = s.p0 := rfl
@[simp] theorem setLatch_p1 : (s.setLatch l k).p1 = s.p1 := rfl
@[simp] theorem setLatch_p2 : (s.setLatch l k).p2 = s.p2 := rfl
@[simp] theorem setLatch_p3 : (s.setLatch l k).p3 = s.p3 := rfl
@[simp] theorem setLatch_scanLines : (s.setLatch l k).scanLines = s.scanLines := rfl
@[simp] theorem setLatch_scanV : (s.setLatch l k).scanV = s.scanV := rfl
@[simp] theorem setLatch_scanF : (s.setLatch l k).scanF = s.scanF := rfl
@[simp] theorem setLatch_scanEntries : (s.setLatch l k).scanEntries = s.scanEntries := rfl
@[simp] theorem setLatch_perTimers : (s.setLatch l k).perTimers = s.perTimers := rfl
@[simp] theorem setLatch_snaps : (s.setLatch l k).snaps = s.snaps := rfl
@[simp] theorem setLatch_error : (s.setLatch l k).error = s.error := rfl
@[simp] theorem setLatch_slot : (s.setLatch l k).slot = s.slot := rfl
@[simp] theorem setLatch_restarts : (s.setLatch l k).restarts = s.restarts := rfl
@[simp] theorem setLatch_queue : (s.setLatch l k).queue = s.queue := rfl
@[simp] theorem setLatch_extIn : (s.setLatch l k).extIn = s.extIn := rfl
@[simp] theorem setLatch_draws : (s.setLatch l k).draws = s.draws := rfl
@[simp] theorem setLatch_out : (s.setLatch l k).out = s.out := rfl

end SetLatch

section WithResult

variable (r : Result)

@[simp] theorem withResult_phase : (s.withResult r).phase = s.phase := rfl
@[simp] theorem withResult_regions : (s.withResult r).regions = s.regions := rfl
@[simp] theorem withResult_banks : (s.withResult r).banks = s.banks := rfl
@[simp] theorem withResult_latches : (s.withResult r).latches = s.latches := rfl
@[simp] theorem withResult_cpus : (s.withResult r).cpus = s.cpus := rfl
@[simp] theorem withResult_pcfg : (s.withResult r).pcfg = s.pcfg := rfl
@[simp] theorem withResult_p0 : (s.withResult r).p0 = s.p0 := rfl
@[simp] theorem withResult_p1 : (s.withResult r).p1 = s.p1 := rfl
@[simp] theorem withResult_p2 : (s.withResult r).p2 = s.p2 := rfl
@[simp] theorem withResult_p3 : (s.withResult r).p3 = s.p3 := rfl
@[simp] theorem withResult_scanLines : (s.withResult r).scanLines = s.scanLines := rfl
@[simp] theorem withResult_scanV : (s.withResult r).scanV = s.scanV := rfl
@[simp] theorem withResult_scanF : (s.withResult r).scanF = s.scanF := rfl
@[simp] theorem withResult_scanEntries : (s.withResult r).scanEntries = s.scanEntries := rfl
@[simp] theorem withResult_perTimers : (s.withResult r).perTimers = s.perTimers := rfl
@[simp] theorem withResult_snaps : (s.withResult r).snaps = s.snaps := rfl
@[simp] theorem withResult_error : (s.withResult r).error = s.error := rfl
@[simp] theorem withResult_slot : (s.withResult r).slot = s.slot := rfl
@[simp] theorem withResult_restarts : (s.withResult r).restarts = s.restarts := rfl
@[simp] theorem withResult_queue : (s.withResult r).queue = s.queue := rfl
@[simp] theorem withResult_extIn : (s.withResult r).extIn = s.extIn := rfl
@[simp] theorem withResult_draws : (s.withResult r).draws = s.draws := rfl
@[simp] theorem withResult_out : (s.withResult r).out = { s.out with result := r } := rfl

end WithResult

section ModifySpace

variable (c : Nat) (sp : Space) (f : BusSpace → BusSpace)

@[simp] theorem modifySpace_phase : (s.modifySpace c sp f).phase = s.phase := rfl
@[simp] theorem modifySpace_regions : (s.modifySpace c sp f).regions = s.regions := rfl
@[simp] theorem modifySpace_banks : (s.modifySpace c sp f).banks = s.banks := rfl
@[simp] theorem modifySpace_latches : (s.modifySpace c sp f).latches = s.latches := rfl
@[simp] theorem modifySpace_cpus :
    (s.modifySpace c sp f).cpus = s.cpus.modify c fun cpu => cpu.setSpace sp (f (cpu.space sp)) := rfl
@[simp] theorem modifySpace_pcfg : (s.modifySpace c sp f).pcfg = s.pcfg := rfl
@[simp] theorem modifySpace_p0 : (s.modifySpace c sp f).p0 = s.p0 := rfl
@[simp] theorem modifySpace_p1 : (s.modifySpace c sp f).p1 = s.p1 := rfl
@[simp] theorem modifySpace_p2 : (s.modifySpace c sp f).p2 = s.p2 := rfl
@[simp] theorem modifySpace_p3 : (s.modifySpace c sp f).p3 = s.p3 := rfl
@[simp] theorem modifySpace_scanLines : (s.modifySpace c sp f).scanLines = s.scanLines := rfl
@[simp] theorem modifySpace_scanV : (s.modifySpace c sp f).scanV = s.scanV := rfl
@[simp] theorem modifySpace_scanF : (s.modifySpace c sp f).scanF = s.scanF := rfl
@[simp] theorem modifySpace_scanEntries : (s.modifySpace c sp f).scanEntries = s.scanEntries := rfl
@[simp] theorem modifySpace_perTimers : (s.modifySpace c sp f).perTimers = s.perTimers := rfl
@[simp] theorem modifySpace_snaps : (s.modifySpace c sp f).snaps = s.snaps := rfl
@[simp] theorem modifySpace_error : (s.modifySpace c sp f).error = s.error := rfl
@[simp] theorem modifySpace_slot : (s.modifySpace c sp f).slot = s.slot := rfl
@[simp] theorem modifySpace_restarts : (s.modifySpace c sp f).restarts = s.restarts := rfl
@[simp] theorem modifySpace_queue : (s.modifySpace c sp f).queue = s.queue := rfl
@[simp] theorem modifySpace_extIn : (s.modifySpace c sp f).extIn = s.extIn := rfl
@[simp] theorem modifySpace_draws : (s.modifySpace c sp f).draws = s.draws := rfl
@[simp] theorem modifySpace_out : (s.modifySpace c sp f).out = s.out := rfl

end ModifySpace

section SetLdv

variable (c : Nat) (sp : Space) (v : Byte)

@[simp] theorem setLdv_phase : (s.setLdv c sp v).phase = s.phase := rfl
@[simp] theorem setLdv_regions : (s.setLdv c sp v).regions = s.regions := rfl
@[simp] theorem setLdv_banks : (s.setLdv c sp v).banks = s.banks := rfl
@[simp] theorem setLdv_latches : (s.setLdv c sp v).latches = s.latches := rfl
@[simp] theorem setLdv_cpus :
    (s.setLdv c sp v).cpus = s.cpus.modify c fun cpu => cpu.setSpace sp { cpu.space sp with ldv := v } := rfl
@[simp] theorem setLdv_pcfg : (s.setLdv c sp v).pcfg = s.pcfg := rfl
@[simp] theorem setLdv_p0 : (s.setLdv c sp v).p0 = s.p0 := rfl
@[simp] theorem setLdv_p1 : (s.setLdv c sp v).p1 = s.p1 := rfl
@[simp] theorem setLdv_p2 : (s.setLdv c sp v).p2 = s.p2 := rfl
@[simp] theorem setLdv_p3 : (s.setLdv c sp v).p3 = s.p3 := rfl
@[simp] theorem setLdv_scanLines : (s.setLdv c sp v).scanLines = s.scanLines := rfl
@[simp] theorem setLdv_scanV : (s.setLdv c sp v).scanV = s.scanV := rfl
@[simp] theorem setLdv_scanF : (s.setLdv c sp v).scanF = s.scanF := rfl
@[simp] theorem setLdv_scanEntries : (s.setLdv c sp v).scanEntries = s.scanEntries := rfl
@[simp] theorem setLdv_perTimers : (s.setLdv c sp v).perTimers = s.perTimers := rfl
@[simp] theorem setLdv_snaps : (s.setLdv c sp v).snaps = s.snaps := rfl
@[simp] theorem setLdv_error : (s.setLdv c sp v).error = s.error := rfl
@[simp] theorem setLdv_slot : (s.setLdv c sp v).slot = s.slot := rfl
@[simp] theorem setLdv_restarts : (s.setLdv c sp v).restarts = s.restarts := rfl
@[simp] theorem setLdv_queue : (s.setLdv c sp v).queue = s.queue := rfl
@[simp] theorem setLdv_extIn : (s.setLdv c sp v).extIn = s.extIn := rfl
@[simp] theorem setLdv_draws : (s.setLdv c sp v).draws = s.draws := rfl
@[simp] theorem setLdv_out : (s.setLdv c sp v).out = s.out := rfl

end SetLdv

section SinkWrite

variable (k off : Nat) (v : Byte)

@[simp] theorem sinkWrite_phase : (s.sinkWrite k off v).phase = s.phase := rfl
@[simp] theorem sinkWrite_regions : (s.sinkWrite k off v).regions = s.regions := rfl
@[simp] theorem sinkWrite_banks : (s.sinkWrite k off v).banks = s.banks := rfl
@[simp] theorem sinkWrite_latches : (s.sinkWrite k off v).latches = s.latches := rfl
@[simp] theorem sinkWrite_cpus : (s.sinkWrite k off v).cpus = s.cpus := rfl
@[simp] theorem sinkWrite_pcfg : (s.sinkWrite k off v).pcfg = s.pcfg := rfl
@[simp] theorem sinkWrite_p0 : (s.sinkWrite k off v).p0 = s.p0 := rfl
@[simp] theorem sinkWrite_p1 : (s.sinkWrite k off v).p1 = s.p1 := rfl
@[simp] theorem sinkWrite_p2 : (s.sinkWrite k off v).p2 = s.p2 := rfl
@[simp] theorem sinkWrite_p3 : (s.sinkWrite k off v).p3 = s.p3 := rfl
@[simp] theorem sinkWrite_scanLines : (s.sinkWrite k off v).scanLines = s.scanLines := rfl
@[simp] theorem sinkWrite_scanV : (s.sinkWrite k off v).scanV = s.scanV := rfl
@[simp] theorem sinkWrite_scanF : (s.sinkWrite k off v).scanF = s.scanF := rfl
@[simp] theorem sinkWrite_scanEntries : (s.sinkWrite k off v).scanEntries = s.scanEntries := rfl
@[simp] theorem sinkWrite_perTimers : (s.sinkWrite k off v).perTimers = s.perTimers := rfl
@[simp] theorem sinkWrite_snaps : (s.sinkWrite k off v).snaps = s.snaps := rfl
@[simp] theorem sinkWrite_error : (s.sinkWrite k off v).error = s.error := rfl
@[simp] theorem sinkWrite_slot : (s.sinkWrite k off v).slot = s.slot := rfl
@[simp] theorem sinkWrite_restarts : (s.sinkWrite k off v).restarts = s.restarts := rfl
@[simp] theorem sinkWrite_queue : (s.sinkWrite k off v).queue = s.queue := rfl
@[simp] theorem sinkWrite_extIn : (s.sinkWrite k off v).extIn = s.extIn := rfl
@[simp] theorem sinkWrite_draws : (s.sinkWrite k off v).draws = s.draws := rfl
@[simp] theorem sinkWrite_out : (s.sinkWrite k off v).out = { s.out with sink := some ⟨k, off, v⟩ } := rfl

end SinkWrite

section ClearRunState

@[simp] theorem clearRunState_phase : (s.clearRunState).phase = s.phase := rfl
@[simp] theorem clearRunState_regions : (s.clearRunState).regions = s.regions := rfl
@[simp] theorem clearRunState_banks : (s.clearRunState).banks = s.banks := rfl
@[simp] theorem clearRunState_latches :
    (s.clearRunState).latches = Table.mapVals (fun _ k => { k with pending := false }) s.latches := rfl
@[simp] theorem clearRunState_cpus : (s.clearRunState).cpus = s.cpus.map fun cpu => { cpu with lines := [] } := rfl
@[simp] theorem clearRunState_pcfg : (s.clearRunState).pcfg = s.pcfg := rfl
@[simp] theorem clearRunState_p0 : (s.clearRunState).p0 = 0 := rfl
@[simp] theorem clearRunState_p1 : (s.clearRunState).p1 = 0 := rfl
@[simp] theorem clearRunState_p2 : (s.clearRunState).p2 = 0 := rfl
@[simp] theorem clearRunState_p3 : (s.clearRunState).p3 = 0 := rfl
@[simp] theorem clearRunState_scanLines : (s.clearRunState).scanLines = s.scanLines := rfl
@[simp] theorem clearRunState_scanV : (s.clearRunState).scanV = 0 := rfl
@[simp] theorem clearRunState_scanF : (s.clearRunState).scanF = 0 := rfl
@[simp] theorem clearRunState_scanEntries : (s.clearRunState).scanEntries = s.scanEntries := rfl
@[simp] theorem clearRunState_perTimers :
    (s.clearRunState).perTimers = s.perTimers.map fun e => { e with ticks := 0 } := rfl
@[simp] theorem clearRunState_snaps : (s.clearRunState).snaps = s.snaps := rfl
@[simp] theorem clearRunState_error : (s.clearRunState).error = s.error := rfl
@[simp] theorem clearRunState_slot : (s.clearRunState).slot = s.slot := rfl
@[simp] theorem clearRunState_restarts : (s.clearRunState).restarts = s.restarts := rfl
@[simp] theorem clearRunState_queue : (s.clearRunState).queue = s.queue := rfl
@[simp] theorem clearRunState_extIn : (s.clearRunState).extIn = s.extIn := rfl
@[simp] theorem clearRunState_draws : (s.clearRunState).draws = s.draws := rfl
@[simp] theorem clearRunState_out : (s.clearRunState).out = { s.out with cpusReset := true } := rfl

end ClearRunState

section Redraw

@[simp] theorem redraw_phase : (s.redraw).phase = s.phase := rfl
@[simp] theorem redraw_regions : (s.redraw).regions = s.regions := rfl
@[simp] theorem redraw_banks : (s.redraw).banks = s.banks := rfl
@[simp] theorem redraw_latches :
    (s.redraw).latches = Table.mapVals (fun l k => { k with value := Config.freeByte (.latchValue l) s.draws }) s.latches := rfl
@[simp] theorem redraw_cpus :
    (s.redraw).cpus = s.cpus.mapIdx fun c cpu =>
      { cpu with
        mem := { cpu.mem with ldv := Config.freeByte (.ldv c false) s.draws }
        io := { cpu.io with ldv := Config.freeByte (.ldv c true) s.draws } } := rfl
@[simp] theorem redraw_pcfg : (s.redraw).pcfg = s.pcfg := rfl
@[simp] theorem redraw_p0 : (s.redraw).p0 = s.p0 := rfl
@[simp] theorem redraw_p1 : (s.redraw).p1 = s.p1 := rfl
@[simp] theorem redraw_p2 : (s.redraw).p2 = s.p2 := rfl
@[simp] theorem redraw_p3 : (s.redraw).p3 = s.p3 := rfl
@[simp] theorem redraw_scanLines : (s.redraw).scanLines = s.scanLines := rfl
@[simp] theorem redraw_scanV : (s.redraw).scanV = s.scanV := rfl
@[simp] theorem redraw_scanF : (s.redraw).scanF = s.scanF := rfl
@[simp] theorem redraw_scanEntries : (s.redraw).scanEntries = s.scanEntries := rfl
@[simp] theorem redraw_perTimers : (s.redraw).perTimers = s.perTimers := rfl
@[simp] theorem redraw_snaps : (s.redraw).snaps = s.snaps := rfl
@[simp] theorem redraw_error : (s.redraw).error = s.error := rfl
@[simp] theorem redraw_slot : (s.redraw).slot = s.slot := rfl
@[simp] theorem redraw_restarts : (s.redraw).restarts = s.restarts := rfl
@[simp] theorem redraw_queue : (s.redraw).queue = s.queue := rfl
@[simp] theorem redraw_extIn : (s.redraw).extIn = s.extIn := rfl
@[simp] theorem redraw_draws : (s.redraw).draws = s.draws + 1 := rfl
@[simp] theorem redraw_out : (s.redraw).out = s.out := rfl

end Redraw

section RestartAll

@[simp] theorem restartAll_phase : (s.restartAll).phase = s.phase := rfl
@[simp] theorem restartAll_regions : (s.restartAll).regions = s.regions := rfl
@[simp] theorem restartAll_banks : (s.restartAll).banks = s.banks := rfl
@[simp] theorem restartAll_latches : (s.restartAll).latches = s.latches := rfl
@[simp] theorem restartAll_cpus : (s.restartAll).cpus = s.cpus := rfl
@[simp] theorem restartAll_pcfg : (s.restartAll).pcfg = s.pcfg := rfl
@[simp] theorem restartAll_p0 : (s.restartAll).p0 = s.p0 := rfl
@[simp] theorem restartAll_p1 : (s.restartAll).p1 = s.p1 := rfl
@[simp] theorem restartAll_p2 : (s.restartAll).p2 = s.p2 := rfl
@[simp] theorem restartAll_p3 : (s.restartAll).p3 = s.p3 := rfl
@[simp] theorem restartAll_scanLines : (s.restartAll).scanLines = s.scanLines := rfl
@[simp] theorem restartAll_scanV : (s.restartAll).scanV = s.scanV := rfl
@[simp] theorem restartAll_scanF : (s.restartAll).scanF = s.scanF := rfl
@[simp] theorem restartAll_scanEntries : (s.restartAll).scanEntries = s.scanEntries := rfl
@[simp] theorem restartAll_perTimers : (s.restartAll).perTimers = s.perTimers := rfl
@[simp] theorem restartAll_snaps : (s.restartAll).snaps = s.snaps := rfl
@[simp] theorem restartAll_error : (s.restartAll).error = s.error := rfl
@[simp] theorem restartAll_slot : (s.restartAll).slot = s.slot := rfl
@[simp] theorem restartAll_restarts : (s.restartAll).restarts = List.range s.ncpu := rfl
@[simp] theorem restartAll_queue : (s.restartAll).queue = s.queue := rfl
@[simp] theorem restartAll_extIn : (s.restartAll).extIn = s.extIn := rfl
@[simp] theorem restartAll_draws : (s.restartAll).draws = s.draws := rfl
@[simp] theorem restartAll_out : (s.restartAll).out = s.out := rfl

end RestartAll

section Issue

variable (ws : List OpWord)

@[simp] theorem issue_phase : (s.issue ws).phase = s.phase := rfl
@[simp] theorem issue_regions : (s.issue ws).regions = s.regions := rfl
@[simp] theorem issue_banks : (s.issue ws).banks = s.banks := rfl
@[simp] theorem issue_latches : (s.issue ws).latches = s.latches := rfl
@[simp] theorem issue_cpus : (s.issue ws).cpus = s.cpus := rfl
@[simp] theorem issue_pcfg : (s.issue ws).pcfg = s.pcfg := rfl
@[simp] theorem issue_p0 : (s.issue ws).p0 = s.p0 := rfl
@[simp] theorem issue_p1 : (s.issue ws).p1 = s.p1 := rfl
@[simp] theorem issue_p2 : (s.issue ws).p2 = s.p2 := rfl
@[simp] theorem issue_p3 : (s.issue ws).p3 = s.p3 := rfl
@[simp] theorem issue_scanLines : (s.issue ws).scanLines = s.scanLines := rfl
@[simp] theorem issue_scanV : (s.issue ws).scanV = s.scanV := rfl
@[simp] theorem issue_scanF : (s.issue ws).scanF = s.scanF := rfl
@[simp] theorem issue_scanEntries : (s.issue ws).scanEntries = s.scanEntries := rfl
@[simp] theorem issue_perTimers : (s.issue ws).perTimers = s.perTimers := rfl
@[simp] theorem issue_snaps : (s.issue ws).snaps = s.snaps := rfl
@[simp] theorem issue_error : (s.issue ws).error = s.error := rfl
@[simp] theorem issue_slot : (s.issue ws).slot = none := rfl
@[simp] theorem issue_restarts : (s.issue ws).restarts = s.restarts := rfl
@[simp] theorem issue_queue : (s.issue ws).queue = ⟨false, ws⟩ :: s.queue := rfl
@[simp] theorem issue_extIn : (s.issue ws).extIn = s.extIn := rfl
@[simp] theorem issue_draws : (s.issue ws).draws = s.draws := rfl
@[simp] theorem issue_out : (s.issue ws).out = s.out := rfl

end Issue

section TakeOp

variable (i : Instr) (turn : Turn) (ws : List OpWord) (later : List Turn)

@[simp] theorem takeOp_phase : (s.takeOp i turn ws later).phase = s.phase := rfl
@[simp] theorem takeOp_regions : (s.takeOp i turn ws later).regions = s.regions := rfl
@[simp] theorem takeOp_banks : (s.takeOp i turn ws later).banks = s.banks := rfl
@[simp] theorem takeOp_latches : (s.takeOp i turn ws later).latches = s.latches := rfl
@[simp] theorem takeOp_cpus : (s.takeOp i turn ws later).cpus = s.cpus := rfl
@[simp] theorem takeOp_pcfg : (s.takeOp i turn ws later).pcfg = s.pcfg := rfl
@[simp] theorem takeOp_p0 : (s.takeOp i turn ws later).p0 = s.p0 := rfl
@[simp] theorem takeOp_p1 : (s.takeOp i turn ws later).p1 = s.p1 := rfl
@[simp] theorem takeOp_p2 : (s.takeOp i turn ws later).p2 = s.p2 := rfl
@[simp] theorem takeOp_p3 : (s.takeOp i turn ws later).p3 = s.p3 := rfl
@[simp] theorem takeOp_scanLines : (s.takeOp i turn ws later).scanLines = s.scanLines := rfl
@[simp] theorem takeOp_scanV : (s.takeOp i turn ws later).scanV = s.scanV := rfl
@[simp] theorem takeOp_scanF : (s.takeOp i turn ws later).scanF = s.scanF := rfl
@[simp] theorem takeOp_scanEntries : (s.takeOp i turn ws later).scanEntries = s.scanEntries := rfl
@[simp] theorem takeOp_perTimers : (s.takeOp i turn ws later).perTimers = s.perTimers := rfl
@[simp] theorem takeOp_snaps : (s.takeOp i turn ws later).snaps = s.snaps := rfl
@[simp] theorem takeOp_error : (s.takeOp i turn ws later).error = s.error := rfl
@[simp] theorem takeOp_slot : (s.takeOp i turn ws later).slot = slotAfter (issuer i s) (s.wordsLeft i ws) := rfl
@[simp] theorem takeOp_restarts : (s.takeOp i turn ws later).restarts = (List.range s.ncpu).filter (s.resetBy i) := rfl
@[simp] theorem takeOp_queue : (s.takeOp i turn ws later).queue = afterOp turn (s.wordsLeft i ws) later := rfl
@[simp] theorem takeOp_extIn : (s.takeOp i turn ws later).extIn = s.extIn := rfl
@[simp] theorem takeOp_draws : (s.takeOp i turn ws later).draws = s.draws := rfl
@[simp] theorem takeOp_out : (s.takeOp i turn ws later).out = s.out := rfl

end TakeOp

section Restore

variable (n : Snapshot)

@[simp] theorem restore_phase : (s.restore n).phase = s.phase := rfl
@[simp] theorem restore_regions :
    (s.restore n).regions = Table.mapVals (fun r g =>
      match Table.get n.regions r with
      | some saved => if g.mutbl then { g with bytes := saved.bytes } else g
      | none => g) s.regions := rfl
@[simp] theorem restore_banks :
    (s.restore n).banks = Table.mapVals (fun b k => { k with active := (Table.get n.active b).getD k.active }) s.banks := rfl
@[simp] theorem restore_latches :
    (s.restore n).latches = Table.mapVals (fun l k =>
      { k with
        value := (Table.get n.latchValue l).getD k.value
        pending := (Table.get n.latchPending l).getD k.pending }) s.latches := rfl
@[simp] theorem restore_cpus :
    (s.restore n).cpus = List.zipWith (fun cpu saved =>
      { mem := { cpu.mem with ldv := saved.ldvMem }
        io := { cpu.io with ldv := saved.ldvIo }
        lines := saved.lines }) s.cpus n.cpus := rfl
@[simp] theorem restore_pcfg : (s.restore n).pcfg = s.pcfg := rfl
@[simp] theorem restore_p0 : (s.restore n).p0 = n.p0 := rfl
@[simp] theorem restore_p1 : (s.restore n).p1 = n.p1 := rfl
@[simp] theorem restore_p2 : (s.restore n).p2 = n.p2 := rfl
@[simp] theorem restore_p3 : (s.restore n).p3 = n.p3 := rfl
@[simp] theorem restore_scanLines : (s.restore n).scanLines = s.scanLines := rfl
@[simp] theorem restore_scanV : (s.restore n).scanV = n.scanV := rfl
@[simp] theorem restore_scanF : (s.restore n).scanF = n.scanF := rfl
@[simp] theorem restore_scanEntries : (s.restore n).scanEntries = s.scanEntries := rfl
@[simp] theorem restore_perTimers :
    (s.restore n).perTimers = List.zipWith (fun e k => { e with ticks := k }) s.perTimers n.ticks := rfl
@[simp] theorem restore_snaps : (s.restore n).snaps = s.snaps := rfl
@[simp] theorem restore_error : (s.restore n).error = s.error := rfl
@[simp] theorem restore_slot : (s.restore n).slot = s.slot := rfl
@[simp] theorem restore_restarts : (s.restore n).restarts = n.restarts := rfl
@[simp] theorem restore_queue : (s.restore n).queue = s.queue := rfl
@[simp] theorem restore_extIn : (s.restore n).extIn = s.extIn := rfl
@[simp] theorem restore_draws : (s.restore n).draws = s.draws := rfl
@[simp] theorem restore_out : (s.restore n).out = s.out := rfl

end Restore

section Snapshot

@[simp] theorem snapshot_active : s.snapshot.active = Table.mapVals (fun _ k => k.active) s.banks := rfl
@[simp] theorem snapshot_latchValue : s.snapshot.latchValue = Table.mapVals (fun _ k => k.value) s.latches := rfl
@[simp] theorem snapshot_latchPending : s.snapshot.latchPending = Table.mapVals (fun _ k => k.pending) s.latches := rfl
@[simp] theorem snapshot_p0 : s.snapshot.p0 = s.p0 := rfl
@[simp] theorem snapshot_p1 : s.snapshot.p1 = s.p1 := rfl
@[simp] theorem snapshot_p2 : s.snapshot.p2 = s.p2 := rfl
@[simp] theorem snapshot_p3 : s.snapshot.p3 = s.p3 := rfl
@[simp] theorem snapshot_regions :
    s.snapshot.regions = Table.mapVals (fun _ g => ⟨g.size, g.bytes⟩) (s.regions.filter fun e => e.2.mutbl) := rfl
@[simp] theorem snapshot_cpus :
    s.snapshot.cpus =
      s.cpus.map fun cpu => ⟨cpu.mem.ldv, cpu.io.ldv, cpu.lines.filter fun e => e.2.level != .clear⟩ := rfl
@[simp] theorem snapshot_scanV : s.snapshot.scanV = s.scanV := rfl
@[simp] theorem snapshot_scanF : s.snapshot.scanF = s.scanF := rfl
@[simp] theorem snapshot_ticks : s.snapshot.ticks = s.perTimers.map fun e => e.ticks := rfl
@[simp] theorem snapshot_restarts : s.snapshot.restarts = s.restarts := rfl

end Snapshot

end Sys2Proof.Laws
end

