-- ==== Sys2Proof/Laws/Table.lean ====
section
/-! SUPPORT. The laws of tables: reading after setting, erasing and mapping, and the canonical form. -/

namespace Sys2Proof.Laws

open Sys2Proof.Machine

variable {α β : Type}

@[simp] theorem get_nil (n : Nat) : Table.get ([] : Table α) n = none := rfl

theorem get_cons (k : Nat) (a : α) (t : Table α) (n : Nat) :
    Table.get ((k, a) :: t) n = if k = n then some a else Table.get t n := rfl

/-- Reading the unit just set gives what was set. -/
@[simp] theorem get_set_same (t : Table α) (n : Nat) (a : α) : Table.get (Table.set t n a) n = some a := by
  induction t with
  | nil => simp [Table.set, Table.get]
  | cons e t ih =>
    obtain ⟨k, b⟩ := e
    simp only [Table.set]
    split
    · simp [Table.get]
    · split
      · simp [Table.get]
      · rename_i h
        simp [Table.get, ih, Ne.symm h]

/-- Setting a unit leaves every other unit alone. -/
theorem get_set_other (t : Table α) {m n : Nat} (a : α) (h : m ≠ n) :
    Table.get (Table.set t n a) m = Table.get t m := by
  induction t with
  | nil => simp [Table.set, Table.get, Ne.symm h]
  | cons e t ih =>
    obtain ⟨k, b⟩ := e
    simp only [Table.set]
    split
    · simp [Table.get, Ne.symm h]
    · split
      · rename_i h2
        subst h2
        simp [Table.get, Ne.symm h]
      · simp [Table.get, ih]

theorem get_set (t : Table α) (m n : Nat) (a : α) :
    Table.get (Table.set t n a) m = if m = n then some a else Table.get t m := by
  split
  · subst_vars; simp
  · exact get_set_other t a ‹_›

theorem get_mem {t : Table α} {n : Nat} {a : α} (h : Table.get t n = some a) : (n, a) ∈ t := by
  induction t with
  | nil => simp at h
  | cons e t ih =>
    obtain ⟨k, b⟩ := e
    rw [get_cons] at h
    split at h
    · simp_all
    · exact List.mem_cons_of_mem _ (ih h)

@[simp] theorem get_mapVals (f : Nat → α → β) (t : Table α) (n : Nat) :
    Table.get (Table.mapVals f t) n = (Table.get t n).map (f n) := by
  induction t with
  | nil => rfl
  | cons e t ih =>
    obtain ⟨k, b⟩ := e
    simp only [Table.mapVals, List.map_cons, get_cons] at ih ⊢
    split
    · subst_vars; rfl
    · exact ih

/-- Keeping the entries that meet a condition on number and value. -/
theorem get_filter_of_wf (p : Nat × α → Bool) {t : Table α} (hw : Table.wf t = true) (n : Nat) :
    Table.get (t.filter p) n = (Table.get t n).filter fun a => p (n, a) := by
  induction t with
  | nil => rfl
  | cons e t ih =>
    obtain ⟨k, b⟩ := e
    simp only [Table.wf, decide_eq_true_eq, List.pairwise_cons] at hw ih
    have hk : ∀ a, Table.get t k ≠ some a := fun a h => by simpa using hw.1 _ (get_mem h)
    have hn : Table.get t k = none := Option.eq_none_iff_forall_not_mem.2 hk
    by_cases hp : p (k, b) = true
    · rw [List.filter_cons_of_pos hp, get_cons, get_cons, ih hw.2]
      split
      · subst_vars; simp only [Option.filter, hp, if_true]
      · rfl
    · rw [List.filter_cons_of_neg hp, ih hw.2, get_cons]
      split
      · subst_vars; simp only [hn, Option.filter, hp]; rfl
      · rfl

theorem get_erase (t : Table α) (m n : Nat) :
    Table.get (Table.erase t n) m = if m = n then none else Table.get t m := by
  induction t with
  | nil => simp [Table.erase]
  | cons e t ih =>
    obtain ⟨k, b⟩ := e
    simp only [Table.erase] at ih ⊢
    by_cases hk : k = n
    · subst hk
      rw [List.filter_cons_of_neg (by simp), ih, get_cons]
      split
      · rfl
      · rw [if_neg (Ne.symm ‹_›)]
    · rw [List.filter_cons_of_pos (by simpa using hk), get_cons, ih, get_cons]
      split
      · subst_vars; simp [hk]
      · rfl

/-! ## The canonical form -/

theorem wf_nil : Table.wf ([] : Table α) = true := rfl

theorem mem_set {t : Table α} {n : Nat} {a : α} {e : Nat × α} (h : e ∈ Table.set t n a) : e = (n, a) ∨ e ∈ t := by
  induction t with
  | nil => simpa [Table.set] using h
  | cons d t ih =>
    obtain ⟨k, b⟩ := d
    simp only [Table.set] at h
    split at h
    · simpa using h
    · split at h
      · rw [List.mem_cons] at h ⊢
        exact h.imp id Or.inr
      · rw [List.mem_cons] at h ⊢
        rcases h with h | h
        · exact Or.inr (Or.inl h)
        · exact (ih h).imp id Or.inr

/-- An entry of a canonical table is what reading its unit gives. -/
theorem get_of_mem {t : Table α} (hw : Table.wf t = true) {n : Nat} {a : α} (h : (n, a) ∈ t) : Table.get t n = some a := by
  induction t with
  | nil => simp at h
  | cons e t ih =>
    obtain ⟨k, b⟩ := e
    simp only [Table.wf, decide_eq_true_eq, List.pairwise_cons] at hw ih
    rw [get_cons]
    rcases List.mem_cons.1 h with h | h
    · simp only [Prod.mk.injEq] at h
      rw [if_pos h.1.symm, h.2]
    · rw [if_neg fun hk => absurd (hw.1 _ h) (by simp [hk])]
      exact ih hw.2 h

theorem wf_set {t : Table α} (h : Table.wf t = true) (n : Nat) (a : α) : Table.wf (Table.set t n a) = true := by
  induction t with
  | nil => rfl
  | cons e t ih =>
    obtain ⟨k, b⟩ := e
    have hc := h
    simp only [Table.wf, decide_eq_true_eq, List.pairwise_cons] at hc ih ⊢
    simp only [Table.set]
    split
    · refine List.pairwise_cons.2 ⟨fun d hd => ?_, List.pairwise_cons.2 hc⟩
      rcases List.mem_cons.1 hd with rfl | hd
      · assumption
      · exact Nat.lt_trans ‹_› (hc.1 d hd)
    · split
      · subst_vars
        exact List.pairwise_cons.2 hc
      · refine List.pairwise_cons.2 ⟨fun d hd => ?_, ih hc.2⟩
        rcases mem_set hd with rfl | hd
        · exact Nat.lt_of_le_of_ne (Nat.le_of_not_lt ‹_›) (Ne.symm ‹_›)
        · exact hc.1 d hd

theorem wf_filter {t : Table α} (h : Table.wf t = true) (p : Nat × α → Bool) : Table.wf (t.filter p) = true := by
  simp only [Table.wf, decide_eq_true_eq] at h ⊢
  exact h.filter p

theorem wf_erase {t : Table α} (h : Table.wf t = true) (n : Nat) : Table.wf (Table.erase t n) = true := wf_filter h _

theorem wf_mapVals (f : Nat → α → β) {t : Table α} (h : Table.wf t = true) : Table.wf (Table.mapVals f t) = true := by
  simp only [Table.wf, decide_eq_true_eq] at h ⊢
  exact List.pairwise_map.2 h

theorem all_set {p : Nat × α → Bool} {t : Table α} {n : Nat} {a : α} (h : t.all p = true) (ha : p (n, a) = true) :
    (Table.set t n a).all p = true := by
  rw [List.all_eq_true] at h ⊢
  intro e he
  rcases mem_set he with rfl | he
  · exact ha
  · exact h e he

theorem all_filter {p : Nat × α → Bool} {t : Table α} (h : t.all p = true) (q : Nat × α → Bool) :
    (t.filter q).all p = true := by
  rw [List.all_eq_true] at h ⊢
  exact fun e he => h e (List.mem_of_mem_filter he)

theorem all_mapVals (f : Nat → α → β) (p : Nat × β → Bool) (t : Table α) :
    (Table.mapVals f t).all p = t.all fun e => p (e.1, f e.1 e.2) := by
  simp [Table.mapVals, List.all_map, Function.comp_def]

theorem all_get {p : Nat × α → Bool} {t : Table α} {n : Nat} {a : α} (h : t.all p = true)
    (hg : Table.get t n = some a) : p (n, a) = true := (List.all_eq_true.1 h) _ (get_mem hg)

/-- Two canonical tables with the same entries are equal. -/
theorem wf_ext {t u : Table α} (ht : Table.wf t = true) (hu : Table.wf u = true)
    (h : ∀ n, Table.get t n = Table.get u n) : t = u := by
  induction t generalizing u with
  | nil =>
    cases u with
    | nil => rfl
    | cons e u => obtain ⟨k, b⟩ := e; simpa [get_cons] using h k
  | cons d t ih =>
    obtain ⟨k, a⟩ := d
    cases u with
    | nil => simpa [get_cons] using h k
    | cons e u =>
      obtain ⟨j, b⟩ := e
      simp only [Table.wf, decide_eq_true_eq, List.pairwise_cons] at ht hu ih
      have nt : ∀ m, m ≤ k → Table.get t m = none := fun m hm =>
        Option.eq_none_iff_forall_not_mem.2 fun x hx => absurd (ht.1 _ (get_mem hx)) (Nat.not_lt.2 hm)
      have nu : ∀ m, m ≤ j → Table.get u m = none := fun m hm =>
        Option.eq_none_iff_forall_not_mem.2 fun x hx => absurd (hu.1 _ (get_mem hx)) (Nat.not_lt.2 hm)
      have hkj : k = j := by
        rcases Nat.lt_trichotomy k j with hlt | rfl | hlt
        · have := h k
          rw [get_cons, get_cons, if_pos rfl, if_neg (Nat.ne_of_gt hlt), nu k (Nat.le_of_lt hlt)] at this
          simp at this
        · rfl
        · have := h j
          rw [get_cons, get_cons, if_neg (Nat.ne_of_gt hlt), if_pos rfl, nt j (Nat.le_of_lt hlt)] at this
          simp at this
      subst hkj
      have hab : a = b := by simpa [get_cons] using h k
      subst hab
      congr 1
      refine ih ht.2 hu.2 fun n => ?_
      have := h n
      rw [get_cons, get_cons] at this
      by_cases hn : k = n
      · subst hn; rw [nt k (Nat.le_refl k), nu k (Nat.le_refl k)]
      · rwa [if_neg hn, if_neg hn] at this

/-- A unit of a listed entry has an entry. -/
theorem isSome_get_of_mem {α : Type} {t : Table α} {e : Nat × α} (h : e ∈ t) : (Table.get t e.1).isSome = true := by
  induction t with
  | nil => exact absurd h List.not_mem_nil
  | cons d t ih =>
    rw [get_cons]
    split
    next => rfl
    next hd => exact ih ((List.mem_cons.1 h).resolve_left fun he => hd (he ▸ rfl))

/-- Two tables have entries for the same units. -/
theorem sameUnits_iff {α β : Type} {t : Table α} {u : Table β} :
    Table.sameUnits t u = true ↔ ∀ n, (Table.get t n).isSome = (Table.get u n).isSome := by
  have key : ∀ {γ δ : Type} {v : Table γ} {w : Table δ},
      Table.coveredBy v w = true ↔ ∀ n, (Table.get v n).isSome = true → (Table.get w n).isSome = true := by
    intro γ δ v w
    simp only [Table.coveredBy, List.all_eq_true]
    refine ⟨fun h n hn => ?_, fun h e he => h e.1 ?_⟩
    · obtain ⟨a, ha⟩ := Option.isSome_iff_exists.1 hn
      exact h _ (get_mem ha)
    · exact isSome_get_of_mem he
  rw [Table.sameUnits, Bool.and_eq_true, key, key, ← forall_and]
  exact forall_congr' fun n => iff_def.symm.trans Bool.eq_iff_iff.symm

end Sys2Proof.Laws
end

