-- ==== Sys2Proof/Laws/Ops.lean ====
section
/-! SUPPORT. The shared operations: what a read of the state gives after an update, and, once for each operation, all it
can do when it answers. -/

namespace Sys2Proof.Laws

open Sys2Proof.Machine

variable {s t : State} {α β : Type}

/-! ## Outcomes -/

theorem next_eq {a b : α} : (Host.Outcome.next a : Host.Outcome α Fault Refusal) = .next b ↔ b = a :=
  ⟨fun h => by cases h; rfl, fun h => h ▸ rfl⟩

@[simp] theorem andThen_next_left (a : α) (f : α → Host.Outcome β Fault Refusal) : andThen (.next a) f = f a := rfl

theorem andThen_next {o : Host.Outcome α Fault Refusal} {f : α → Host.Outcome β Fault Refusal} {b : β} :
    andThen o f = .next b ↔ ∃ a, o = .next a ∧ f a = .next b := by
  cases o <;> simp [andThen]

theorem andThen_fault {o : Host.Outcome α Fault Refusal} {f : α → Host.Outcome β Fault Refusal} {r : Fault} :
    andThen o f = .fault r ↔ o = .fault r ∨ ∃ a, o = .next a ∧ f a = .fault r := by
  cases o <;> simp [andThen]

theorem whenRun_next {f : State → Res} : whenRun s f = .next t ↔ s.phase = .run ∧ f { s with out := Output.empty } = .next t := by
  unfold whenRun
  split <;> simp_all

theorem whenRun_of_run {f : State → Res} (h : s.phase = .run) : whenRun s f = f { s with out := Output.empty } := if_pos h

theorem whenRun_of_ne {f : State → Res} (h : s.phase ≠ .run) : whenRun s f = .refused (.wrongPhase s.phase) := if_neg h

theorem whenConfig_next {f : State → Res} :
    whenConfig s f = .next t ↔ s.phase = .config ∧ f { s with out := Output.empty } = .next t := by
  unfold whenConfig
  split <;> simp_all

theorem whenConfig_of_config {f : State → Res} (h : s.phase = .config) :
    whenConfig s f = f { s with out := Output.empty } := if_pos h

theorem whenConfig_of_ne {f : State → Res} (h : s.phase ≠ .config) : whenConfig s f = .refused (.wrongPhase s.phase) :=
  if_neg h

/-- A configuration operation either takes the error or makes its change, and never stops. -/
theorem configure_eq (e : Option ErrCode) (i : Instr) (s s' : State) : configure e i s s' = .next (match e with
    | some code => { s with phase := .aborted, error := some ⟨code, encode i⟩ }
    | none => s') := by
  cases e <;> rfl

@[simp] theorem configure_none (i : Instr) (s s' : State) : configure none i s s' = .next s' := rfl

@[simp] theorem configure_some (code : ErrCode) (i : Instr) (s s' : State) :
    configure (some code) i s s' = .next { s with phase := .aborted, error := some ⟨code, encode i⟩ } := rfl

/-! ## Lines -/

theorem lineOf_setLineRec (lines : Table LineRec) (m n : Nat) (r : LineRec) :
    lineOf (setLineRec lines n r) m = if m = n then r else lineOf lines m := by
  unfold setLineRec lineOf
  split
  · rw [get_erase]; split <;> simp_all
  · rw [get_set]; split <;> simp_all

/-- After a line's record is replaced, that line reads as the new record and every other line as before. -/
theorem line_setLine (s : State) (c n : Nat) (r : LineRec) (d m : Nat) :
    (s.setLine c n r).line d m = if d = c ∧ m = n ∧ c < s.ncpu then r else s.line d m := by
  unfold State.setLine State.line State.ncpu
  simp only [List.getElem?_modify, Option.map_eq_map]
  cases h : s.cpus[d]? with
  | none =>
    have : s.cpus.length ≤ d := List.getElem?_eq_none_iff.1 h
    rw [if_neg (by omega)]
    rfl
  | some cpu =>
    have : d < s.cpus.length := (List.getElem?_eq_some_iff.1 h).1
    by_cases hd : c = d
    · subst hd
      by_cases hm : m = n <;> simp [hm, this, lineOf_setLineRec]
    · simp [hd, Ne.symm hd]

theorem line_lineSet (s : State) (c n : Nat) (m : LineMode) (v : Option Byte) (d k : Nat) :
    (lineSet c n m v s).line d k = if d = c ∧ k = n ∧ c < s.ncpu then lineRecOf m v else s.line d k :=
  line_setLine s c n _ d k

@[simp] theorem space?_setLine (s : State) (c n : Nat) (r : LineRec) (d : Nat) (sp : Space) :
    (s.setLine c n r).space? d sp = s.space? d sp := by
  unfold State.setLine State.space?
  simp only [List.getElem?_modify]
  cases s.cpus[d]? with
  | none => rfl
  | some cpu => by_cases h : c = d <;> cases sp <;> simp [h, Cpu.space]

@[simp] theorem space?_lineSet (s : State) (c n : Nat) (m : LineMode) (v : Option Byte) (d : Nat) (sp : Space) :
    (lineSet c n m v s).space? d sp = s.space? d sp := space?_setLine s c n _ d sp

@[simp] theorem ncpu_setLine (s : State) (c n : Nat) (r : LineRec) : (s.setLine c n r).ncpu = s.ncpu := by
  simp [State.setLine, State.ncpu]

@[simp] theorem ncpu_lineSet (s : State) (c n : Nat) (m : LineMode) (v : Option Byte) :
    (lineSet c n m v s).ncpu = s.ncpu := ncpu_setLine s c n _

/-! ## Spaces -/

@[simp] theorem space_setSpace (cpu : Cpu) (sp sq : Space) (b : BusSpace) :
    (cpu.setSpace sp b).space sq = if sq = sp then b else cpu.space sq := by
  cases sp <;> cases sq <;> rfl

@[simp] theorem setSpace_lines (cpu : Cpu) (sp : Space) (b : BusSpace) : (cpu.setSpace sp b).lines = cpu.lines := by
  cases sp <;> rfl

theorem space?_modifySpace (s : State) (c : Nat) (sp : Space) (f : BusSpace → BusSpace) (d : Nat) (sq : Space) :
    (s.modifySpace c sp f).space? d sq = if d = c ∧ sq = sp then (s.space? d sq).map f else s.space? d sq := by
  unfold State.modifySpace State.space?
  simp only [List.getElem?_modify]
  cases s.cpus[d]? with
  | none => simp
  | some cpu =>
    by_cases h : c = d
    · subst h
      by_cases hs : sq = sp
      · subst hs; simp
      · simp [hs]
    · simp [h, Ne.symm h]

@[simp] theorem line_modifySpace (s : State) (c : Nat) (sp : Space) (f : BusSpace → BusSpace) (d n : Nat) :
    (s.modifySpace c sp f).line d n = s.line d n := by
  unfold State.modifySpace State.line
  simp only [List.getElem?_modify]
  cases s.cpus[d]? with
  | none => rfl
  | some cpu => by_cases h : c = d <;> simp [h]

@[simp] theorem ncpu_modifySpace (s : State) (c : Nat) (sp : Space) (f : BusSpace → BusSpace) :
    (s.modifySpace c sp f).ncpu = s.ncpu := by
  simp [State.modifySpace, State.ncpu]

@[simp] theorem line_setLdv (s : State) (c : Nat) (sp : Space) (v : Byte) (d n : Nat) :
    (s.setLdv c sp v).line d n = s.line d n := line_modifySpace s c sp _ d n

@[simp] theorem ncpu_setLdv (s : State) (c : Nat) (sp : Space) (v : Byte) : (s.setLdv c sp v).ncpu = s.ncpu :=
  ncpu_modifySpace s c sp _

/-- A new last decoded value leaves every space's configuration as it was. -/
@[simp] theorem space?_setLdv_setup (s : State) (c : Nat) (sp : Space) (v : Byte) (d : Nat) (sq : Space) :
    ((s.setLdv c sp v).space? d sq).map BusSpace.setup = (s.space? d sq).map BusSpace.setup := by
  unfold State.setLdv
  rw [space?_modifySpace]
  split
  · cases s.space? d sq <;> rfl
  · rfl

/-- A new last decoded value is the one of its own space only. -/
theorem ldv?_setLdv (s : State) (c : Nat) (sp : Space) (v : Byte) (d : Nat) (sq : Space) :
    (s.setLdv c sp v).ldv? d sq = if d = c ∧ sq = sp ∧ c < s.ncpu then some v else s.ldv? d sq := by
  unfold State.ldv? State.setLdv
  rw [space?_modifySpace]
  by_cases h : d = c ∧ sq = sp
  · obtain ⟨rfl, rfl⟩ := h
    by_cases hc : d < s.ncpu
    · have : s.cpus[d]? = some s.cpus[d] := List.getElem?_eq_getElem hc
      simp [State.space?, hc, this]
    · have : s.cpus[d]? = none := List.getElem?_eq_none_iff.2 (Nat.le_of_not_lt hc)
      simp [State.space?, this, hc]
  · rw [if_neg h, if_neg (fun x => h ⟨x.1, x.2.1⟩)]

/-! ## Region bytes -/

theorem byteAt_congr (h : t.regions = s.regions) (r off : Nat) : t.byteAt r off = s.byteAt r off := by
  unfold State.byteAt; rw [h]

/-- All a read of a region byte can do. -/
theorem regionRead_next {r off : Nat} {p : Byte × State} :
    regionRead r off s = .next p ↔ ∃ v, s.byteAt r off = some v ∧ p = (v, s) := by
  unfold regionRead
  cases s.byteAt r off with
  | none => simp
  | some v => simp only [next_eq, Option.some.injEq, exists_eq_left']

/-- All a write of a region byte can do: the byte is stored in a mutable region, and discarded in an immutable one. -/
theorem regionWrite_next {r off : Nat} {v : Byte} :
    regionWrite r off v s = .next t ↔ ∃ g, Table.get s.regions r = some g ∧ off < g.size ∧
      t = if g.mutbl then { s with regions := Table.set s.regions r { g with bytes := Table.set g.bytes off v } }
        else s.emit .protocolViolation := by
  unfold regionWrite
  cases h : Table.get s.regions r with
  | none => simp
  | some g =>
    simp only [Option.some.injEq, exists_eq_left']
    split
    · simp only [*, true_and]
      split <;> exact next_eq
    · simp_all

/-- Reading every byte after one byte of a mutable region is stored. -/
theorem byteAt_store {r off : Nat} {g : Region} (hg : Table.get s.regions r = some g) (ho : off < g.size) (v : Byte)
    (q k : Nat) :
    State.byteAt { s with regions := Table.set s.regions r { g with bytes := Table.set g.bytes off v } } q k =
      if q = r ∧ k = off then some v else s.byteAt q k := by
  unfold State.byteAt
  simp only [get_set]
  by_cases hq : q = r
  · subst hq
    simp only [if_true, hg, true_and]
    by_cases hk : k = off
    · subst hk; simp [ho, Region.read]
    · simp [hk, Region.read, get_set_other _ _ hk]
  · simp [hq]

/-! ## Latches -/

theorem get_setLatch (s : State) (l : Nat) (k : Latch) (m : Nat) :
    Table.get (s.setLatch l k).latches m = if m = l then some k else Table.get s.latches m := get_set _ _ _ _

/-- All LATCH.WRITE can do. -/
theorem latchWrite_next {l : Nat} {v : Byte} : latchWrite l v s = .next t ↔ ∃ k, Table.get s.latches l = some k ∧
    t = if k.hasTarget && !k.pending then
        latchFire k ((s.setLatch l { k with value := v, pending := true }).emitIf k.pending)
      else (s.setLatch l { k with value := v, pending := true }).emitIf k.pending := by
  unfold latchWrite
  cases Table.get s.latches l with
  | none => simp
  | some k => simp only [next_eq, Option.some.injEq, exists_eq_left']

/-- All LATCH.READ can do. -/
theorem latchRead_next {l : Nat} {p : Byte × State} : latchRead l s = .next p ↔ ∃ k, Table.get s.latches l = some k ∧
    p = (k.value, match k.mode with
      | .separateAck => s.emitIf (!k.pending)
      | .readClears =>
        if k.pending then latchLower k ((s.emitIf (!k.pending)).setLatch l { k with pending := false })
        else (s.emitIf (!k.pending)).setLatch l { k with pending := false }) := by
  unfold latchRead
  cases Table.get s.latches l with
  | none => simp
  | some k => simp only [Option.some.injEq, exists_eq_left']; cases k.mode <;> exact next_eq

/-- All LATCH.ACK can do. -/
theorem latchAck_next {l : Nat} : latchAck l s = .next t ↔ ∃ k, Table.get s.latches l = some k ∧
    t = if k.mode == .separateAck && k.pending then latchLower k (s.setLatch l { k with pending := false })
      else s.emit .protocolViolation := by
  unfold latchAck
  cases Table.get s.latches l with
  | none => simp
  | some k => simp only [Option.some.injEq, exists_eq_left']; split <;> exact next_eq

/-- All LATCH.PENDING_R can do. -/
theorem latchPending_next {l : Nat} {p : Bool × State} :
    latchPending l s = .next p ↔ ∃ k, Table.get s.latches l = some k ∧ p = (k.pending, s) := by
  unfold latchPending
  cases Table.get s.latches l with
  | none => simp
  | some k => simp only [next_eq, Option.some.injEq, exists_eq_left']

/-! ## Banks -/

/-- All BANK.SELECT can do. -/
theorem bankSelect_next {b : Nat} {index : Word32} : bankSelect b index s = .next t ↔
    ∃ k, Table.get s.banks b = some k ∧
      t = if k.entryOf index < k.count then { s with banks := Table.set s.banks b { k with active := k.entryOf index } }
        else match k.policy with
          | .clamp => { s with banks := Table.set s.banks b { k with active := k.count - 1 } }
          | .noop => s.emit .protocolViolation := by
  unfold bankSelect
  cases Table.get s.banks b with
  | none => simp
  | some k =>
    simp only [Option.some.injEq, exists_eq_left']
    split
    · exact next_eq
    · cases k.policy <;> exact next_eq

/-- All BANK.READ can do. -/
theorem bankRead_next {b off : Nat} {p : Byte × State} : bankRead b off s = .next p ↔
    ∃ k, Table.get s.banks b = some k ∧ off < k.wsize ∧
      ∃ v, s.byteAt k.region (k.src k.active + off) = some v ∧ p = (v, s) := by
  unfold bankRead
  cases Table.get s.banks b with
  | none => simp
  | some k =>
    simp only [Option.some.injEq, exists_eq_left']
    split
    · simp_all [regionRead_next]
    · simp_all

/-- All BANK.WRITE can do. -/
theorem bankWrite_next {b off : Nat} {v : Byte} : bankWrite b off v s = .next t ↔
    ∃ k, Table.get s.banks b = some k ∧ off < k.wsize ∧ regionWrite k.region (k.src k.active + off) v s = .next t := by
  unfold bankWrite
  cases Table.get s.banks b with
  | none => simp
  | some k =>
    simp only [Option.some.injEq, exists_eq_left']
    split <;> simp_all

/-! ## The bus -/

/-- All `Resolve` can answer. -/
theorem resolve_some {b : BusSpace} {a : Word32} {dir : Dir} {e : BusRange} {off : Nat}
    (h : b.resolve a dir = some (e, off)) :
    e ∈ b.map ∧ e.lo ≤ b.masked a ∧ b.masked a ≤ e.hi ∧ off = b.masked a - e.lo ∧ Access.allows e.mode dir = true := by
  unfold BusSpace.resolve at h
  split at h
  · simp at h
  · rename_i d hd
    have hm := List.mem_of_find?_eq_some hd
    have hc := List.find?_some hd
    simp only [BusRange.covers, Bool.and_eq_true, decide_eq_true_eq] at hc
    split at h
    · simp only [Option.some.injEq, Prod.mk.injEq] at h
      obtain ⟨rfl, rfl⟩ := h
      exact ⟨hm, hc.1, hc.2, rfl, by assumption⟩
    · simp at h

/-- A byte the outside world supplies changes nothing but the model's own fields. -/
theorem externByte_state (site : Config.Site) (s : State) :
    ∃ x n, (externByte site s).2 = { s with extIn := x, draws := n } := by
  unfold externByte
  split
  · exact ⟨_, _, rfl⟩
  · exact ⟨_, _, rfl⟩

/-- All a flag of a status register can do: it changes nothing. -/
theorem statusFlag_next {valid invert : BitVec 4} {i : Nat} {l : Byte} {p : Bool × State} :
    statusFlag valid invert i l s = .next p ↔
      if valid.getLsbD i then
        ∃ k, Table.get s.latches l.toNat = some k ∧ p = (statusBit valid invert i k.pending, s)
      else p = (false, s) := by
  unfold statusFlag
  split
  · rw [andThen_next]
    constructor
    · rintro ⟨a, h, ha⟩
      obtain ⟨k, hk, rfl⟩ := latchPending_next.1 h
      exact ⟨k, hk, next_eq.1 ha⟩
    · rintro ⟨k, hk, rfl⟩
      exact ⟨(k.pending, s), latchPending_next.2 ⟨k, hk, rfl⟩, rfl⟩
  · exact next_eq

/-- All `MemRead` can do. -/
theorem busRead_next {c : Nat} {sp : Space} {addr : Word32} {p : Byte × State} :
    busRead c sp addr s = .next p ↔ ∃ b, s.space? c sp = some b ∧
      ((b.resolve addr .rd = none ∧ p = (b.openBus, s.emit (.openRead c sp addr))) ∨
        ∃ e off q, b.resolve addr .rd = some (e, off) ∧ readTarget b.openBus e.target off s = .next q ∧
          p = (q.1, q.2.setLdv c sp q.1)) := by
  unfold busRead
  cases s.space? c sp with
  | none => simp
  | some b =>
    simp only [Option.some.injEq, exists_eq_left']
    cases h : b.resolve addr .rd with
    | none => simp only [next_eq, reduceCtorEq, true_and, false_and, exists_false, or_false]
    | some x =>
      obtain ⟨e, off⟩ := x
      simp only [andThen_next]
      constructor
      · rintro ⟨q, hq, hp⟩
        exact Or.inr ⟨e, off, q, rfl, hq, next_eq.1 hp⟩
      · rintro (⟨h, _⟩ | ⟨_, _, q, he, hq, rfl⟩)
        · simp at h
        · simp only [Option.some.injEq, Prod.mk.injEq] at he
          obtain ⟨rfl, rfl⟩ := he
          exact ⟨q, hq, rfl⟩

/-- All `MemWrite` can do. -/
theorem busWrite_next {c : Nat} {sp : Space} {addr : Word32} {v : Byte} :
    busWrite c sp addr v s = .next t ↔ ∃ b, s.space? c sp = some b ∧
      ((b.resolve addr .wr = none ∧ t = s.emit (.openWrite c sp addr)) ∨
        ∃ e off u, b.resolve addr .wr = some (e, off) ∧ writeTarget e.target off v s = .next u ∧
          t = u.setLdv c sp v) := by
  unfold busWrite
  cases s.space? c sp with
  | none => simp
  | some b =>
    simp only [Option.some.injEq, exists_eq_left']
    cases h : b.resolve addr .wr with
    | none => simp only [next_eq, reduceCtorEq, true_and, false_and, exists_false, or_false]
    | some x =>
      obtain ⟨e, off⟩ := x
      simp only [andThen_next]
      constructor
      · rintro ⟨q, hq, hp⟩
        exact Or.inr ⟨e, off, q, rfl, hq, next_eq.1 hp⟩
      · rintro (⟨h, _⟩ | ⟨_, _, q, he, hq, rfl⟩)
        · simp at h
        · simp only [Option.some.injEq, Prod.mk.injEq] at he
          obtain ⟨rfl, rfl⟩ := he
          exact ⟨q, hq, rfl⟩

end Sys2Proof.Laws
end

