-- ==== Sys2Proof/Laws/Effects.lean ====
section
/-! SUPPORT. All that an operation of `PHASE = RUN` can do, as a chain of named updates of the state: a property of the
state that every update keeps is kept by every run-time operation. -/

namespace Sys2Proof.Laws

open Sys2Proof.Machine

/-- One update of the state by a run-time operation; `R` says that the operation is one of the two that say
which CPUs are to begin with their poll, SYS.RESET and SYS.RESTORE. -/
inductive Update (R : Prop) : State → State → Prop where
  | out (s : State) (o : Output) : Update R s { s with out := o }
  | draws (s : State) (n : Nat) : Update R s { s with draws := n }
  | extIn (s : State) (x : List Byte) : Update R s { s with extIn := x }
  | latch (s : State) (l : Nat) (k k' : Latch) (hk : Table.get s.latches l = some k) (hs : k'.setup = k.setup) :
      Update R s (s.setLatch l k')
  | line (s : State) (c n : Nat) (m : LineMode) (v : Option Byte) : Update R s (lineSet c n m v s)
  | pulses (s : State) (c : Nat) :
      Update R s { s with cpus := s.cpus.modify c fun cpu => { cpu with lines := clearPulses cpu.lines } }
  | bank (s : State) (b : Nat) (k : Bank) (a : Nat) (hk : Table.get s.banks b = some k)
      (ha : k.active < k.count → a < k.count) : Update R s { s with banks := Table.set s.banks b { k with active := a } }
  | byte (s : State) (r off : Nat) (g : Region) (v : Byte) (hg : Table.get s.regions r = some g) (ho : off < g.size)
      (hm : g.mutbl = true) :
      Update R s { s with regions := Table.set s.regions r { g with bytes := Table.set g.bytes off v } }
  | ldv (s : State) (c : Nat) (sp : Space) (v : Byte) : Update R s (s.setLdv c sp v)
  | p0 (s : State) (v : Byte) : Update R s { s with p0 := v }
  | p1 (s : State) (v : Byte) : Update R s { s with p1 := v }
  | p2 (s : State) (v : Byte) : Update R s { s with p2 := v }
  | p3 (s : State) (v : Byte) : Update R s { s with p3 := v }
  | raster (s : State) : Update R s s.nextScanline
  | tick (s : State) (j : Nat) :
      Update R s { s with perTimers := s.perTimers.modify j fun e => { e with ticks := e.ticks + 1 } }
  | save (s : State) (slot : Nat) : Update R s { s with snaps := Table.set s.snaps slot s.snapshot }
  | clear (s : State) : Update R s s.clearRunState
  | redraw (s : State) : Update R s s.redraw
  | restartAll (s : State) (hr : R) : Update R s s.restartAll
  | restore (s : State) (slot : Nat) (n : Snapshot) (hn : Table.get s.snaps slot = some n) (hf : n.fits s = true)
      (hr : R) : Update R s (s.restore n)

/-- A chain of updates. -/
inductive Updates (R : Prop) : State → State → Prop where
  | refl (s : State) : Updates R s s
  | step {s t u : State} (h : Updates R s t) (hu : Update R t u) : Updates R s u

variable {R : Prop}

theorem Updates.one {s t : State} (h : Update R s t) : Updates R s t := .step (.refl s) h

theorem Updates.trans {s t u : State} (h : Updates R s t) (hu : Updates R t u) : Updates R s u := by
  induction hu with
  | refl => exact h
  | step _ hx ih => exact ih.step hx

/-- A property that every update keeps is kept by a chain of them. -/
theorem Updates.keeps {P : State → Prop} (hP : ∀ s t, Update R s t → P s → P t) {s t : State} (h : Updates R s t) (hs : P s) :
    P t := by
  induction h with
  | refl => exact hs
  | step _ hx ih => exact hP _ _ hx ih

/-- No update adds or removes a CPU. -/
theorem Update.ncpu {s t : State} (h : Update R s t) : t.ncpu = s.ncpu := by
  cases h with
  | restore slot n hn hf _ =>
    simp only [Snapshot.fits, Bool.and_eq_true, beq_iff_eq] at hf
    simp [State.ncpu, State.restore, hf.1.1.2]
  | line => exact ncpu_lineSet _ _ _ _ _
  | ldv => exact ncpu_setLdv _ _ _ _
  | raster => unfold State.nextScanline; split <;> rfl
  | _ => simp [State.ncpu, State.clearRunState, State.redraw, State.restartAll, State.setLatch]

theorem Updates.ncpu {s t : State} (h : Updates R s t) : t.ncpu = s.ncpu :=
  h.keeps (P := fun u => u.ncpu = s.ncpu) (fun _ _ hu e => hu.ncpu.trans e) rfl

variable {s t : State}

theorem updates_emit (s : State) (e : DiagEvent) : Updates R s (s.emit e) := .one (.out s _)

theorem updates_emitIf (s : State) (b : Bool) : Updates R s (s.emitIf b) := by
  cases b
  · exact .refl s
  · exact updates_emit s _

theorem updates_latchLower (k : Latch) (s : State) : Updates R s (latchLower k s) := by
  unfold latchLower
  split
  · exact .one (.line _ _ _ _ _)
  · exact .refl s

theorem updates_extern {s u : State} (h : ∃ x n, u = { s with extIn := x, draws := n }) : Updates R s u := by
  obtain ⟨x, n, rfl⟩ := h
  exact (Updates.one (.extIn s x)).step (.draws _ n)

theorem updates_externByte (site : Config.Site) (s : State) : Updates R s (externByte site s).2 :=
  updates_extern (externByte_state site s)

theorem updates_drawByte (site : Config.Site) (s : State) : Updates R s (drawByte site s).2 := .one (.draws s _)

theorem updates_regionWrite {r off : Nat} {v : Byte} (h : regionWrite r off v s = .next t) : Updates R s t := by
  obtain ⟨g, hg, ho, rfl⟩ := regionWrite_next.1 h
  split
  · exact .one (.byte s r off g v hg ho ‹_›)
  · exact updates_emit s _

theorem updates_latchWrite {l : Nat} {v : Byte} (h : latchWrite l v s = .next t) : Updates R s t := by
  obtain ⟨k, hk, rfl⟩ := latchWrite_next.1 h
  have h1 : Updates R s ((s.setLatch l { k with value := v, pending := true }).emitIf k.pending) :=
    (Updates.one (.latch s l k { k with value := v, pending := true } hk rfl)).trans (updates_emitIf _ _)
  split
  · exact h1.step (.line _ _ _ _ _)
  · exact h1

theorem updates_latchRead {l : Nat} {p : Byte × State} (h : latchRead l s = .next p) : Updates R s p.2 := by
  obtain ⟨k, hk, rfl⟩ := latchRead_next.1 h
  dsimp only
  have h1 := updates_emitIf (R := R) s (!k.pending)
  split
  · exact h1
  · have h2 := h1.step (.latch _ l k { k with pending := false } (by simpa using hk) rfl)
    split
    · exact h2.trans (updates_latchLower _ _)
    · exact h2

theorem updates_latchAck {l : Nat} (h : latchAck l s = .next t) : Updates R s t := by
  obtain ⟨k, hk, rfl⟩ := latchAck_next.1 h
  split
  · exact (Updates.one (.latch s l k { k with pending := false } hk rfl)).trans (updates_latchLower _ _)
  · exact updates_emit s _

theorem updates_latchPending {l : Nat} {p : Bool × State} (h : latchPending l s = .next p) : Updates R s p.2 := by
  obtain ⟨k, hk, rfl⟩ := latchPending_next.1 h
  exact .refl s

theorem updates_bankSelect {b : Nat} {index : Word32} (h : bankSelect b index s = .next t) : Updates R s t := by
  obtain ⟨k, hk, rfl⟩ := bankSelect_next.1 h
  split
  · exact .one (.bank s b k _ hk fun _ => ‹_›)
  · split
    · exact .one (.bank s b k _ hk fun h => by omega)
    · exact updates_emit s _

theorem updates_bankRead {b off : Nat} {p : Byte × State} (h : bankRead b off s = .next p) : p.2 = s := by
  obtain ⟨_, _, _, _, _, rfl⟩ := bankRead_next.1 h
  rfl

theorem updates_bankWrite {b off : Nat} {v : Byte} (h : bankWrite b off v s = .next t) : Updates R s t := by
  obtain ⟨_, _, _, h⟩ := bankWrite_next.1 h
  exact updates_regionWrite h

theorem statusFlag_state {valid invert : BitVec 4} {i : Nat} {l : Byte} {p : Bool × State}
    (h : statusFlag valid invert i l s = .next p) : p.2 = s := by
  have := statusFlag_next.1 h
  split at this
  · obtain ⟨_, _, rfl⟩ := this; rfl
  · rw [this]

/-- All that reading a target can do to the state. -/
theorem updates_readTarget {x : Byte} {g : Target} {off : Nat} {p : Byte × State}
    (h : readTarget x g off s = .next p) : Updates R s p.2 := by
  cases g with
  | kMem region roff => obtain ⟨v, _, rfl⟩ := regionRead_next.1 h; exact .refl s
  | kBank bank => rw [updates_bankRead h]; exact .refl s
  | kLatchData latch => exact updates_latchRead h
  | kLatchAck latch =>
    obtain ⟨u, hu, hp⟩ := andThen_next.1 h
    rw [next_eq.1 hp]
    exact updates_latchAck hu
  | kStatus l0 l1 l2 l3 valid invert =>
    obtain ⟨b0, h0, h⟩ := andThen_next.1 h
    obtain ⟨b1, h1, h⟩ := andThen_next.1 h
    obtain ⟨b2, h2, h⟩ := andThen_next.1 h
    obtain ⟨b3, h3, h⟩ := andThen_next.1 h
    rw [next_eq.1 h]
    dsimp only
    rw [statusFlag_state h3, statusFlag_state h2, statusFlag_state h1, statusFlag_state h0]
    exact .refl s
  | kBankSel _ _ _ => rw [next_eq.1 h]; exact updates_emit s _
  | kLine _ _ _ _ _ => rw [next_eq.1 h]; exact updates_emit s _
  | kLineBit _ _ _ _ => rw [next_eq.1 h]; exact updates_emit s _
  | kInput src => rw [next_eq.1 h]; exact updates_externByte _ s
  | kSink sink => rw [next_eq.1 h]; exact updates_externByte _ s

/-- All that writing a target can do to the state. -/
theorem updates_writeTarget {g : Target} {off : Nat} {v : Byte} (h : writeTarget g off v s = .next t) : Updates R s t := by
  cases g with
  | kMem region roff => exact updates_regionWrite h
  | kBank bank => exact updates_bankWrite h
  | kLatchData latch => exact updates_latchWrite h
  | kLatchAck latch => exact updates_latchAck h
  | kStatus l0 l1 l2 l3 valid invert => rw [next_eq.1 h]; exact updates_emit s _
  | kBankSel bank shift mask => exact updates_bankSelect h
  | kLine tcpu line mode vec hasVec => rw [next_eq.1 h]; exact .one (.line _ _ _ _ _)
  | kLineBit tcpu line bit active => rw [next_eq.1 h]; exact .one (.line _ _ _ _ _)
  | kInput src => rw [next_eq.1 h]; exact updates_emit s _
  | kSink sink => rw [next_eq.1 h]; exact .one (.out s _)

theorem updates_busRead {c : Nat} {sp : Space} {addr : Word32} {p : Byte × State} (h : busRead c sp addr s = .next p) :
    Updates R s p.2 := by
  obtain ⟨b, _, ⟨_, rfl⟩ | ⟨e, off, q, _, hq, rfl⟩⟩ := busRead_next.1 h
  · exact updates_emit s _
  · exact (updates_readTarget hq).step (.ldv _ _ _ _)

theorem updates_busWrite {c : Nat} {sp : Space} {addr : Word32} {v : Byte} (h : busWrite c sp addr v s = .next t) :
    Updates R s t := by
  obtain ⟨b, _, ⟨_, rfl⟩ | ⟨e, off, u, _, hu, rfl⟩⟩ := busWrite_next.1 h
  · exact updates_emit s _
  · exact (updates_writeTarget hu).step (.ldv _ _ _ _)

theorem updates_giveByte {p : Byte × State} (h : giveByte p = .next t) : Updates R p.2 t := by
  rw [next_eq.1 h]; exact .one (.out _ _)

theorem updates_giveFlag {p : Bool × State} (h : giveFlag p = .next t) : Updates R p.2 t := by
  rw [next_eq.1 h]; exact .one (.out _ _)

theorem updates_scan (es : List ScanEntry) (s : State) : Updates R s (es.foldl fireScanEntry s) := by
  induction es generalizing s with
  | nil => exact .refl s
  | cons e es ih =>
    refine Updates.trans ?_ (ih _)
    unfold fireScanEntry
    split
    · exact .one (.line _ _ _ _ _)
    · exact .refl s

/-- A run-time operation is a chain of updates once what it does after clearing the output is. -/
theorem updates_whenRun {f : State → Res} (h : whenRun s f = .next t)
    (hf : ∀ u, f { s with out := Output.empty } = .next u → Updates R { s with out := Output.empty } u) :
    Updates R s t :=
  (Updates.one (.out s _)).trans (hf t (whenRun_next.1 h).2)

theorem updates_onCpu {c : Byte} {f : State → State} (h : onCpu c s f = .next t) (hf : ∀ u, Updates R u (f u)) :
    Updates R s t := by
  refine updates_whenRun h fun u hu => ?_
  split at hu
  · rw [next_eq.1 hu]; exact hf _
  · simp at hu

theorem updates_onPorts {f : PortWiring → State → Res} (h : onPorts s f = .next t)
    (hf : ∀ w u v, f w u = .next v → Updates R u v) : Updates R s t := by
  refine updates_whenRun h fun u hu => ?_
  split at hu
  · simp at hu
  · exact hf _ _ _ hu

theorem updates_port2Byte (w : PortWiring) (s : State) : Updates R s (port2Byte w s).2 := by
  unfold port2Byte
  split <;> first | exact updates_externByte _ s | exact updates_drawByte _ s

theorem updates_p3Read (h : execP3Read s = .next t) : Updates R s t := by
  refine updates_onPorts h fun w u v hv => ?_
  dsimp only at hv
  obtain ⟨i, hi, hv⟩ := andThen_next.1 hv
  obtain ⟨o, ho, hv⟩ := andThen_next.1 hv
  exact (((((updates_externByte _ u).trans (updates_externByte _ _)).trans (updates_latchPending hi)).trans
    (updates_latchPending ho)).trans (updates_giveByte hv))

theorem updates_p0Write {v : Byte} (h : execP0Write v s = .next t) : Updates R s t := by
  refine updates_onPorts h fun w u x hx => ?_
  dsimp only at hx
  obtain ⟨y, hy, hx⟩ := andThen_next.1 hx
  have h1 := (Updates.one (R := R) (.p0 u v)).trans (updates_emitIf _ (!risingEdge u.p0 v w.outBit.toNat &&
    !fallingEdge u.p0 v w.ackBit.toNat))
  have h2 : Updates R u y := by
    split at hy
    · exact h1.trans (updates_latchWrite hy)
    · rw [next_eq.1 hy]; exact h1
  split at hx
  · exact h2.trans (updates_latchAck hx)
  · rw [next_eq.1 hx]; exact h2

/-- All that an operation of `PHASE = RUN` can do. -/
theorem exec_updates {i : Instr} (hp : phaseOf i = .run) (h : exec i s = .next t) :
    Updates (i = .sysReset ∨ ∃ slot, i = .sysRestore slot) s t := by
  cases i with
  | sysReset =>
    have h : execSysReset s = .next t := h
    exact updates_whenRun h fun u hu => by
      rw [next_eq.1 hu]; exact ((Updates.one (.clear _)).step (.redraw _)).step (.restartAll _ (.inl rfl))
  | sysSave slot =>
    have h : execSysSave slot s = .next t := h
    exact updates_whenRun h fun u hu => by rw [next_eq.1 hu]; exact .one (.save _ _)
  | sysRestore slot =>
    have h : execSysRestore slot s = .next t := h
    refine updates_whenRun h fun u hu => ?_
    split at hu
    · simp at hu
    · split at hu
      · rw [next_eq.1 hu]; exact .one (.restore _ _ _ ‹_› ‹_› (.inr ⟨slot, rfl⟩))
      · simp at hu
  | sysStart => simp [phaseOf] at hp
  | regionDefine _ _ _ => simp [phaseOf] at hp
  | bankConfigure _ _ _ _ _ _ _ => simp [phaseOf] at hp
  | bankSelect b index =>
    have h : execBankSelect b index s = .next t := h
    exact updates_whenRun h fun u hu => updates_bankSelect hu
  | bankRead b offset =>
    have h : execBankRead b offset s = .next t := h
    refine updates_whenRun h fun u hu => ?_
    obtain ⟨p, hp, hu⟩ := andThen_next.1 hu
    exact Eq.subst (motive := fun v => Updates _ v u) (updates_bankRead hp) (updates_giveByte hu)
  | bankWrite b offset v =>
    have h : execBankWrite b offset v s = .next t := h
    exact updates_whenRun h fun u hu => updates_bankWrite hu
  | latchConfigure _ _ _ _ _ _ _ _ _ => simp [phaseOf] at hp
  | latchWrite l v =>
    have h : execLatchWrite l v s = .next t := h
    exact updates_whenRun h fun u hu => updates_latchWrite hu
  | latchRead l =>
    have h : execLatchRead l s = .next t := h
    refine updates_whenRun h fun u hu => ?_
    obtain ⟨p, hp, hu⟩ := andThen_next.1 hu
    exact (updates_latchRead hp).trans (updates_giveByte hu)
  | latchAck l =>
    have h : execLatchAck l s = .next t := h
    exact updates_whenRun h fun u hu => updates_latchAck hu
  | latchPendingR l =>
    have h : execLatchPendingR l s = .next t := h
    refine updates_whenRun h fun u hu => ?_
    obtain ⟨p, hp, hu⟩ := andThen_next.1 hu
    exact (updates_latchPending hp).trans (updates_giveFlag hu)
  | busRegisterRange _ _ _ _ _ _ => simp [phaseOf] at hp
  | busRead c addr =>
    have h : execBusRead c addr s = .next t := h
    refine updates_whenRun h fun u hu => ?_
    obtain ⟨p, hp, hu⟩ := andThen_next.1 hu
    exact (updates_busRead hp).trans (updates_giveByte hu)
  | busWrite c addr v =>
    have h : execBusWrite c addr v s = .next t := h
    exact updates_whenRun h fun u hu => updates_busWrite hu
  | busSetPolicy _ _ _ _ _ => simp [phaseOf] at hp
  | ioRead c addr =>
    have h : execIoRead c addr s = .next t := h
    refine updates_whenRun h fun u hu => ?_
    obtain ⟨p, hp, hu⟩ := andThen_next.1 hu
    exact (updates_busRead hp).trans (updates_giveByte hu)
  | ioWrite c addr v =>
    have h : execIoWrite c addr v s = .next t := h
    exact updates_whenRun h fun u hu => updates_busWrite hu
  | lineClear c n =>
    have h : execLineClear c n s = .next t := h
    exact updates_onCpu h fun u => (updates_emitIf u _).step (.line _ _ _ _ _)
  | lineAssert c n hasVec vec =>
    have h : execLineAssert c n hasVec vec s = .next t := h
    exact updates_onCpu h fun u => .one (.line _ _ _ _ _)
  | linePulse c n hasVec vec =>
    have h : execLinePulse c n hasVec vec s = .next t := h
    exact updates_onCpu h fun u => .one (.line _ _ _ _ _)
  | lineHold c n hasVec vec =>
    have h : execLineHold c n hasVec vec s = .next t := h
    exact updates_onCpu h fun u => .one (.line _ _ _ _ _)
  | cpuPoll c =>
    have h : execCpuPoll c s = .next t := h
    refine updates_whenRun h fun u hu => ?_
    split at hu
    · simp at hu
    · rw [next_eq.1 hu]; exact (Updates.one (.pulses _ _)).step (.out _ _)
  | cpuIack c n =>
    have h : execCpuIack c n s = .next t := h
    refine updates_onCpu h fun u => ?_
    split
    · exact .one (.line u c.toNat n.toNat .clear none)
    · exact updates_emit u _
  | scanConfigure _ _ _ _ _ _ => simp [phaseOf] at hp
  | scanAdvance =>
    have h : execScanAdvance s = .next t := h
    exact updates_whenRun h fun u hu => by
      rw [next_eq.1 hu]; exact (Updates.one (.raster _)).trans (updates_scan _ _)
  | perConfigure _ _ _ _ _ _ => simp [phaseOf] at hp
  | perTick j =>
    have h : execPerTick j s = .next t := h
    refine updates_whenRun h fun u hu => ?_
    split at hu
    · simp at hu
    · rw [next_eq.1 hu]; exact (Updates.one (.tick _ _)).step (.line _ _ _ _ _)
  | portConfigure _ => simp [phaseOf] at hp
  | p0Read =>
    have h : execP0Read s = .next t := h
    exact updates_onPorts h fun w u v hv => updates_giveByte (p := (u.p0, u)) hv
  | p1Read =>
    have h : execP1Read s = .next t := h
    refine updates_onPorts h fun w u v hv => ?_
    obtain ⟨p, hp, hv⟩ := andThen_next.1 hv
    exact (updates_latchRead hp).trans (updates_giveByte hv)
  | p2Read =>
    have h : execP2Read s = .next t := h
    exact updates_onPorts h fun w u v hv => (updates_port2Byte w u).trans (updates_giveByte hv)
  | p3Read =>
    have h : execP3Read s = .next t := h
    exact updates_p3Read h
  | p0Write v =>
    have h : execP0Write v s = .next t := h
    exact updates_p0Write h
  | p1Write v =>
    have h : execP1Write v s = .next t := h
    exact updates_onPorts h fun w u x hx => by rw [next_eq.1 hx]; exact .one (.p1 _ _)
  | p2Write v =>
    have h : execP2Write v s = .next t := h
    exact updates_onPorts h fun w u x hx => by rw [next_eq.1 hx]; exact .one (.p2 _ _)
  | p3Write v =>
    have h : execP3Write v s = .next t := h
    exact updates_onPorts h fun w u x hx => by
      rw [next_eq.1 hx]; exact (Updates.one (.p3 u v)).step (.line _ _ _ _ _)

end Sys2Proof.Laws
end

