-- ==== Sys2Proof/Laws/Setup.lean ====
section
/-! SUPPORT. All that an operation of `PHASE = CONFIG` can do, all that a step can do, and what the checks of a range's
target and of a snapshot find. -/

namespace Sys2Proof.Laws

open Sys2Proof.Machine

/-- What a configuration operation does to the state; `wf` says that the operation is one the encoding has. -/
inductive Configured (wf : Bool) : State → State → Prop where
  | error (s : State) (e : ErrorRecord) : Configured wf s { s with phase := .aborted, error := some e }
  | region (s : State) (r size : Nat) (mutbl : Bool) (hn : Table.get s.regions r = none) (hs : 0 < size) :
      Configured wf s { s with regions := Table.set s.regions r ⟨size, mutbl, []⟩ }
  | bank (s : State) (b : Nat) (k : Bank) (g : Region) (hn : Table.get s.banks b = none)
      (hg : Table.get s.regions k.region = some g) (hc : 0 < k.count) (hw : 0 < k.wsize) (ha : k.active = 0)
      (hb : k.binding = none) (hle : (k.start + k.count) * k.wsize ≤ g.size) :
      Configured wf s { s with banks := Table.set s.banks b k }
  | latch (s : State) (l : Nat) (k : Latch) (n : Nat) (hn : Table.get s.latches l = none)
      (ht : k.hasTarget = true → k.tcpu < s.ncpu) (hp : k.pending = false) :
      Configured wf s { s with latches := Table.set s.latches l k, draws := n }
  | range (s : State) (c : Nat) (sp : Space) (b : BusSpace) (lo hi : Nat) (mode : Access) (g : Target)
      (hb : s.space? c sp = some b) (hlo : lo ≤ hi) (hhi : hi < 2 ^ b.addrW) (ho : overlaps lo hi b.map = false)
      (ht : targetError g lo hi s = none) :
      Configured wf s ((bindTarget g c sp lo s).modifySpace c sp fun b => { b with map := b.map ++ [⟨lo, hi, mode, g⟩] })
  | policy (s : State) (c : Nat) (sp : Space) (m : BusSpace → Word32) (p : OpenBusPolicy) (o : Byte) :
      Configured wf s (s.modifySpace c sp fun b => { b with mask := m b, policy := p, obc := o })
  | scan (s : State) (e : ScanEntry) (hc : e.cpu < s.ncpu) (hl : e.scanline < s.scanLines)
      (hm : wf = true → e.mode ≠ .clear) : Configured wf s { s with scanEntries := s.scanEntries ++ [e] }
  | timer (s : State) (e : PerTimer) (hc : e.cpu < s.ncpu) (hm : wf = true → e.mode ≠ .clear) :
      Configured wf s { s with perTimers := s.perTimers ++ [e] }
  | ports (s : State) (w : PortWiring) (hn : s.pcfg = none) (ho : s.hasLatch w.outLatch = true)
      (hi : s.hasLatch w.inLatch = true) (hr : w.rstCpu.toNat < s.ncpu) (hm : w.mcu.toNat < s.ncpu) :
      Configured wf s { s with pcfg := some w, p0 := 0, p1 := 0, p2 := 0, p3 := 0 }
  | start (s : State) : Configured wf s { s.clearRunState with phase := .run }

variable {s t : State}

/-- Binding a target changes nothing but the banks. -/
theorem bindTarget_eq (g : Target) (c : Nat) (sp : Space) (lo : Nat) (s : State) :
    bindTarget g c sp lo s = { s with banks := (bindTarget g c sp lo s).banks } := by
  unfold bindTarget
  split
  · split <;> rfl
  all_goals rfl

/-- Binding a target gives the bank it names its base, owner and space, and leaves every other bank alone. -/
theorem get_bindTarget (g : Target) (c : Nat) (sp : Space) (lo : Nat) (s : State) (m : Nat) :
    Table.get (bindTarget g c sp lo s).banks m = if g = .kBank (BitVec.ofNat 8 m) ∧ m < 256 then
      (Table.get s.banks m).map fun k => { k with binding := some ⟨lo, c, sp⟩ } else Table.get s.banks m := by
  cases g with
  | kBank bank =>
    have hm : (Target.kBank bank = .kBank (BitVec.ofNat 8 m) ∧ m < 256) ↔ m = bank.toNat := by
      constructor
      · rintro ⟨h, hl⟩
        simp only [Target.kBank.injEq] at h
        rw [h, BitVec.toNat_ofNat, Nat.mod_eq_of_lt hl]
      · rintro rfl
        exact ⟨by simp, bank.isLt⟩
    simp only [bindTarget, hm]
    cases hk : Table.get s.banks bank.toNat with
    | none => split <;> simp_all
    | some k =>
      dsimp only
      rw [get_set]
      split
      · subst_vars; simp [hk]
      · rfl
  | _ => simp [bindTarget]

theorem configured_of_configure {wf : Bool} {e : Option ErrCode} {i : Instr} {u : State}
    (h : configure e i s u = .next t) (hu : e = none → Configured wf s u) : Configured wf s t := by
  rw [configure_eq] at h
  rw [next_eq.1 h]
  cases e with
  | some code => exact .error s _
  | none => exact hu rfl

theorem regionDefineError_none {r : Nat} {size : Word32} (h : regionDefineError r size s = none) :
    Table.get s.regions r = none ∧ 0 < size.toNat := by
  unfold regionDefineError at h
  split at h
  · simp at h
  · split at h
    · simp at h
    · rename_i h1 h2
      refine ⟨by simpa using h1, ?_⟩
      rcases Nat.eq_zero_or_pos size.toNat with h0 | h0
      · exact absurd (BitVec.eq_of_toNat_eq h0) h2
      · exact h0

theorem toNat_pos {n : Nat} {x : BitVec n} (h : x ≠ 0) : 0 < x.toNat := by
  rcases Nat.eq_zero_or_pos x.toNat with h0 | h0
  · exact absurd (BitVec.eq_of_toNat_eq (by simpa using h0)) h
  · exact h0

theorem bankConfigureError_none {b region : Nat} {start count wsize : Word32}
    (h : bankConfigureError b start region count wsize s = none) : Table.get s.banks b = none ∧
      ∃ g, Table.get s.regions region = some g ∧ 0 < count.toNat ∧ 0 < wsize.toNat ∧
        (start.toNat + count.toNat) * wsize.toNat ≤ g.size := by
  unfold bankConfigureError at h
  split at h
  · simp at h
  · rename_i h1
    refine ⟨by simpa using h1, ?_⟩
    split at h
    · simp at h
    · rename_i g hg
      split at h
      · simp at h
      · rename_i h2
        split at h
        · simp at h
        · rename_i h3
          rw [not_or] at h2
          exact ⟨g, hg, toNat_pos h2.1, toNat_pos h2.2, Nat.le_of_not_lt h3⟩

theorem latchConfigureError_none {l : Nat} {ht : Bool} {fire : Fire} {de hv : Bool} {tcpu tline vec : Byte}
    (h : latchConfigureError l ht fire de hv tcpu tline vec s = none) :
    Table.get s.latches l = none ∧ (ht = true → tcpu.toNat < s.ncpu) := by
  unfold latchConfigureError at h
  split at h
  · simp at h
  · rename_i h1
    refine ⟨by simpa using h1, fun hh => ?_⟩
    split at h
    · simp at h
    · rename_i h2
      exact Nat.lt_of_not_le fun x => h2 ⟨hh, x⟩

theorem registerRangeError_none {c lo hi : Nat} {sp : Space} {g : Target}
    (h : registerRangeError c sp lo hi g s = none) : ∃ b, s.space? c sp = some b ∧ lo ≤ hi ∧ hi < 2 ^ b.addrW ∧
      overlaps lo hi b.map = false ∧ targetError g lo hi s = none := by
  unfold registerRangeError at h
  split at h
  · simp at h
  · rename_i b hb
    split at h
    · simp at h
    · rename_i h1
      rw [not_or] at h1
      split at h
      · simp at h
      · rename_i h2
        exact ⟨b, hb, Nat.le_of_not_lt h1.1, Nat.lt_of_not_le h1.2, by simpa using h2, h⟩

theorem scanConfigureError_none {c line : Nat} (h : scanConfigureError c line s = none) :
    c < s.ncpu ∧ line < s.scanLines := by
  unfold scanConfigureError at h
  split at h
  · simp at h
  · split at h
    · simp at h
    · exact ⟨Nat.lt_of_not_le ‹_›, Nat.lt_of_not_le ‹_›⟩

theorem perConfigureError_none {c hz : Nat} (h : perConfigureError c hz s = none) : c < s.ncpu ∧ hz ≠ 0 := by
  unfold perConfigureError at h
  split at h
  · simp at h
  · split at h
    · simp at h
    · exact ⟨Nat.lt_of_not_le ‹_›, ‹_›⟩

theorem portConfigureError_none {w : PortWiring} (h : portConfigureError w s = none) : s.pcfg = none ∧
    s.hasLatch w.outLatch = true ∧ s.hasLatch w.inLatch = true ∧ w.rstCpu.toNat < s.ncpu ∧ w.mcu.toNat < s.ncpu := by
  unfold portConfigureError at h
  split at h
  · simp at h
  · rename_i h1
    split at h
    · simp at h
    · rename_i h2
      simp only [not_or, Option.isNone_iff_eq_none, ← Option.isSome_iff_ne_none, Nat.not_le] at h2
      exact ⟨by simpa using h1, h2.1, h2.2.1, h2.2.2.1, h2.2.2.2⟩

theorem configured_whenConfig {wf : Bool} {f : State → Res} (h : whenConfig s f = .next t)
    (hf : f { s with out := Output.empty } = .next t → Configured wf { s with out := Output.empty } t) :
    Configured wf { s with out := Output.empty } t := hf (whenConfig_next.1 h).2

/-- All that an operation of `PHASE = CONFIG` can do. -/
theorem exec_configured {i : Instr} (hp : phaseOf i = .config) (h : exec i s = .next t) :
    Configured i.wf { s with out := Output.empty } t := by
  cases i with
  | sysStart =>
    have h : execSysStart s = .next t := h
    exact configured_whenConfig h fun h => by rw [next_eq.1 h]; exact .start _
  | regionDefine r mutbl size =>
    have h : execRegionDefine r mutbl size s = .next t := h
    refine configured_whenConfig h fun h => configured_of_configure h fun he => ?_
    obtain ⟨h1, h2⟩ := regionDefineError_none he
    exact .region _ _ _ _ h1 h2
  | bankConfigure b policy start region count wsize xor =>
    have h : execBankConfigure b policy start region count wsize xor s = .next t := h
    refine configured_whenConfig h fun h => configured_of_configure h fun he => ?_
    obtain ⟨h1, g, hg, hc, hw, hle⟩ := bankConfigureError_none he
    exact .bank _ _ _ g h1 hg hc hw rfl rfl hle
  | latchConfigure l mode ht fire de hv tcpu tline vec =>
    have h : execLatchConfigure l mode ht fire de hv tcpu tline vec s = .next t := h
    refine configured_whenConfig h fun h => configured_of_configure h fun he => ?_
    obtain ⟨h1, h2⟩ := latchConfigureError_none he
    exact .latch _ _ _ _ h1 h2 rfl
  | busRegisterRange c mode sp lo hi g =>
    have h : execBusRegisterRange c mode sp lo hi g s = .next t := h
    refine configured_whenConfig h fun h => configured_of_configure h fun he => ?_
    obtain ⟨b, hb, h1, h2, h3, h4⟩ := registerRangeError_none he
    exact .range _ _ _ b _ _ _ _ hb h1 h2 h3 h4
  | busSetPolicy c policy sp mask obc =>
    have h : execBusSetPolicy c policy sp mask obc s = .next t := h
    exact configured_whenConfig h fun h => configured_of_configure h fun _ => .policy _ _ _ _ _ _
  | scanConfigure c n x mode hv vec =>
    have h : execScanConfigure c n x mode hv vec s = .next t := h
    refine configured_whenConfig h fun h => configured_of_configure h fun he => ?_
    obtain ⟨h1, h2⟩ := scanConfigureError_none he
    exact .scan _ _ h1 h2 fun hw => by simpa [Instr.wf, timerModeOk] using hw
  | perConfigure c n x mode hv vec =>
    have h : execPerConfigure c n x mode hv vec s = .next t := h
    refine configured_whenConfig h fun h => configured_of_configure h fun he => ?_
    exact .timer _ _ (perConfigureError_none he).1 fun hw => by simpa [Instr.wf, timerModeOk] using hw
  | portConfigure w =>
    have h : execPortConfigure w s = .next t := h
    refine configured_whenConfig h fun h => configured_of_configure h fun he => ?_
    obtain ⟨h1, h2, h3, h4, h5⟩ := portConfigureError_none he
    exact .ports _ w h1 h2 h3 h4 h5
  | _ => simp [phaseOf] at hp

theorem configured_phase {i : Instr} (hp : phaseOf i = .config) (h : exec i s = .next t) : s.phase = .config := by
  cases i <;> first
    | (simp [phaseOf] at hp; done)
    | (simp only [exec, execSysStart, execRegionDefine, execBankConfigure, execLatchConfigure, execBusRegisterRange,
        execBusSetPolicy, execScanConfigure, execPerConfigure, execPortConfigure, whenConfig_next] at h
       exact h.1)

/-- An operation belongs to one of the two phases. -/
theorem phaseOf_cases (i : Instr) : phaseOf i = .config ∨ phaseOf i = .run := by
  cases i <;> simp [phaseOf]

/-- All that a step can do: nothing, or what the operation at the front of the queue does, where its issuer is not held
and the operation may stand where it stands in its turn. -/
theorem step_next (h : step s = .next t) : (s.queue = [] ∧ t = s) ∨
    ∃ turn later i ws, s.queue = turn :: later ∧ decode turn.words = some (i, ws) ∧
      s.heldIssuer (issuer i s) = none ∧ s.inSlot turn.whole i (issuer i s) = true ∧
      exec i (s.takeOp i turn ws later) = .next t := by
  unfold step at h
  split at h
  next hq => exact Or.inl ⟨hq, next_eq.1 h⟩
  next turn later hq =>
    split at h
    · simp at h
    next i ws hd =>
      split at h
      · simp at h
      next hh =>
        split at h
        next hs => exact Or.inr ⟨turn, later, i, ws, hq, hd, hh, hs, h⟩
        · simp at h

/-- An operation inside a turn is one of the CPU whose turn it is, and no poll. -/
theorem inSlot_some {b a : Agent} {whole : Bool} {i : Instr} (hs : s.slot = some b) :
    s.inSlot whole i a = true ↔ a = b ∧ a.isCpu = true ∧ opensSlot i = false := by
  simp only [State.inSlot, hs, Bool.and_eq_true, beq_iff_eq, Bool.not_eq_true', and_assoc, eq_comm (a := b)]

/-- At the front of a turn only the first operation of a whole instruction is fixed, and that of a CPU that its RESET
line has reset: it is the poll. -/
theorem inSlot_none {a : Agent} {whole : Bool} {i : Instr} (hs : s.slot = none) :
    s.inSlot whole i a = true ↔ (whole = true → a.isCpu = true → opensSlot i = true) ∧
      (s.restarting a = true → opensSlot i = true) := by
  simp only [State.inSlot, hs]
  cases whole <;> cases a.isCpu <;> cases s.restarting a <;> simp

/-- Which CPUs are to begin with their poll once operation `i` is issued: those that are held, that see a pulse on their
RESET line in this poll, or that were to before and that this operation does not poll. -/
theorem mem_takeOp_restarts {i : Instr} {turn : Turn} {ws : List OpWord} {later : List Turn} {c : Nat} :
    c ∈ (s.takeOp i turn ws later).restarts ↔ c < s.ncpu ∧ (s.held c = true ∨
      (polledCpu i = some c ∧ s.seesReset i = true) ∨ (polledCpu i ≠ some c ∧ c ∈ s.restarts)) := by
  simp only [State.takeOp, List.mem_filter, List.mem_range, State.resetBy, Bool.or_eq_true]
  by_cases hp : polledCpu i = some c <;> simp [hp]

/-- A status register's four latches, bit by bit. -/
theorem exists_statusBit {l0 l1 l2 l3 : Byte} {p : Nat → Byte → Prop} :
    (∃ i l, (i, l) ∈ [(0, l0), (1, l1), (2, l2), (3, l3)] ∧ p i l) ↔ p 0 l0 ∨ p 1 l1 ∨ p 2 l2 ∨ p 3 l3 := by
  simp only [List.mem_cons, Prod.mk.injEq, List.not_mem_nil, or_false, or_and_right, exists_or, and_assoc,
    exists_and_left, exists_eq_left]

/-- The check of a range's target finds just the errors of 42_bus.md R180. -/
theorem targetError_some {g : Target} {lo hi : Nat} {code : ErrCode} :
    targetError g lo hi s = some code ↔ TargetRaises s lo hi g code := by
  have noLatch : ∀ l, s.hasLatch l = false ↔ Table.get s.latches l.toNat = none := by simp [State.hasLatch]
  cases g with
  | kMem region roff =>
    simp only [targetError, TargetRaises]
    cases Table.get s.regions region.toNat <;> simp [eq_comm (a := code)]
  | kBank bank =>
    simp only [targetError, TargetRaises]
    cases Table.get s.banks bank.toNat with
    | none => simp [eq_comm (a := code)]
    | some k => cases hb : k.binding <;> simp [hb, eq_comm (a := code)]
  | kLatchData latch =>
    simp only [targetError, TargetRaises, ← noLatch]
    cases s.hasLatch latch <;> simp [eq_comm (a := code)]
  | kLatchAck latch =>
    simp only [targetError, TargetRaises, ← noLatch]
    cases s.hasLatch latch <;> simp [eq_comm (a := code)]
  | kStatus l0 l1 l2 l3 valid invert =>
    simp only [targetError, TargetRaises, exists_statusBit, ← noLatch, List.any_cons, List.any_nil, Bool.or_false,
      Bool.or_eq_true, Bool.and_eq_true, Bool.not_eq_true', bne_iff_ne]
    split
    next h => simp only [h, not_true, true_and, false_and, or_false, Option.some.injEq, eq_comm (a := code)]
    next h =>
      split
      next hs => simp only [h, hs, not_false_eq_true, true_and, false_and, false_or, Option.some.injEq, eq_comm (a := code)]
      next hs => simp only [h, hs, false_and, and_false, or_false, reduceCtorEq]
  | kBankSel bank shift mask =>
    simp only [targetError, TargetRaises]
    cases Table.get s.banks bank.toNat <;> simp [eq_comm (a := code)]
  | kLine tcpu line mode vec hasVec =>
    simp only [targetError, TargetRaises]
    by_cases hc : s.ncpu ≤ tcpu.toNat <;> by_cases hm : mode.toNat ≤ 3 <;>
      simp [hc, hm, Nat.not_lt.2, Nat.not_le.1, eq_comm (a := code)]
  | kLineBit tcpu line bit active =>
    simp only [targetError, TargetRaises]
    by_cases hc : s.ncpu ≤ tcpu.toNat <;> by_cases hb : bit.toNat ≤ 7 <;> by_cases ha : active.toNat ≤ 1 <;>
      simp [hc, hb, ha, Nat.not_lt.2, Nat.not_le.1, eq_comm (a := code)]
  | kInput src => simp [targetError, TargetRaises]
  | kSink sink => simp [targetError, TargetRaises]

/-- Where the unit tables are canonical a snapshot fits just if none of the conditions of 45_system.md R284 holds. -/
theorem fits_iff {n : Snapshot} (h : s.tablesOk = true) : n.fits s = true ↔ ¬n.Misfits s := by
  simp only [State.tablesOk, Bool.and_eq_true] at h
  have hr : ∀ r, (Table.get (s.regions.filter fun e => e.2.mutbl) r).isSome =
      (Table.get s.regions r).any fun g => g.mutbl := by
    intro r
    rw [get_filter_of_wf _ h.1.1.1]
    cases Table.get s.regions r with
    | none => rfl
    | some g => cases hg : g.mutbl <;> simp [Option.filter, hg]
  have ha : activeFits s.banks n.active = true ↔
      ∀ b k a, Table.get s.banks b = some k → Table.get n.active b = some a → a < k.count := by
    simp only [activeFits, List.all_eq_true]
    refine ⟨fun H b k a hk ha => by simpa [ha] using H _ (get_mem hk), fun H e he => ?_⟩
    have hk := get_of_mem h.1.1.2 (n := e.1) (a := e.2) he
    split
    next a ha => exact decide_eq_true (H _ _ _ hk ha)
    next => rfl
  have hs : sizesFit s.regions n.regions = true ↔
      ∀ r g saved, Table.get s.regions r = some g → Table.get n.regions r = some saved → saved.size = g.size := by
    simp only [sizesFit, List.all_eq_true]
    refine ⟨fun H r g v hg hv => by simpa [hv] using H _ (get_mem hg), fun H e he => ?_⟩
    have hg := get_of_mem h.1.1.1 (n := e.1) (a := e.2) he
    split
    next v hv => exact beq_iff_eq.2 (H _ _ _ hg hv)
    next => rfl
  simp only [Snapshot.fits, Bool.and_eq_true, sameUnits_iff, hr, ha, hs, decide_eq_true_eq, beq_iff_eq,
    Snapshot.Misfits, not_or, not_exists, not_and, not_not, ne_eq, Nat.not_le, State.ncpu, and_assoc]
  constructor
  · rintro ⟨h1, h2, h3, h4, h5, h6, h7, h8, h9⟩
    exact ⟨h1, h2, h3, h4, h7, h9, h5, h8, h6⟩
  · rintro ⟨h1, h2, h3, h4, h7, h9, h5, h8, h6⟩
    exact ⟨h1, h2, h3, h4, h5, h6, h7, h8, h9⟩

end Sys2Proof.Laws
end

