-- ==== Sys2Proof/Laws/Frame.lean ====
section
/-! SUPPORT. What each shared operation leaves unchanged, and what each one that touches latches, lines, banks or region
bytes does, in the terms of Safety: said once, for every operation that is built from it. -/

namespace Sys2Proof.Machine

open Sys2Proof.Laws

variable {s t u : State}

/-! ## Frames -/

theorem Unchanged.refl (s : State) (but : List Part) : Unchanged s s but := by
  intro p _
  cases p <;> first | exact fun _ => rfl | exact fun _ _ => rfl | exact ⟨rfl, fun _ _ => rfl⟩ | exact ⟨rfl, rfl⟩ | rfl

theorem Part.same_trans {p : Part} (h : Part.same s t p) (hu : Part.same t u p) : Part.same s u p := by
  cases p <;> simp_all [Part.same]

theorem Unchanged.trans {but : List Part} (h : Unchanged s t but) (hu : Unchanged t u but) : Unchanged s u but :=
  fun p hp => Part.same_trans (h p hp) (hu p hp)

theorem Unchanged.mono {a b : List Part} (h : Unchanged s t a) (hab : a ⊆ b) : Unchanged s t b :=
  fun p hp => h p fun hx => hp (hab hx)

/-- What an operation hands out is the same, but for what it may log (60_exceptions.md R303, R304). -/
def SameOut (s t : State) : Prop :=
  t.out.result = s.out.result ∧ t.out.sink = s.out.sink ∧ t.out.cpusReset = s.out.cpusReset

theorem SameOut.refl (s : State) : SameOut s s := ⟨rfl, rfl, rfl⟩

theorem SameOut.trans (h : SameOut s t) (hu : SameOut t u) : SameOut s u :=
  ⟨hu.1.trans h.1, hu.2.1.trans h.2.1, hu.2.2.trans h.2.2⟩

/-- An operation that starts with nothing handed out and keeps what is handed out hands out nothing. -/
theorem SameOut.handsOut (h : SameOut { s with out := Output.empty } t) : HandsOut t .none := h

theorem SameOut.withResult (h : SameOut { s with out := Output.empty } t) (r : Result) : HandsOut (t.withResult r) r :=
  ⟨rfl, h.2⟩

theorem unchanged_out (s : State) (o : Output) : Unchanged s { s with out := o } [.out] := by
  intro p hp
  cases p <;> first
    | exact absurd (List.mem_singleton.2 rfl) hp
    | exact fun _ => rfl
    | exact fun _ _ => rfl
    | exact ⟨rfl, fun _ _ => rfl⟩
    | exact ⟨rfl, rfl⟩
    | rfl

theorem unchanged_emit (s : State) (e : DiagEvent) : Unchanged s (s.emit e) [.out] := unchanged_out s _

theorem sameOut_emit (s : State) (e : DiagEvent) : SameOut s (s.emit e) := ⟨rfl, rfl, rfl⟩

theorem unchanged_emitIf (s : State) (b : Bool) : Unchanged s (s.emitIf b) [.out] := by
  cases b
  · exact .refl s _
  · exact unchanged_emit s _

theorem sameOut_emitIf (s : State) (b : Bool) : SameOut s (s.emitIf b) := by
  cases b <;> exact ⟨rfl, rfl, rfl⟩

theorem unchanged_withResult (s : State) (r : Result) : Unchanged s (s.withResult r) [.out] := unchanged_out s _

theorem unchanged_lineSet (c n : Nat) (m : LineMode) (v : Option Byte) (s : State) :
    Unchanged s (lineSet c n m v s) [.lines] := by
  intro p hp
  cases p <;> first
    | exact absurd (List.mem_singleton.2 rfl) hp
    | simp [Part.same, State.ldv?]; done
    | exact fun _ => rfl
    | exact fun _ _ => rfl

theorem sameOut_lineSet (c n : Nat) (m : LineMode) (v : Option Byte) (s : State) : SameOut s (lineSet c n m v s) :=
  ⟨rfl, rfl, rfl⟩

theorem unchanged_setLine (c n : Nat) (r : LineRec) (s : State) : Unchanged s (s.setLine c n r) [.lines] := by
  intro p hp
  cases p <;> first
    | exact absurd (List.mem_singleton.2 rfl) hp
    | simp [Part.same, State.ldv?]; done
    | exact fun _ => rfl
    | exact fun _ _ => rfl

theorem unchanged_setLatch (s : State) (l : Nat) (k : Latch) : Unchanged s (s.setLatch l k) [.latches] := by
  intro p hp
  cases p <;> first
    | exact absurd (List.mem_singleton.2 rfl) hp
    | exact fun _ => rfl
    | exact fun _ _ => rfl
    | exact ⟨rfl, fun _ _ => rfl⟩
    | exact ⟨rfl, rfl⟩
    | rfl

theorem unchanged_setBanks (s : State) (b : Table Bank) : Unchanged s { s with banks := b } [.banks] := by
  intro p hp
  cases p <;> first
    | exact absurd (List.mem_singleton.2 rfl) hp
    | exact fun _ => rfl
    | exact fun _ _ => rfl
    | exact ⟨rfl, fun _ _ => rfl⟩
    | exact ⟨rfl, rfl⟩
    | rfl

theorem unchanged_setLdv (s : State) (c : Nat) (sp : Space) (v : Byte) : Unchanged s (s.setLdv c sp v) [.ldv] := by
  intro p hp
  cases p <;> first
    | exact absurd (List.mem_singleton.2 rfl) hp
    | simp [Part.same]; done
    | exact fun _ => rfl
    | exact fun _ _ => rfl

theorem unchanged_store {r off : Nat} {g : Region} (hg : Table.get s.regions r = some g) (v : Byte) :
    Unchanged s { s with regions := Table.set s.regions r { g with bytes := Table.set g.bytes off v } } [.memory] := by
  intro p hp
  cases p <;> first
    | exact absurd (List.mem_singleton.2 rfl) hp
    | exact fun _ => rfl
    | exact fun _ _ => rfl
    | exact ⟨rfl, fun _ _ => rfl⟩
    | exact ⟨rfl, rfl⟩
    | skip
  all_goals try rfl
  intro q
  dsimp only
  rw [get_set]
  split
  · subst_vars; rw [hg]; rfl
  · rfl

theorem unchanged_extern {x : List Byte} {n : Nat} : Unchanged s { s with extIn := x, draws := n } [.extIn, .draws] := by
  intro p hp
  cases p <;> first
    | exact absurd (by decide) hp
    | exact fun _ => rfl
    | exact fun _ _ => rfl
    | exact ⟨rfl, fun _ _ => rfl⟩
    | exact ⟨rfl, rfl⟩
    | rfl

/-! ## Lines -/

theorem line_of_ncpu_le {c : Nat} (h : s.ncpu ≤ c) (n : Nat) : s.line c n = LineRec.cleared := by
  unfold State.line
  rw [List.getElem?_eq_none_iff.2 h]

/-- A line operation on a CPU that exists leaves its record on its line. -/
theorem lineIs_lineSet {c : Nat} (hc : c < s.ncpu) (n : Nat) (m : LineMode) (v : Option Byte) :
    LineIs s (lineSet c n m v s) c n (lineRecOf m v) := by
  intro d k
  rw [line_lineSet]
  simp [hc]

/-- Clearing a line clears it, whether or not there is such a CPU. -/
theorem lineIs_clear (c n : Nat) (v : Option Byte) (s : State) :
    LineIs s (lineSet c n .clear v s) c n LineRec.cleared := by
  intro d k
  rw [line_lineSet]
  by_cases h : d = c ∧ k = n
  · obtain ⟨rfl, rfl⟩ := h
    by_cases hc : d < s.ncpu
    · simp [hc, lineRecOf]
    · simp [hc, line_of_ncpu_le (Nat.le_of_not_lt hc)]
  · rw [if_neg h, if_neg fun x => h ⟨x.1, x.2.1⟩]

/-! ## Latches -/

theorem latchIs_setLatch (s : State) (l : Nat) (k : Latch) : LatchIs s (s.setLatch l k) l k :=
  ⟨by simp, fun m hm => by rw [get_setLatch, if_neg hm]⟩

theorem latchRaised_eq (k : Latch) :
    lineRecOf (match k.fire with | .level => .assert | .pulse => .pulse) (vecOf k.hasVec k.vec) = k.raised := by
  cases hf : k.fire <;> cases hv : k.hasVec <;> simp [lineRecOf, vecOf, Latch.raised, hf, hv]

/-- LATCH.WRITE on a configured latch, wherever it is called from (41_latch.md R161). -/
theorem latchWrite_effect {l : Nat} {k : Latch} (hk : Table.get s.latches l = some k)
    (ht : k.hasTarget = true → k.tcpu < s.ncpu) (v : Byte) :
    ∃ t, latchWrite l v s = .next t ∧ LatchWritten s t l k v ∧ SameOut s t ∧ Unchanged s t [.latches, .lines, .out] := by
  refine ⟨_, latchWrite_next.2 ⟨k, hk, rfl⟩, ?_⟩
  have h1 := latchIs_setLatch s l { k with value := v, pending := true }
  have hu : Unchanged s ((s.setLatch l { k with value := v, pending := true }).emitIf k.pending)
      [.latches, .lines, .out] :=
    ((unchanged_setLatch s l _).mono (by simp)).trans ((unchanged_emitIf _ _).mono (by simp))
  have ho : SameOut s ((s.setLatch l { k with value := v, pending := true }).emitIf k.pending) :=
    SameOut.trans ⟨rfl, rfl, rfl⟩ (sameOut_emitIf _ _)
  have hl : LatchIs s ((s.setLatch l { k with value := v, pending := true }).emitIf k.pending) l
      { k with value := v, pending := true } := by
    cases k.pending <;> exact h1
  have hn : ∀ d n, ((s.setLatch l { k with value := v, pending := true }).emitIf k.pending).line d n = s.line d n := by
    cases k.pending <;> exact fun _ _ => rfl
  have hc : ((s.setLatch l { k with value := v, pending := true }).emitIf k.pending).ncpu = s.ncpu := by
    cases k.pending <;> rfl
  by_cases hf : k.hasTarget = true ∧ k.pending = false
  · rw [if_pos (by simp [hf])]
    refine ⟨⟨hl, ?_⟩, ho.trans (sameOut_lineSet _ _ _ _ _), hu.trans ((unchanged_lineSet _ _ _ _ _).mono (by simp))⟩
    rw [if_pos hf]
    intro d m
    rw [← latchRaised_eq, ← hn d m]
    exact lineIs_lineSet (hc.symm ▸ ht hf.1) _ _ _ d m
  · have hb : ¬(k.hasTarget && !k.pending) = true := by simpa using hf
    rw [if_neg hb]
    exact ⟨⟨hl, by rw [if_neg hf]; exact hn⟩, ho, hu⟩

/-- What lowering the line of a latch whose flag has just been cleared does. -/
theorem latchLower_effect (k : Latch) (s : State) :
    Table.get (latchLower k s).latches = Table.get s.latches ∧ SameOut s (latchLower k s) ∧
      Unchanged s (latchLower k s) [.lines] ∧
      (k.hasTarget = true ∧ k.fire = .level ∧ k.deassert = true →
        LineIs s (latchLower k s) k.tcpu k.tline LineRec.cleared) ∧
      (¬(k.hasTarget = true ∧ k.fire = .level ∧ k.deassert = true) → Part.same s (latchLower k s) .lines) := by
  unfold latchLower
  by_cases h : k.hasTarget = true ∧ k.fire = .level ∧ k.deassert = true
  · rw [if_pos (by simp [h])]
    exact ⟨rfl, ⟨rfl, rfl, rfl⟩, unchanged_lineSet _ _ _ _ _, fun _ => lineIs_clear _ _ _ _, fun hn => absurd h hn⟩
  · rw [if_neg (by simpa [and_assoc] using h)]
    exact ⟨rfl, .refl s, .refl s _, fun hp => absurd hp h, fun _ _ _ => rfl⟩

/-- Clearing a latch's flag and lowering its line where it was set. -/
theorem clearFlag_effect {l : Nat} (k : Latch) (hp : k.pending = true) (s : State) :
    LatchCleared s (latchLower k (s.setLatch l { k with pending := false })) l k True ∧
      SameOut s (latchLower k (s.setLatch l { k with pending := false })) ∧
      Unchanged s (latchLower k (s.setLatch l { k with pending := false })) [.latches, .lines, .out] := by
  obtain ⟨h1, h2, h3, h4, h5⟩ := latchLower_effect k (s.setLatch l { k with pending := false })
  refine ⟨⟨fun _ => ⟨?_, fun h => h4 h.2, fun h => h5 fun hx => h ⟨hp, hx⟩⟩, fun h => absurd trivial h⟩,
    SameOut.trans ⟨rfl, rfl, rfl⟩ h2, ((unchanged_setLatch s l _).mono (by simp)).trans (h3.mono (by simp))⟩
  have := latchIs_setLatch s l { k with pending := false }
  unfold LatchIs at *
  rwa [h1]

theorem latchCleared_not {l : Nat} {k : Latch} {c : Prop} (hc : ¬c) (h : Part.same s t .latches)
    (hl : Part.same s t .lines) : LatchCleared s t l k c := ⟨fun x => absurd x hc, fun _ => ⟨h, hl⟩⟩

/-- LATCH.ACK on a configured latch, wherever it is called from (41_latch.md R163). -/
theorem latchAck_effect {l : Nat} {k : Latch} (hk : Table.get s.latches l = some k) :
    ∃ t, latchAck l s = .next t ∧ LatchCleared s t l k (k.mode = .separateAck ∧ k.pending = true) ∧ SameOut s t ∧
      Unchanged s t [.latches, .lines, .out] := by
  refine ⟨_, latchAck_next.2 ⟨k, hk, rfl⟩, ?_⟩
  by_cases h : k.mode = .separateAck ∧ k.pending = true
  · rw [if_pos (by simp [h])]
    simpa [h] using clearFlag_effect k h.2 s
  · rw [if_neg (by simpa using h)]
    exact ⟨latchCleared_not h (fun _ => rfl) (fun _ _ => rfl), sameOut_emit _ _, (unchanged_emit s _).mono (by simp)⟩

/-- LATCH.READ on a configured latch, wherever it is called from (41_latch.md R162). -/
theorem latchRead_effect {l : Nat} {k : Latch} (hk : Table.get s.latches l = some k) :
    ∃ t, latchRead l s = .next (k.value, t) ∧ LatchCleared s t l k (k.mode = .readClears) ∧ SameOut s t ∧
      Unchanged s t [.latches, .lines, .out] := by
  refine ⟨_, latchRead_next.2 ⟨k, hk, rfl⟩, ?_⟩
  rcases k with ⟨mode, hasTarget, tcpu, tline, fire, deassert, hasVec, vec, value, pending⟩
  cases mode with
  | separateAck =>
    exact ⟨latchCleared_not (by simp) (unchanged_emitIf s _ _ (by simp)) (unchanged_emitIf s _ _ (by simp)),
      sameOut_emitIf _ _, (unchanged_emitIf s _).mono (by simp)⟩
  | readClears =>
    cases pending with
    | true => simpa [State.emitIf] using clearFlag_effect _ rfl s
    | false =>
      exact ⟨⟨fun _ => ⟨latchIs_setLatch _ _ _, fun h => by simp [Latch.lowers] at h, fun _ _ _ => rfl⟩,
        fun h => absurd rfl h⟩, ⟨rfl, rfl, rfl⟩,
        ((unchanged_emitIf s _).mono (by simp)).trans ((unchanged_setLatch _ l _).mono (by simp))⟩

/-! ## Banks and region bytes -/

/-- BANK.SELECT on a configured bank, wherever it is called from (40_bank.md R141). -/
theorem bankSelect_effect {b : Nat} {k : Bank} (hk : Table.get s.banks b = some k) (index : Word32) :
    ∃ t, bankSelect b index s = .next t ∧
      Table.get t.banks b = some { k with active :=
        if (index ^^^ k.xor).toNat < k.count then (index ^^^ k.xor).toNat
        else match k.policy with
          | .clamp => k.count - 1
          | .noop => k.active } ∧
      (∀ m, m ≠ b → Table.get t.banks m = Table.get s.banks m) ∧ SameOut s t ∧ Unchanged s t [.banks, .out] := by
  refine ⟨_, bankSelect_next.2 ⟨k, hk, rfl⟩, ?_⟩
  have set : ∀ a : Nat, Table.get (Table.set s.banks b { k with active := a }) b = some { k with active := a } ∧
      ∀ m, m ≠ b → Table.get (Table.set s.banks b { k with active := a }) m = Table.get s.banks m :=
    fun a => ⟨get_set_same _ _ _, fun m hm => get_set_other _ _ hm⟩
  unfold Bank.entryOf
  split
  · exact ⟨(set _).1, (set _).2, ⟨rfl, rfl, rfl⟩, (unchanged_setBanks s _).mono (by simp)⟩
  · have clamped := set (k.count - 1)
    rcases k with ⟨_, _, _, _, _, policy, _, _⟩
    cases policy
    · exact ⟨hk, fun _ _ => rfl, ⟨rfl, rfl, rfl⟩, (unchanged_emit s _).mono (by simp)⟩
    · exact ⟨clamped.1, clamped.2, ⟨rfl, rfl, rfl⟩, (unchanged_setBanks s _).mono (by simp)⟩

/-- A byte of a region that exists is written, or the write discarded, wherever it is called from (20_memory.md R59). -/
theorem regionWrite_effect {r off : Nat} {g : Region} (hg : Table.get s.regions r = some g) (ho : off < g.size)
    (v : Byte) : ∃ t, regionWrite r off v s = .next t ∧
      (∀ q k, t.byteAt q k = if g.mutbl = true ∧ q = r ∧ k = off then some v else s.byteAt q k) ∧ SameOut s t ∧
      Unchanged s t [.memory, .out] := by
  refine ⟨_, regionWrite_next.2 ⟨g, hg, ho, rfl⟩, ?_⟩
  by_cases hm : g.mutbl = true
  · rw [if_pos hm]
    refine ⟨fun q k => ?_, ⟨rfl, rfl, rfl⟩, (unchanged_store hg v).mono (by simp)⟩
    simpa [hm] using byteAt_store hg ho v q k
  · rw [if_neg hm]
    refine ⟨fun q k => ?_, sameOut_emit _ _, (unchanged_emit s _).mono (by simp)⟩
    rw [if_neg fun h => hm h.1]
    exact byteAt_congr rfl q k

/-! ## Bytes of the outside world -/

/-- A byte the outside world supplies is the next one it has handed over, where there is one, else the free byte of its
place (10_state.md R31; log 7). -/
theorem externByte_effect (site : Config.Site) (s : State) :
    (∀ x rest, s.extIn = x :: rest → (externByte site s).1 = x ∧ (externByte site s).2.extIn = rest ∧
        (externByte site s).2.draws = s.draws) ∧
      (s.extIn = [] → (externByte site s).1 = Config.freeByte site s.draws ∧ (externByte site s).2.extIn = [] ∧
        (externByte site s).2.draws = s.draws + 1) ∧
      SameOut s (externByte site s).2 ∧ Unchanged s (externByte site s).2 [.extIn, .draws] := by
  refine ⟨fun x rest h => by simp [externByte, h], fun h => by simp [externByte, drawByte, h], ?_⟩
  obtain ⟨x, n, h⟩ := externByte_state site s
  rw [h]
  exact ⟨⟨rfl, rfl, rfl⟩, unchanged_extern⟩

/-- Reading a target hands nothing out and changes at most a pending flag with its line, and what the outside world has
still to hand over (20_memory.md R55). -/
theorem readTarget_frame {x : Byte} {g : Target} {off : Nat} {p : Byte × State} (h : readTarget x g off s = .next p) :
    SameOut s p.2 ∧ Unchanged s p.2 [.latches, .lines, .extIn, .draws, .out] := by
  have same : ∀ u, u = s → SameOut s u ∧ Unchanged s u [.latches, .lines, .extIn, .draws, .out] := by
    rintro u rfl
    exact ⟨.refl u, .refl u _⟩
  have emitted := And.intro (sameOut_emit s .protocolViolation)
    ((unchanged_emit s .protocolViolation).mono (b := [.latches, .lines, .extIn, .draws, .out]) (by simp))
  have extern (site : Config.Site) : SameOut s (externByte site s).2 ∧
      Unchanged s (externByte site s).2 [.latches, .lines, .extIn, .draws, .out] :=
    ⟨(externByte_effect site s).2.2.1, (externByte_effect site s).2.2.2.mono (by simp)⟩
  cases g with
  | kMem region roff => obtain ⟨v, _, rfl⟩ := regionRead_next.1 h; exact same _ rfl
  | kBank bank => exact same _ (updates_bankRead h)
  | kLatchData latch =>
    obtain ⟨k, hk, _⟩ := latchRead_next.1 h
    obtain ⟨t, h1, _, h3, h4⟩ := latchRead_effect hk
    cases h1.symm.trans h
    exact ⟨h3, h4.mono (by simp)⟩
  | kLatchAck latch =>
    obtain ⟨u, hu, hp⟩ := andThen_next.1 h
    obtain ⟨k, hk, _⟩ := latchAck_next.1 hu
    obtain ⟨t, h1, _, h3, h4⟩ := latchAck_effect hk
    cases h1.symm.trans hu
    rw [next_eq.1 hp]
    exact ⟨h3, h4.mono (by simp)⟩
  | kStatus l0 l1 l2 l3 valid invert =>
    obtain ⟨b0, h0, h⟩ := andThen_next.1 h
    obtain ⟨b1, h1, h⟩ := andThen_next.1 h
    obtain ⟨b2, h2, h⟩ := andThen_next.1 h
    obtain ⟨b3, h3, h⟩ := andThen_next.1 h
    rw [next_eq.1 h]
    exact same _ (by rw [statusFlag_state h3, statusFlag_state h2, statusFlag_state h1, statusFlag_state h0])
  | kBankSel _ _ _ => rw [next_eq.1 h]; exact emitted
  | kLine _ _ _ _ _ => rw [next_eq.1 h]; exact emitted
  | kLineBit _ _ _ _ => rw [next_eq.1 h]; exact emitted
  | kInput src => rw [next_eq.1 h]; exact extern _
  | kSink sink => rw [next_eq.1 h]; exact extern _

/-! ## The last decoded value -/

theorem ncpu_of_space {c : Nat} {sp : Space} {b : BusSpace} (h : s.space? c sp = some b) : c < s.ncpu := by
  unfold State.space? at h
  cases hc : s.cpus[c]? with
  | none => simp [hc] at h
  | some _ => exact (List.getElem?_eq_some_iff.1 hc).1

/-- An access that hits sets the last decoded value of its own space only (20_memory.md R60). -/
theorem ldvSet_setLdv {c : Nat} (hc : c < s.ncpu) (sp : Space) (v : Byte) : LdvSet s (s.setLdv c sp v) c sp v := by
  intro d sq
  rw [ldv?_setLdv]
  simp [hc]

/-! ## The queue of turns -/

/-- An operation itself takes nothing from the queue and leaves the turn in progress as it is: the step does both. Of the
CPUs that are to begin with their poll, only SYS.RESET and SYS.RESTORE say anything. -/
theorem exec_turns {i : Instr} (h : exec i s = .next t) : t.queue = s.queue ∧ t.slot = s.slot ∧
    (i ≠ .sysReset → (∀ slot, i ≠ .sysRestore slot) → t.restarts = s.restarts) := by
  rcases phaseOf_cases i with hp | hp
  · have hc := exec_configured hp h
    generalize hu : ({ s with out := Output.empty } : State) = u at hc
    suffices t.queue = u.queue ∧ t.slot = u.slot ∧ t.restarts = u.restarts by
      subst hu; exact ⟨this.1, this.2.1, fun _ _ => this.2.2⟩
    cases hc with
    | range => rw [bindTarget_eq]; exact ⟨rfl, rfl, rfl⟩
    | _ => exact ⟨rfl, rfl, rfl⟩
  · refine (exec_updates hp h).keeps
      (P := fun u => u.queue = s.queue ∧ u.slot = s.slot ∧
        (i ≠ .sysReset → (∀ slot, i ≠ .sysRestore slot) → u.restarts = s.restarts))
      (fun u v hu hs => ?_) ⟨rfl, rfl, fun _ _ => rfl⟩
    cases hu with
    | raster => unfold State.nextScanline; split <;> exact hs
    | restore slot n hn hf hr => exact ⟨hs.1, hs.2.1, fun h1 h2 => absurd hr (not_or.2 ⟨h1, not_exists.2 h2⟩)⟩
    | restartAll hr => exact ⟨hs.1, hs.2.1, fun h1 h2 => absurd hr (not_or.2 ⟨h1, not_exists.2 h2⟩)⟩
    | _ => exact hs

/-- After SYS.RESET every CPU is to begin with its poll. -/
theorem sysReset_restarts (h : exec .sysReset s = .next t) : t.restarts = List.range s.ncpu := by
  have hx : execSysReset s = .next t := h
  rw [next_eq.1 (whenRun_next.1 hx).2]
  simp [State.ncpu]

end Sys2Proof.Machine
end

