-- ==== Sys2Proof/Laws/Memory.lean ====
section
/-! SUPPORT. The memory keeps its canonical form, and a read after a write gives the value written. -/

namespace Sys2Proof.Laws

open Sys2Proof.Machine

variable {s t : State}

/-- Storing a byte inside the region keeps the region's memory canonical. -/
theorem regionOk_set {size : Nat} {bytes : Memory} (h : regionOk size bytes = true) {off : Nat} (ho : off < size)
    (v : Byte) : regionOk size (Table.set bytes off v) = true := by
  unfold regionOk Memory.wf at *
  rw [Bool.and_eq_true] at h ⊢
  exact ⟨wf_set h.1 off v, all_set h.2 (decide_eq_true ho)⟩

/-- A region with nothing written is canonical. -/
theorem regionOk_nil (size : Nat) : regionOk size [] = true := rfl

/-- A write of a region byte keeps every memory canonical. -/
theorem regionWrite_memoryOk {r off : Nat} {v : Byte} (h : s.memoryOk = true) (hw : regionWrite r off v s = .next t) :
    t.memoryOk = true := by
  obtain ⟨g, hg, ho, rfl⟩ := regionWrite_next.1 hw
  split
  · unfold State.memoryOk at h ⊢
    rw [Bool.and_eq_true] at h ⊢
    exact ⟨all_set h.1 (regionOk_set (all_get (p := fun e => regionOk e.2.size e.2.bytes) h.1 hg) ho v), h.2⟩
  · exact h

/-- A write through a bank keeps every memory canonical. -/
theorem bankWrite_memoryOk {b off : Nat} {v : Byte} (h : s.memoryOk = true) (hw : bankWrite b off v s = .next t) :
    t.memoryOk = true := by
  obtain ⟨_, _, _, hw⟩ := bankWrite_next.1 hw
  exact regionWrite_memoryOk h hw

/-- A new region keeps every memory canonical. -/
theorem regionDefine_memoryOk (h : s.memoryOk = true) (r size : Nat) (mutbl : Bool) :
    State.memoryOk { s with regions := Table.set s.regions r ⟨size, mutbl, []⟩ } = true := by
  unfold State.memoryOk at h ⊢
  rw [Bool.and_eq_true] at h ⊢
  exact ⟨all_set h.1 (regionOk_nil size), h.2⟩

/-- Saving keeps every memory canonical, the saved ones too. -/
theorem save_memoryOk (h : s.memoryOk = true) (slot : Nat) :
    State.memoryOk { s with snaps := Table.set s.snaps slot s.snapshot } = true := by
  unfold State.memoryOk at h ⊢
  rw [Bool.and_eq_true] at h ⊢
  refine ⟨h.1, all_set h.2 ?_⟩
  dsimp only [State.snapshot]
  rw [all_mapVals]
  exact all_filter h.1 _

/-- Restoring a snapshot that fits keeps every memory canonical. -/
theorem restore_memoryOk (h : s.memoryOk = true) {slot : Nat} {n : Snapshot} (hn : Table.get s.snaps slot = some n)
    (hf : n.fits s = true) : (s.restore n).memoryOk = true := by
  unfold State.memoryOk at h ⊢
  rw [Bool.and_eq_true] at h ⊢
  refine ⟨?_, h.2⟩
  have hs := all_get h.2 hn
  have hz : sizesFit s.regions n.regions = true := by
    simp only [Snapshot.fits, Bool.and_eq_true] at hf
    exact hf.1.1.1.2
  dsimp only [State.restore]
  rw [all_mapVals, List.all_eq_true]
  intro e he
  have h1 := (List.all_eq_true.1 h.1) e he
  unfold sizesFit at hz
  have h2 := (List.all_eq_true.1 hz) e he
  dsimp only at h1 h2 ⊢
  cases hg : Table.get n.regions e.1 with
  | none => exact h1
  | some saved =>
    have h3 := all_get hs hg
    rw [hg] at h2
    simp only [beq_iff_eq] at h2
    by_cases hm : e.2.mutbl = true
    · simp only [hm, if_true]; rw [← h2]; exact h3
    · simp only [hm]; exact h1

/-- The memory of the machine right after reset is canonical. -/
theorem reset_memoryOk : State.reset.memoryOk = true := rfl

end Sys2Proof.Laws
end

