-- ==== Sys2Proof/Laws/PerInstr.lean ====
section
/-! SUPPORT. How many words each operation takes, instruction by instruction (30_encoding.md R111, R118). -/

namespace Sys2Proof.Laws.WordCount

/-- An operation is its head word and as many extension words as its opcode has. -/
def Statement (i : Instr) : Prop := (encode i).length = 1 + extWords i.head.opc

theorem sysReset : Statement .sysReset := rfl
theorem sysSave (slot : Byte) : Statement (.sysSave slot) := rfl
theorem sysRestore (slot : Byte) : Statement (.sysRestore slot) := rfl
theorem sysStart : Statement .sysStart := rfl
theorem regionDefine (r : Byte) (mutbl : Bool) (size : Word32) : Statement (.regionDefine r mutbl size) := rfl
theorem bankConfigure (b : Byte) (policy : BankPolicy) (startIndex : Word32) (region : Byte)
    (count windowSize xorMask : Word32) :
    Statement (.bankConfigure b policy startIndex region count windowSize xorMask) := rfl
theorem bankSelect (b : Byte) (index : Word32) : Statement (.bankSelect b index) := rfl
theorem bankRead (b : Byte) (offset : Word32) : Statement (.bankRead b offset) := rfl
theorem bankWrite (b : Byte) (offset : Word32) (v : Byte) : Statement (.bankWrite b offset v) := rfl
theorem latchConfigure (l : Byte) (mode : LatchMode) (hasTarget : Bool) (fire : Fire) (deassert hasVec : Bool)
    (tcpu tline vec : Byte) :
    Statement (.latchConfigure l mode hasTarget fire deassert hasVec tcpu tline vec) := rfl
theorem latchWrite (l v : Byte) : Statement (.latchWrite l v) := rfl
theorem latchRead (l : Byte) : Statement (.latchRead l) := rfl
theorem latchAck (l : Byte) : Statement (.latchAck l) := rfl
theorem latchPendingR (l : Byte) : Statement (.latchPendingR l) := rfl
theorem busRegisterRange (c : Byte) (mode : Access) (space : Space) (lo hi : Word32) (target : Target) :
    Statement (.busRegisterRange c mode space lo hi target) := rfl
theorem busRead (c : Byte) (addr : Word32) : Statement (.busRead c addr) := rfl
theorem busWrite (c : Byte) (addr : Word32) (v : Byte) : Statement (.busWrite c addr v) := rfl
theorem busSetPolicy (c : Byte) (policy : OpenBusPolicy) (space : Space) (mask : Word32) (obc : Byte) :
    Statement (.busSetPolicy c policy space mask obc) := rfl
theorem ioRead (c : Byte) (addr : Word32) : Statement (.ioRead c addr) := rfl
theorem ioWrite (c : Byte) (addr : Word32) (v : Byte) : Statement (.ioWrite c addr v) := rfl
theorem lineClear (c n : Byte) : Statement (.lineClear c n) := rfl
theorem lineAssert (c n : Byte) (hasVec : Bool) (vec : Byte) : Statement (.lineAssert c n hasVec vec) := rfl
theorem linePulse (c n : Byte) (hasVec : Bool) (vec : Byte) : Statement (.linePulse c n hasVec vec) := rfl
theorem lineHold (c n : Byte) (hasVec : Bool) (vec : Byte) : Statement (.lineHold c n hasVec vec) := rfl
theorem cpuPoll (c : Byte) : Statement (.cpuPoll c) := rfl
theorem cpuIack (c n : Byte) : Statement (.cpuIack c n) := rfl
theorem scanConfigure (c n : Byte) (scanline : BitVec 16) (mode : LineMode) (hasVec : Bool) (vec : Byte) :
    Statement (.scanConfigure c n scanline mode hasVec vec) := rfl
theorem scanAdvance : Statement .scanAdvance := rfl
theorem perConfigure (c n : Byte) (hz : BitVec 16) (mode : LineMode) (hasVec : Bool) (vec : Byte) :
    Statement (.perConfigure c n hz mode hasVec vec) := rfl
theorem perTick (j : Byte) : Statement (.perTick j) := rfl
theorem portConfigure (w : PortWiring) : Statement (.portConfigure w) := rfl
theorem p0Read : Statement .p0Read := rfl
theorem p1Read : Statement .p1Read := rfl
theorem p2Read : Statement .p2Read := rfl
theorem p3Read : Statement .p3Read := rfl
theorem p0Write (v : Byte) : Statement (.p0Write v) := rfl
theorem p1Write (v : Byte) : Statement (.p1Write v) := rfl
theorem p2Write (v : Byte) : Statement (.p2Write v) := rfl
theorem p3Write (v : Byte) : Statement (.p3Write v) := rfl

end Sys2Proof.Laws.WordCount
end

