-- ==== Sys2Proof/Tests/Slice0.lean ====
section
/-! SUPPORT. Tests of the checks, the decoder and single operations, with expected results from spec/, and for each
obligation with hypotheses a concrete state and operands that meet them. -/

namespace Sys2Proof.Tests

open Sys2Proof.Machine

/-! ## WellFormed: an ill-formed operation for each check -/

theorem test_assert_vector_without_has_vec : (Instr.lineAssert 0 0 false 1).wf = false := by decide
theorem test_pulse_vector_without_has_vec : (Instr.linePulse 0 0 false 1).wf = false := by decide
theorem test_hold_vector_without_has_vec : (Instr.lineHold 0 0 false 1).wf = false := by decide
theorem test_scan_mode_clear : (Instr.scanConfigure 0 0 0 .clear false 0).wf = false := by decide
theorem test_per_mode_clear : (Instr.perConfigure 0 0 1 .clear false 0).wf = false := by decide

/-! ## Decode: words the spec writes out (the examples of 40_bank.md to 45_system.md, the tables of
95_test_vectors.md) -/

theorem test_decode_sysReset : decode [0x0100000000000000] = some (.sysReset, []) := by decide
theorem test_decode_sysSave : decode [0x0200000000000000] = some (.sysSave 0, []) := by decide
theorem test_decode_sysRestore : decode [0x0300000000000000] = some (.sysRestore 0, []) := by decide
theorem test_decode_sysStart : decode [0x0400000000000000] = some (.sysStart, []) := by decide
theorem test_decode_regionDefine : decode [0x0501010000080000] = some (.regionDefine 1 true 0x800, []) := by decide
theorem test_decode_bankConfigure : decode [0x1001000000000400, 4, 0x4000, 1] =
    some (.bankConfigure 1 .noop 4 0 4 0x4000 1, []) := by decide
theorem test_decode_bankSelect : decode [0x1100000000001F00] = some (.bankSelect 0 31, []) := by decide
theorem test_decode_bankRead : decode [0x12000000001ABC00] = some (.bankRead 0 0x1ABC, []) := by decide
theorem test_decode_bankWrite : decode [0x1300000000200000] = some (.bankWrite 0 0x2000 0, []) := by decide
theorem test_decode_latchConfigure : decode [0x2003070000010000] =
    some (.latchConfigure 3 .readClears true .pulse false false 0 1 0, []) := by decide
theorem test_decode_latchWrite : decode [0x2102000000000077] = some (.latchWrite 2 0x77, []) := by decide
theorem test_decode_latchRead : decode [0x2202000000000000] = some (.latchRead 2, []) := by decide
theorem test_decode_latchAck : decode [0x2302000000000000] = some (.latchAck 2, []) := by decide
theorem test_decode_latchPendingR : decode [0x2402000000000000] = some (.latchPendingR 2, []) := by decide
theorem test_decode_range_status : decode [0x3000010000D00304, 0xD003, 0x000102030000000F] =
    some (.busRegisterRange 0 .r .mem 0xD003 0xD003 (.kStatus 0 1 2 3 0xF 0), []) := by decide
theorem test_decode_range_lineBit : decode [0x3000020000D00707, 0xD007, 0x0202000100000000] =
    some (.busRegisterRange 0 .w .mem 0xD007 0xD007 (.kLineBit 2 2 0 1), []) := by decide
theorem test_decode_busRead : decode [0x3104000000000000] = some (.busRead 4 0, []) := by decide
theorem test_decode_busWrite : decode [0x3200000000D00142] = some (.busWrite 0 0xD001 0x42, []) := by decide
theorem test_decode_busSetPolicy : decode [0x330281000000FF00] = some (.busSetPolicy 2 .const .io 0xFF 0, []) := by
  decide
theorem test_decode_ioRead : decode [0x3402000000123400] = some (.ioRead 2 0x1234, []) := by decide
theorem test_decode_ioWrite : decode [0x3502000000FF0007] = some (.ioWrite 2 0xFF00 7, []) := by decide
theorem test_decode_lineClear : decode [0x4002000000000000] = some (.lineClear 2 0, []) := by decide
theorem test_decode_lineAssert : decode [0x4102000000000000] = some (.lineAssert 2 0 false 0, []) := by decide
theorem test_decode_linePulse : decode [0x4201010000000000] = some (.linePulse 1 1 false 0, []) := by decide
theorem test_decode_lineHold : decode [0x43000000000001FD] = some (.lineHold 0 0 true 0xFD, []) := by decide
theorem test_decode_cpuPoll : decode [0x4401000000000000] = some (.cpuPoll 1, []) := by decide
theorem test_decode_cpuIack : decode [0x4500000000000000] = some (.cpuIack 0 0, []) := by decide
theorem test_decode_scanConfigure : decode [0x460000010300F0FD] =
    some (.scanConfigure 0 0 240 .hold true 0xFD, []) := by decide
theorem test_decode_scanAdvance : decode [0x4700000000000000] = some (.scanAdvance, []) := by decide
theorem test_decode_perConfigure : decode [0x480201000201E900] =
    some (.perConfigure 2 1 489 .pulse false 0, []) := by decide
theorem test_decode_perTick : decode [0x4901000000000000] = some (.perTick 1, []) := by decide
theorem test_decode_portConfigure : decode [0x5003020000030100, 0x01000302012CF881] =
    some (.portConfigure ⟨3, 2, 1, 3, 1, 0, 2, 4, 7, true, 4, 5, 1, 2, 3, 0, 1⟩, []) := by decide
theorem test_decode_p0Read : decode [0x5100000000000000] = some (.p0Read, []) := by decide
theorem test_decode_p1Read : decode [0x5101000000000000] = some (.p1Read, []) := by decide
theorem test_decode_p2Read : decode [0x5102000000000000] = some (.p2Read, []) := by decide
theorem test_decode_p3Read : decode [0x5103000000000000] = some (.p3Read, []) := by decide
theorem test_decode_p0Write : decode [0x5200000000000002] = some (.p0Write 2, []) := by decide
theorem test_decode_p1Write : decode [0x520100000000005A] = some (.p1Write 0x5A, []) := by decide
theorem test_decode_p2Write : decode [0x52020000000000FF] = some (.p2Write 0xFF, []) := by decide
theorem test_decode_p3Write : decode [0x5203000000000080] = some (.p3Write 0x80, []) := by decide

/-- An opcode with no row, an unused bit that is not zero, a reserved access code and a missing extension word are each
invalid (30_encoding.md R116, R117). -/
theorem test_decode_invalid : decode [0x0600000000000000] = none ∧ decode [0x0400000000000001] = none ∧
    decode [0x3000000000800001, 0x9FFF, 0] = none ∧ decode [0x3000010000800001, 0x9FFF] = none := by decide

/-- The kernel evaluates the row's own reading of a word, and the step runs it (SYS.START, then nothing is queued). -/
theorem test_decodeTableWord : decodeTableWord 64 0x0400000000000000 = some .sysStart := by decide

/-! ## A small fabric in `PHASE = RUN` (after the reference configuration of 95_test_vectors.md) -/

def rom : Region := ⟨0x40000, false, []⟩
def ram : Region := ⟨0x800, true, [(0x10, 0x5A), (0x123, 0xA5)]⟩
def bank0 : Bank := ⟨0, 0, 32, 0x2000, 0, .clamp, some ⟨0x8000, 0, .mem⟩, 5⟩
def bank1 : Bank := ⟨0, 4, 4, 0x4000, 1, .noop, none, 0⟩
def bank2 : Bank := ⟨1, 0, 4, 0x100, 0, .clamp, some ⟨0, 0, .io⟩, 1⟩
def latch0 : Latch := ⟨.separateAck, true, 2, 0, .level, true, false, 0, 0x11, false⟩
def latch1 : Latch := ⟨.readClears, false, 0, 0, .level, false, false, 0, 0x22, true⟩
def latch2 : Latch := ⟨.separateAck, false, 0, 0, .level, false, false, 0, 0x33, true⟩
def latch3 : Latch := ⟨.readClears, true, 0, 1, .pulse, false, false, 0, 0x44, false⟩
def range : Nat → Target → BusRange := fun a g => ⟨a, a, .rw, g⟩
def space0 : BusSpace := ⟨16, 0xFFFF, .const, 0xFF, 0, [⟨0x8000, 0x9FFF, .r, .kBank 0⟩, ⟨0xC000, 0xC7FF, .rw, .kMem 1 0⟩,
  range 0xD000 (.kBankSel 0 0 0xFF), range 0xD001 (.kLatchData 0), range 0xD002 (.kLatchAck 2),
  range 0xD003 (.kStatus 0 1 2 3 0xF 0), range 0xD006 (.kLine 1 1 2 0 false), range 0xD007 (.kLineBit 2 2 0 1),
  range 0xD008 (.kInput 0), ⟨0xD009, 0xD00A, .rw, .kSink 0⟩]⟩
def spaceIo : BusSpace := ⟨16, 0x00FF, .const, 0, 0, [⟨0, 0xFF, .rw, .kBank 2⟩]⟩
def space1 : BusSpace := ⟨16, 0xFFFF, .last, 0, 0x77, [⟨0xC000, 0xC7FF, .rw, .kMem 1 0⟩]⟩
def spaceNone : BusSpace := ⟨16, 0xFFFF, .const, 0xFF, 0, []⟩
def wiring : PortWiring := ⟨3, 2, 1, 3, 1, 0, 2, 4, 7, true, 4, 5, 1, 2, 3, 0, 1⟩

/-- The fabric with nothing configured. -/
def blank : State := { State.reset with
  cpus := [⟨space0, spaceIo, []⟩, ⟨space1, spaceNone, []⟩, ⟨spaceNone, spaceNone, []⟩, ⟨spaceNone, spaceNone, []⟩] }

/-- The fabric configured, in `PHASE = CONFIG`. -/
def conf : State := { blank with
  regions := [(0, rom), (1, ram)]
  banks := [(0, bank0), (1, bank1), (2, bank2)]
  latches := [(0, latch0), (1, latch1), (2, latch2), (3, latch3)]
  scanEntries := [⟨240, 0, 0, .hold, true, 0xFD⟩, ⟨64, 0, 0, .hold, true, 0xFF⟩]
  perTimers := [⟨2, 1, .pulse, false, 0, 489, 0⟩] }

/-- The fabric running, with a peripheral, a pulsed line and a held line at CPU 0. -/
def run : State := { conf with
  phase := .run
  pcfg := some wiring
  cpus := [⟨space0, spaceIo, [(0, ⟨.pulse, true, 0x42⟩), (1, ⟨.hold, true, 0xFD⟩)]⟩, ⟨space1, spaceNone, []⟩,
    ⟨spaceNone, spaceNone, []⟩, ⟨spaceNone, spaceNone, []⟩]
  p0 := 0x01
  p1 := 0x5A
  scanV := 63 }

/-- The running fabric with a snapshot of itself in slot 0 and one of another fabric in slot 1. -/
def saved : State := { run with snaps := [(0, run.snapshot), (1, { run.snapshot with scanV := 256 })] }

/-- What an operation leaves has a property. -/
def after (o : Res) (p : State → Bool) : Bool :=
  match o with
  | .next t => p t
  | .fault _ => false
  | .refused _ => false

/-- The outcome is this refusal. -/
def refusedWith (o : Host.Outcome State Fault Refusal) (r : Refusal) : Bool :=
  match o with
  | .next _ => false
  | .fault _ => false
  | .refused q => q == r

/-- The small fabric meets the invariants, so that a statement with one of them as a premise speaks of it. -/
theorem run_meets_invariants : saved.canonicalOk = true ∧ saved.shapeOk = true ∧ saved.refsOk = true := by decide

/-! ## One operation, with the result the spec gives -/

/-- Vector S1.3: `BANK[0].active <- 5`; and rule R141: an index past the end of a CLAMP bank selects the last entry. -/
theorem test_bankSelect : after (exec (.bankSelect 0 31) run) (fun t =>
    (Table.get t.banks 0).map (·.active) == some 31) = true ∧
    after (exec (.bankSelect 0 32) run) (fun t => (Table.get t.banks 0).map (·.active) == some 31) = true := by decide

/-- Rule R145: the mask comes before the check, so index 0 of a bank with mask 1 selects entry 1; R141: with NOOP an
index out of range leaves the entry. -/
theorem test_bankSelect_xor : after (exec (.bankSelect 1 0) run) (fun t =>
    (Table.get t.banks 1).map (·.active) == some 1) = true ∧
    after (exec (.bankSelect 1 4) run) (fun t => (Table.get t.banks 1).map (·.active) == some 0) = true := by decide

/-- Rule R142: entry 1 of a bank of windows of 0x100 bytes, offset 0x23, is region byte 0x123; offset 0x100 is outside. -/
theorem test_bankRead : after (exec (.bankRead 2 0x23) run) (fun t => t.out.result == .byte 0xA5) = true ∧
    refusedWith (exec (.bankRead 2 0x100) run) (.offsetOutsideWindow 2 0x100) = true := by decide

/-- Rule R143: a write through a window is seen in the region; into ROM it is discarded. -/
theorem test_bankWrite : after (exec (.bankWrite 2 0xFF 0x9C) run) (fun t => t.byteAt 1 0x1FF == some 0x9C) = true ∧
    after (exec (.bankWrite 0 0 0x9C) run) (fun t => Table.get t.regions 0 == some rom) = true := by decide

/-- Vectors S7.1 and S7.3: the first write raises the line of CPU 2, the second stores the value. -/
theorem test_latchWrite : after (exec (.latchWrite 0 0x42) run) (fun t =>
    (t.line 2 0).level == .assert && (Table.get t.latches 0).map (·.value) == some 0x42) = true := by decide

/-- Vectors S3.3 and S2.4: a read clears the flag in mode READ_CLEARS and not in mode SEPARATE_ACK. -/
theorem test_latchRead : after (exec (.latchRead 1) run) (fun t =>
    t.out.result == .byte 0x22 && (Table.get t.latches 1).map (·.pending) == some false) = true ∧
    after (exec (.latchRead 2) run) (fun t => (Table.get t.latches 2).map (·.pending) == some true) = true := by decide

/-- Vector S2.8: an acknowledge clears the flag in mode SEPARATE_ACK. -/
theorem test_latchAck : after (exec (.latchAck 2) run) (fun t =>
    (Table.get t.latches 2).map (·.pending) == some false) = true := by decide

theorem test_latchPendingR : after (exec (.latchPendingR 2) run) (fun t => t.out.result == .flag true) = true := by decide

/-- Rules R182 and R60: a byte of shared RAM, and open bus with the constant 0xFF. -/
theorem test_busRead : after (exec (.busRead 0 0xC010) run) (fun t => t.out.result == .byte 0x5A) = true ∧
    after (exec (.busRead 0 0xFFFF) run) (fun t => t.out.result == .byte 0xFF) = true := by decide

/-- Rule R60: with policy LAST an unmapped read gives the last decoded value; vector of R184: the I/O mask comes before
the lookup. -/
theorem test_busRead_last : after (exec (.busRead 1 0) run) (fun t => t.out.result == .byte 0x77) = true ∧
    after (exec (.ioRead 0 0x1223) run) (fun t => t.out.result == .byte 0xA5) = true := by decide

/-- The example of R183: a write of the data port is a LATCH.WRITE; a write sets the last decoded value (R60). -/
theorem test_busWrite : after (exec (.busWrite 0 0xD001 0x42) run) (fun t =>
    (t.line 2 0).level == .assert && t.ldv? 0 .mem == some 0x42) = true := by decide

theorem test_ioWrite : after (exec (.ioWrite 0 0xFF7F 0x07) run) (fun t => t.byteAt 1 0x17F == some 0x07) = true := by
  decide

/-- R190: bit i of the status register is the flag of latch i; here latches 1 and 2 are pending. -/
theorem test_status : after (exec (.busRead 0 0xD003) run) (fun t => t.out.result == .byte 0b0110) = true := by decide

theorem test_regionDefine : after (exec (.regionDefine 0 true 1) conf) (fun t =>
    t.phase == .aborted && t.error.map (·.code) == some .dup) = true := by decide

/-- The examples of R211, R212 and R214. -/
theorem test_lineClear : after (exec (.lineClear 0 1) run) (fun t => t.line 0 1 == LineRec.cleared) = true := by decide
theorem test_lineAssert : after (exec (.lineAssert 2 0 false 0) run) (fun t => t.line 2 0 == ⟨.assert, false, 0⟩) = true
    := by decide
theorem test_lineHold : after (exec (.lineHold 0 0 true 0xFD) run) (fun t => t.line 0 0 == ⟨.hold, true, 0xFD⟩) = true
    := by decide

/-- Vector S7.2 and rule R215: the poll gives the lines that are not CLEAR and clears the pulsed ones. -/
theorem test_cpuPoll : after (exec (.cpuPoll 0) run) (fun t =>
    t.out.result == .lines [(0, ⟨.pulse, true, 0x42⟩), (1, ⟨.hold, true, 0xFD⟩)] && (t.line 0 0).level == .clear &&
      (t.line 0 1).level == .hold) = true := by decide

/-- Rule R216: an acknowledge clears a held line and no other. -/
theorem test_cpuIack : after (exec (.cpuIack 0 1) run) (fun t => (t.line 0 1).level == .clear) = true ∧
    after (exec (.cpuIack 0 0) run) (fun t => (t.line 0 0).level == .pulse) = true := by decide

/-- Vectors S4.2 and S4.6: scanline 64 holds IRQ of CPU 0 with vector 0xFF; after scanline 255 comes 0 of the next
frame. -/
theorem test_scanAdvance : after (exec .scanAdvance run) (fun t => t.scanV == 64 && t.line 0 0 == ⟨.hold, true, 0xFF⟩) =
    true ∧ after (exec .scanAdvance { run with scanV := 255 }) (fun t => t.scanV == 0 && t.scanF == 1) = true := by decide

/-- Vectors T1 and T5. -/
theorem test_perTick : after (exec (.perTick 0) run) (fun t =>
    t.line 2 1 == ⟨.pulse, false, 0⟩ && t.perTimers.map (·.ticks) == [1]) = true ∧
    refusedWith (exec (.perTick 1) run) (.noSuchTimer 1) = true := by decide

/-- Vectors S8.2 and S8.4: a rising edge of bit 1 sends P1 through latch 3; the same byte again sends nothing. -/
theorem test_p0Write : after (exec (.p0Write 0x02) { run with p0 := 0 }) (fun t =>
    (Table.get t.latches 3).map (·.value) == some 0x5A && t.line 0 1 == ⟨.pulse, false, 0⟩) = true ∧
    after (exec (.p0Write 0x02) { run with p0 := 2 }) (fun t => Table.get t.latches 3 == some latch3) = true := by decide

/-- Rule R251: a falling edge of bit 0 acknowledges latch 2. -/
theorem test_p0Write_ack : after (exec (.p0Write 0x00) run) (fun t =>
    (Table.get t.latches 2).map (·.pending) == some false) = true := by decide

/-- Rule R258 with DIP bytes 0xFE and 0xFF: bit 0 of the inverted first byte is 1; latch 2 is pending at bit 4. -/
theorem test_p3Read : after (exec .p3Read { run with extIn := [0xFE, 0xFF] }) (fun t => t.out.result == .byte 0x11) =
    true := by decide

/-- The example of R254: bit 7 asserts RESET of CPU 1, which then is held (R221). -/
theorem test_p3Write : after (exec (.p3Write 0x80) run) (fun t => t.line 1 2 == ⟨.assert, false, 0⟩ && t.held 1) = true :=
  by decide

theorem test_p1Read : after (exec .p1Read run) (fun t => t.out.result == .byte 0x33) = true := by decide
theorem test_p2Read : after (exec .p2Read { run with extIn := [0x9A] }) (fun t => t.out.result == .byte 0x9A) = true := by
  decide

/-- Vector YP1: a run-time operation before SYS.START is refused. -/
theorem test_wrong_phase : refusedWith (exec (.busRead 0 0) State.reset) (.wrongPhase .config) = true := by decide

/-- A CPU that its RESET line holds issues no operation (R221). -/
theorem test_held : refusedWith (step { run with
    queue := [⟨false, [0x3101000000000000]⟩]
    cpus := [⟨space0, spaceIo, []⟩, ⟨space1, spaceNone, [(2, ⟨.assert, false, 0⟩)]⟩] }) (.cpuHeld 1) = true := by decide

/-- Rule R64: a whole instruction of CPU 1, its poll and a read, with a turn of the scanline timer issued behind it. -/
def slot1 : State := { run with queue :=
  [⟨true, [0x4401000000000000, 0x3101000000000000]⟩, ⟨true, [0x4700000000000000]⟩] }

/-- After the poll the rest of the instruction is still first, and the instruction is in progress (R64). -/
theorem test_slot_open : after (step slot1) (fun t => t.slot == some (.cpu 1) && t.queue ==
    [⟨true, [0x3101000000000000]⟩, ⟨true, [0x4700000000000000]⟩]) = true := by decide

/-- Inside an instruction there is no operation of another CPU and no second poll, and a whole instruction does not
begin without its poll (R64, R215). -/
theorem test_slot_breach :
    refusedWith (step { slot1 with slot := some (.cpu 0) }) (.outsideSlot (.cpu 1)) = true ∧
    refusedWith (step { slot1 with slot := some (.cpu 1) }) (.outsideSlot (.cpu 1)) = true ∧
    refusedWith (step { run with queue := [⟨true, [0x3101000000000000]⟩] }) (.outsideSlot (.cpu 1)) = true := by decide

/-- Rule R221: CPU 1, pulsed on RESET, has its poll and a read in the turn at the front. -/
def pulsed1 : State := { slot1 with
  cpus := [⟨space0, spaceIo, []⟩, ⟨space1, spaceNone, [(2, ⟨.pulse, false, 0⟩)]⟩, ⟨spaceNone, spaceNone, []⟩,
    ⟨spaceNone, spaceNone, []⟩] }

/-- Rule R221: CPU 1 has been reset and has not polled since; its next turn is a lone read. -/
def restarted1 : State := { run with restarts := [1], queue := [⟨false, [0x3101000000000000]⟩] }

/-- The poll that sees the pulse clears it, the instruction it would have opened is gone, and the CPU restarts with a
poll (R221). -/
theorem test_pulse_restarts : after (step pulsed1) (fun t => (t.line 1 2).level == .clear && t.slot == none &&
    t.queue == [⟨true, [0x4700000000000000]⟩] && t.restarts == [1]) = true := by decide

/-- A CPU that was held is due its poll once it is released: nothing else of it goes first (R221). -/
theorem test_released_polls_first :
    after (step { run with
      queue := [⟨false, [0x4001020000000000]⟩]
      cpus := [⟨space0, spaceIo, []⟩, ⟨space1, spaceNone, [(2, ⟨.hold, false, 0⟩)]⟩] })
      (fun t => !t.held 1 && t.restarts == [1]) = true ∧
    refusedWith (step restarted1) (.outsideSlot (.cpu 1)) = true ∧
    after (step { restarted1 with queue := [⟨false, [0x4401000000000000]⟩] }) (fun t => t.restarts == []) = true := by
  decide

/-- Rule R282: after SYS.RESET the next step of each CPU is its poll, in a turn that is not whole too; once CPU 1 has
polled, the other three are still to. -/
theorem test_sysReset_polls_first :
    after (step { run with queue := [⟨false, [0x0100000000000000]⟩] }) (fun t => t.restarts == [0, 1, 2, 3] &&
      refusedWith (step { t with queue := [⟨false, [0x3101000000000000]⟩] }) (.outsideSlot (.cpu 1)) &&
      after (step { t with queue := [⟨false, [0x4401000000000000, 0x3101000000000000]⟩] }) (fun u =>
        u.restarts == [0, 2, 3] && after (step u) (fun v => v.slot == none))) = true := by decide

/-- Rule R257: selector values 0, 1 and 2 poll the three sources of the wiring, which are inputs 1, 2 and 3 here. -/
theorem test_p2_sources :
    (port2Byte wiring { run with p0 := 0x00 }).1 = Config.freeByte (.input 1) run.draws ∧
    (port2Byte wiring { run with p0 := 0x04 }).1 = Config.freeByte (.input 2) run.draws ∧
    (port2Byte wiring { run with p0 := 0x08 }).1 = Config.freeByte (.input 3) run.draws ∧
    (port2Byte wiring { run with p0 := 0x0C }).1 = Config.freeByte .port2 run.draws := ⟨rfl, rfl, rfl, rfl⟩

/-- The first operation after reset runs from the word placed for it (log 1). -/
theorem test_withFetchWord : after (step (State.reset.withFetchWord 64 0x0400000000000000)) (fun t =>
    t.phase == .run && t.queue == [] && t.slot == none) = true := by decide

/-- Rule R281: the phase becomes RUN and every flag is cleared. -/
theorem test_sysStart : after (exec .sysStart conf) (fun t =>
    t.phase == .run && t.out.cpusReset && (Table.get t.latches 1).map (·.pending) == some false) = true := by decide

/-- Rule R282: lines and ports are cleared, the active entry of a bank is kept. -/
theorem test_sysReset : after (exec .sysReset run) (fun t =>
    t.line 0 1 == LineRec.cleared && t.p1 == 0 && (Table.get t.banks 0).map (·.active) == some 5) = true := by decide

/-- Rules R283 and R284: a restore gives back what was saved; a slot never saved is refused (vector Y16). -/
theorem test_sysSave : after (runOps [.sysSave 0, .p1Write 0, .bankWrite 2 0x23 0, .sysRestore 0] run) (fun t =>
    t.p1 == 0x5A && t.byteAt 1 0x123 == some 0xA5) = true := by decide
theorem test_sysRestore_unsaved : refusedWith (exec (.sysRestore 0) run) (.noSnapshot 0) = true := by decide

/-- The error code a configuration operation of the small fabric raises. -/
def raised (i : Instr) (s : State) : Option ErrCode :=
  match exec i s with
  | .next t => t.error.map (·.code)
  | .fault _ => none
  | .refused _ => none

/-- Rule R140: 33 windows of 0x2000 bytes do not fit 0x40000 bytes, 32 do. -/
theorem test_bankConfigure : raised (.bankConfigure 9 .clamp 0 0 33 0x2000 0) conf = some .bankRange ∧
    raised (.bankConfigure 9 .clamp 0 0 32 0x2000 0) conf = none := by decide

/-- Rule R160: a target CPU that does not exist; a target field without a target. -/
theorem test_latchConfigure : raised (.latchConfigure 9 .separateAck true .level false false 4 0 0) conf = some .unit ∧
    raised (.latchConfigure 9 .separateAck false .level false false 0 0 1) conf = some .value := by decide

/-- Rule R180: a range that meets another one, and a bank that already has a range. -/
theorem test_busRegisterRange : raised (.busRegisterRange 0 .r .mem 0x9FFF 0xA000 (.kMem 0 0)) conf = some .overlap ∧
    raised (.busRegisterRange 1 .r .mem 0x8000 0x9FFF (.kBank 0)) conf = some .dup := by decide

/-- Rule R181: a constant with policy LAST. -/
theorem test_busSetPolicy : raised (.busSetPolicy 0 .last .mem 0xFFFF 1) conf = some .value := by decide

/-- Rules R217, R219 and R250. -/
theorem test_scanConfigure : raised (.scanConfigure 0 0 256 .hold false 0) conf = some .value := by decide
theorem test_perConfigure : raised (.perConfigure 0 0 0 .pulse false 0) conf = some .value := by decide
theorem test_portConfigure : raised (.portConfigure wiring) { conf with pcfg := some wiring } = some .dup ∧
    raised (.portConfigure wiring) conf = none := by decide

/-! ## Witnesses: a state and operands that meet the hypotheses of each obligation, clause by clause -/

theorem witness_DecodeOfEncode : (Instr.lineAssert 255 255 true 255).wf = true := by decide

theorem witness_DecodeOnlyEncodings : decode [0x0400000000000000, 0] = some (.sysStart, [0]) := by decide

theorem witness_StepRunsOperation : slot1.queue =
    ⟨true, [0x4401000000000000, 0x3101000000000000]⟩ :: [⟨true, [0x4700000000000000]⟩] ∧
    decode [0x4401000000000000, 0x3101000000000000] = some (.cpuPoll 1, [0x3101000000000000]) ∧
    (slot1.line 1 2).level ≠ .pulse ∧ slot1.heldIssuer (issuer (.cpuPoll 1) slot1) = none ∧
    slot1.inSlot true (.cpuPoll 1) (issuer (.cpuPoll 1) slot1) = true ∧ (∃ t, step slot1 = .next t) ∧
    pulsed1.queue = slot1.queue ∧ (pulsed1.line 1 2).level = .pulse ∧
    pulsed1.heldIssuer (issuer (.cpuPoll 1) pulsed1) = none ∧
    pulsed1.inSlot true (.cpuPoll 1) (issuer (.cpuPoll 1) pulsed1) = true ∧ ∃ t, step pulsed1 = .next t :=
  ⟨rfl, by decide, by decide, by decide, by decide, ⟨_, rfl⟩, rfl, by decide, by decide, by decide, _, rfl⟩

theorem witness_StepRunsOperation_reset : decode [0x0100000000000000] = some (.sysReset, []) ∧
    ∃ t, step { run with queue := [⟨false, [0x0100000000000000]⟩] } = .next t := ⟨by decide, _, rfl⟩

theorem witness_StepStops : run.queue = [] ∧ decode [0x0600000000000000] = none ∧
    decode [0x3101000000000000] = some (.busRead 1 0, []) ∧ issuer (.busRead 1 0) run = .cpu 1 ∧
    (State.line { run with cpus := [⟨space0, spaceIo, []⟩, ⟨space1, spaceNone, [(2, ⟨.hold, false, 0⟩)]⟩] } 1 2).level =
      .hold ∧
    run.heldIssuer (issuer (.busRead 1 0) run) = none ∧ run.slot = none ∧ Agent.isCpu (.cpu 1) = true ∧
    opensSlot (.busRead 1 0) = false ∧ State.heldIssuer { slot1 with slot := some (.cpu 0) } (.cpu 1) = none ∧
    Agent.cpu 1 ≠ Agent.cpu 0 ∧ restarted1.queue = [⟨false, [0x3101000000000000]⟩] ∧ restarted1.slot = none ∧
    restarted1.heldIssuer (issuer (.busRead 1 0) restarted1) = none ∧ 1 ∈ restarted1.restarts := by decide

theorem witness_WrongPhaseRefused : run.phase ≠ phaseOf .sysStart ∧ conf.phase ≠ phaseOf .sysReset := by decide

theorem witness_PowerOnValues : (32 : Nat) ≤ 32 ∧ (3 : Nat) < 4 := by decide

theorem witness_RegionDefineEffect : conf.phase = .config ∧ (Table.get conf.regions 1).isSome = true ∧
    Table.get conf.regions 255 = none ∧ (0xFFFFFFFF : Word32) ≠ 0 := by decide

theorem witness_SysStartEffect : conf.phase = .config := by decide

theorem witness_SysResetEffect : run.phase = .run := by decide

theorem witness_SysSaveEffect : run.phase = .run ∧ Table.wf run.regions = true ∧ Table.get run.regions 1 = some ram := by
  decide

/-- Slot 0 holds a snapshot that fits; the one of slot 1 has a raster position that is no scanline. -/
theorem witness_SysRestoreEffect : saved.phase = .run ∧ Table.get saved.snaps 2 = none ∧ saved.tablesOk = true ∧
    (∃ n, Table.get saved.snaps 1 = some n ∧ n.fits saved = false ∧ n.Misfits saved) ∧
    (∃ n, Table.get saved.snaps 0 = some n ∧ n.fits saved = true) ∧ run.snapshot.fits saved = true ∧
    Table.get run.snapshot.active 0 = some 5 ∧ Table.get run.snapshot.latchValue 1 = some 0x22 ∧
    Table.get run.snapshot.latchPending 1 = some true ∧ Table.get run.snapshot.regions 1 = some ⟨0x800, ram.bytes⟩ :=
  ⟨by decide, by decide, by decide,
    ⟨_, rfl, by decide, .inr (.inr (.inr (.inr (.inr (.inr (.inr (.inl (by decide))))))))⟩, ⟨_, rfl, by decide⟩,
    by decide, by decide, by decide, by decide, by decide⟩

/-- The other conditions of R284, each alone: a bank, a latch and a region without a field, a field of a region that is
immutable, a CPU and a timer too few, an active entry the bank has not, a byte string of the wrong length. -/
theorem witness_SysRestoreEffect_misfits : ∀ n ∈ [{ run.snapshot with active := [(0, 5), (1, 0)] },
    { run.snapshot with latchValue := [] }, { run.snapshot with latchPending := [] },
    { run.snapshot with regions := [] }, { run.snapshot with regions := [(0, ⟨0x40000, []⟩), (1, ⟨0x800, []⟩)] },
    { run.snapshot with cpus := [] }, { run.snapshot with ticks := [] },
    { run.snapshot with active := [(0, 5), (1, 4), (2, 1)] }, { run.snapshot with regions := [(1, ⟨0x7FF, []⟩)] }],
    n.fits saved = false := by decide

theorem witness_SaveRestoreSave : State.phase { saved with p0 := 0xFF } = .run ∧ run.tablesOk = true ∧
    State.tablesOk { saved with p0 := 0xFF } = true ∧ run.banksOk = true ∧ run.rasterOk = true ∧
    SameSetup run { saved with p0 := 0xFF } ∧ Table.get saved.snaps 0 = some run.snapshot :=
  ⟨by decide, by decide, by decide, by decide, by decide,
    ⟨fun _ => rfl, fun _ => rfl, fun _ => rfl, rfl, fun _ _ => rfl, rfl, rfl, rfl, rfl⟩, rfl⟩

theorem witness_BankConfigureEffect : conf.phase = .config ∧ (Table.get conf.banks 2).isSome = true ∧
    Table.get conf.banks 3 = none ∧ Table.get conf.regions 2 = none ∧ Table.get conf.regions 0 = some rom ∧
    rom.size < (0 + 33) * 0x2000 ∧ (1 + 31) * 0x2000 ≤ rom.size := by decide

theorem witness_BankSelectEffect : run.phase = .run ∧ Table.get run.banks 3 = none ∧ Table.get run.banks 1 = some bank1 ∧
    (2 ^^^ bank1.xor : Word32).toNat < bank1.count ∧ ¬(5 ^^^ bank1.xor : Word32).toNat < bank1.count := by decide

theorem witness_BankReadEffect : run.phase = .run ∧ Table.get run.banks 3 = none ∧ Table.get run.banks 2 = some bank2 ∧
    bank2.wsize ≤ (0x100 : Word32).toNat ∧ (0x23 : Word32).toNat < bank2.wsize ∧
    run.byteAt bank2.region ((bank2.start + bank2.active) * bank2.wsize + 0x23) = some 0xA5 := by decide

theorem witness_BankWriteEffect : run.phase = .run ∧ Table.get run.banks 3 = none ∧ Table.get run.banks 2 = some bank2 ∧
    bank2.wsize ≤ (0x100 : Word32).toNat ∧ (0xFF : Word32).toNat < bank2.wsize ∧
    Table.get run.regions bank2.region = some ram ∧ (bank2.start + bank2.active) * bank2.wsize + 0xFF < ram.size ∧
    Table.get run.banks 0 = some bank0 ∧ (0x1FFF : Word32).toNat < bank0.wsize ∧
    Table.get run.regions bank0.region = some rom ∧ (bank0.start + bank0.active) * bank0.wsize + 0x1FFF < rom.size := by
  decide

theorem witness_SelectThenReadLaw : run.phase = .run ∧ Table.get run.banks 1 = some bank1 ∧ bankOk run bank1 = true ∧
    (2 ^^^ bank1.xor : Word32).toNat < bank1.count ∧ (0x3FFF : Word32).toNat < bank1.wsize := by decide

theorem witness_LatchConfigureEffect : conf.phase = .config ∧ (Table.get conf.latches 3).isSome = true ∧
    Table.get conf.latches 4 = none ∧ conf.ncpu ≤ (4 : Byte).toNat ∧ (3 : Byte).toNat < conf.ncpu ∧
    ¬(Fire.level = .level ∧ false = false ∧ false = false ∧ (0 : Byte) = 0 ∧ (0 : Byte) = 0 ∧ (1 : Byte) = 0) ∧
    (Fire.level = .level ∧ false = false ∧ false = false ∧ (0 : Byte) = 0 ∧ (0 : Byte) = 0 ∧ (0 : Byte) = 0) := by decide

theorem witness_LatchWriteEffect : conf.phase ≠ .run ∧ run.phase = .run ∧ Table.get run.latches 4 = none ∧
    Table.get run.latches 0 = some latch0 ∧ (latch0.hasTarget = true → latch0.tcpu < run.ncpu) := by decide

theorem witness_LatchReadEffect : run.phase = .run ∧ Table.get run.latches 4 = none ∧
    Table.get run.latches 1 = some latch1 ∧ latch1.mode = .readClears ∧ Table.get run.latches 0 = some latch0 ∧
    latch0.mode ≠ .readClears := by decide

theorem witness_LatchAckEffect : run.phase = .run ∧ Table.get run.latches 4 = none ∧ Table.get run.latches 2 = some latch2 ∧
    (latch2.mode = .separateAck ∧ latch2.pending = true) ∧ Table.get run.latches 0 = some latch0 ∧
    latch0.pending = false := by decide

theorem witness_LatchPendingEffect : conf.phase ≠ .run ∧ run.phase = .run ∧ Table.get run.latches 4 = none ∧
    Table.get run.latches 2 = some latch2 := by decide

theorem witness_HandshakeLaws : run.phase = .run ∧ Table.get run.latches 0 = some latch0 ∧ latch0.mode = .separateAck ∧
    Table.get run.latches 1 = some latch1 ∧ latch1.mode = .readClears := by decide

theorem witness_PendingChangesOnlySo :
    (∃ t k', exec (.latchWrite 0 7) run = .next t ∧ Table.get run.latches 0 = some latch0 ∧
      Table.get t.latches 0 = some k' ∧ latch0.pending = false ∧ k'.pending = true) ∧
    ∃ t k', exec (.latchAck 2) run = .next t ∧ Table.get run.latches 2 = some latch2 ∧
      Table.get t.latches 2 = some k' ∧ latch2.pending = true ∧ k'.pending = false :=
  ⟨⟨_, _, rfl, rfl, rfl, rfl, rfl⟩, ⟨_, _, rfl, rfl, rfl, rfl, rfl⟩⟩

theorem witness_RegisterRangeEffect : conf.phase = .config ∧ conf.ncpu ≤ (4 : Byte).toNat ∧
    conf.space? 1 .mem = some space1 ∧ (0xC7FF : Word32).toNat < (0xC800 : Word32).toNat ∧
    2 ^ space1.addrW ≤ (0x10000 : Word32).toNat ∧ (0xFFFF : Word32).toNat < 2 ^ space1.addrW ∧
    (∃ e ∈ space1.map, e.lo ≤ 0xC7FF ∧ 0xC7FF ≤ e.hi) ∧ (∀ e ∈ space1.map, 0xFFFF < e.lo ∨ e.hi < 0xC800) ∧
    TargetRaises conf 0xC800 0xFFFF (.kMem 1 0) .value ∧ (∀ code, ¬TargetRaises conf 0xC800 0xFFFF (.kMem 0 0) code) ∧
    (∀ e ∈ space1.map, 0x3FFF < e.lo ∨ e.hi < 0) ∧ ∀ code, ¬TargetRaises conf 0 0x3FFF (.kBank 1) code := by
  refine ⟨by decide, by decide, by decide, by decide, by decide, by decide, by decide, by decide,
    .inr ⟨ram, rfl, by decide, rfl⟩, fun code h => ?_, by decide, fun code h => ?_⟩
  · rcases h with ⟨h, _⟩ | ⟨r, hr, hs, _⟩
    · exact absurd h (by decide)
    · cases (show some rom = some r from hr)
      exact absurd hs (by decide)
  · rcases h with ⟨h, _⟩ | ⟨k, hk, ⟨hb, _⟩ | ⟨_, hw, _⟩⟩
    · exact absurd h (by decide)
    · cases (show some bank1 = some k from hk)
      exact absurd rfl hb
    · cases (show some bank1 = some k from hk)
      exact absurd rfl hw

/-- Every error of a target that a rule of R180 names is met: one concrete target for each. -/
theorem witness_RegisterRangeEffect_targets :
    TargetRaises conf 0 0 (.kMem 9 0) .unit ∧ TargetRaises conf 0 0 (.kBank 9) .unit ∧
    TargetRaises conf 0 0x1FFF (.kBank 0) .dup ∧ TargetRaises conf 0 0x3FFE (.kBank 1) .value ∧
    TargetRaises conf 0 0 (.kLatchData 9) .unit ∧ TargetRaises conf 0 0 (.kLatchAck 9) .unit ∧
    TargetRaises conf 0 0 (.kStatus 0 1 2 9 0xF 0) .unit ∧ TargetRaises conf 0 0 (.kStatus 0 1 2 3 0x7 0) .value ∧
    TargetRaises conf 0 0 (.kBankSel 9 0 0xFF) .unit ∧ TargetRaises conf 0 0 (.kBankSel 0 8 0xFF) .value ∧
    TargetRaises conf 0 0 (.kLine 4 0 1 0 false) .unit ∧ TargetRaises conf 0 0 (.kLine 3 0 4 0 false) .value ∧
    TargetRaises conf 0 0 (.kLineBit 4 2 0 1) .unit ∧ TargetRaises conf 0 0 (.kLineBit 3 2 8 1) .value ∧
    TargetRaises conf 0 0 (.kLineBit 3 2 0 2) .value := by
  refine ⟨.inl (by decide), .inl (by decide), .inr ⟨bank0, rfl, .inl (by decide)⟩,
    .inr ⟨bank1, rfl, .inr (by decide)⟩, by unfold TargetRaises; decide, by unfold TargetRaises; decide,
    .inl ⟨⟨3, 9, by decide⟩, rfl⟩, .inr ⟨fun ⟨i, l, h⟩ => ?_, ⟨3, 3, by decide⟩, rfl⟩, .inl (by decide),
    .inr (by decide), .inl (by decide), .inr (by decide), .inl (by decide), .inr (by decide), .inr (by decide)⟩
  obtain ⟨hm, hv, hl⟩ := h
  simp only [List.mem_cons, Prod.mk.injEq, List.not_mem_nil, or_false] at hm
  rcases hm with ⟨rfl, rfl⟩ | ⟨rfl, rfl⟩ | ⟨rfl, rfl⟩ | ⟨rfl, rfl⟩ <;> revert hl hv <;> decide

theorem witness_SetPolicyEffect : conf.phase = .config ∧ conf.ncpu ≤ (4 : Byte).toNat ∧ (3 : Byte).toNat < conf.ncpu ∧
    (1 : Byte) ≠ 0 ∧ conf.space? 3 .io = some spaceNone := by decide

theorem witness_ResolveAnswers : space0.rangesOk = true ∧
    ((0x9FFF : Word32).toNat % 2 ^ space0.addrW) &&& space0.mask.toNat = 0x9FFF ∧
    space0.resolve 0x9FFF .rd = some (⟨0x8000, 0x9FFF, .r, .kBank 0⟩, 0x1FFF) ∧ space0.resolve 0x9FFF .wr = none ∧
    space0.resolve 0xA000 .rd = none := by decide

theorem witness_BusReadDispatch : conf.phase ≠ .run ∧ run.phase = .run ∧ run.ncpu ≤ (4 : Byte).toNat ∧
    run.space? 0 .mem = some space0 ∧ space0.resolve 0xFFFF .rd = none ∧
    ∃ u, space0.resolve 0xC010 .rd = some (⟨0xC000, 0xC7FF, .rw, .kMem 1 0⟩, 0x10) ∧
      readTarget (if space0.policy = .const then space0.obc else space0.ldv) (.kMem 1 0) 0x10
        { run with out := Output.empty } = .next (0x5A, u) :=
  ⟨by decide, by decide, by decide, by decide, by decide, ⟨_, by decide, rfl⟩⟩

theorem witness_BusWriteDispatch : conf.phase ≠ .run ∧ run.phase = .run ∧ run.ncpu ≤ (4 : Byte).toNat ∧
    run.space? 0 .mem = some space0 ∧ space0.resolve 0x8000 .wr = none ∧
    ∃ u, space0.resolve 0xC010 .wr = some (⟨0xC000, 0xC7FF, .rw, .kMem 1 0⟩, 0x10) ∧
      writeTarget (.kMem 1 0) 0x10 7 { run with out := Output.empty } = .next u :=
  ⟨by decide, by decide, by decide, by decide, by decide, ⟨_, by decide, rfl⟩⟩

theorem witness_MemoryTargetRead : run.phase = .run ∧ run.space? 0 .mem = some space0 ∧
    space0.resolve 0xC010 .rd = some (⟨0xC000, 0xC7FF, .rw, .kMem 1 0⟩, 0x10) ∧ run.byteAt 1 (0 + 0x10) = some 0x5A ∧
    run.space? 0 .io = some spaceIo ∧ spaceIo.resolve 0x123 .rd = some (⟨0, 0xFF, .rw, .kBank 2⟩, 0x23) ∧
    Table.get run.banks 2 = some bank2 ∧ 0x23 < bank2.wsize ∧
    run.byteAt bank2.region ((bank2.start + bank2.active) * bank2.wsize + 0x23) = some 0xA5 := by decide

theorem witness_MemoryTargetWrite : run.phase = .run ∧ run.space? 0 .mem = some space0 ∧
    space0.resolve 0xC7FF .wr = some (⟨0xC000, 0xC7FF, .rw, .kMem 1 0⟩, 0x7FF) ∧ Table.get run.regions 1 = some ram ∧
    0 + 0x7FF < ram.size ∧ run.space? 0 .io = some spaceIo ∧
    spaceIo.resolve 0xFF .wr = some (⟨0, 0xFF, .rw, .kBank 2⟩, 0xFF) ∧ Table.get run.banks 2 = some bank2 ∧
    0xFF < bank2.wsize ∧ (bank2.start + bank2.active) * bank2.wsize + 0xFF < ram.size := by decide

theorem witness_RegisterTargetRead : run.phase = .run ∧ run.space? 0 .mem = some space0 ∧
    space0.resolve 0xD001 .rd = some (range 0xD001 (.kLatchData 0), 0) ∧ Table.get run.latches 0 = some latch0 ∧
    space0.resolve 0xD002 .rd = some (range 0xD002 (.kLatchAck 2), 0) ∧ Table.get run.latches 2 = some latch2 ∧
    space0.resolve 0xD003 .rd = some (range 0xD003 (.kStatus 0 1 2 3 0xF 0), 0) ∧
    (∀ e ∈ [(0, (0 : Byte)), (1, 1), (2, 2), (3, 3)], (0xF : BitVec 4).getLsbD e.1 = true → run.hasLatch e.2 = true) ∧
    space0.resolve 0xD000 .rd = some (range 0xD000 (.kBankSel 0 0 0xFF), 0) ∧
    space0.resolve 0xD008 .rd = some (range 0xD008 (.kInput 0), 0) ∧
    space0.resolve 0xD00A .rd = some (⟨0xD009, 0xD00A, .rw, .kSink 0⟩, 1) ∧
    run.extIn = [] ∧ State.extIn { run with extIn := [0x9A] } = [0x9A] := by decide

theorem witness_RegisterTargetWrite : run.phase = .run ∧ run.space? 0 .mem = some space0 ∧
    space0.resolve 0xD001 .wr = some (range 0xD001 (.kLatchData 0), 0) ∧ Table.get run.latches 0 = some latch0 ∧
    (latch0.hasTarget = true → latch0.tcpu < run.ncpu) ∧
    space0.resolve 0xD002 .wr = some (range 0xD002 (.kLatchAck 2), 0) ∧ Table.get run.latches 2 = some latch2 ∧
    space0.resolve 0xD003 .wr = some (range 0xD003 (.kStatus 0 1 2 3 0xF 0), 0) ∧
    space0.resolve 0xD008 .wr = some (range 0xD008 (.kInput 0), 0) ∧
    space0.resolve 0xD000 .wr = some (range 0xD000 (.kBankSel 0 0 0xFF), 0) ∧ Table.get run.banks 0 = some bank0 ∧
    space0.resolve 0xD006 .wr = some (range 0xD006 (.kLine 1 1 2 0 false), 0) ∧ (1 : Byte).toNat < run.ncpu ∧
    space0.resolve 0xD007 .wr = some (range 0xD007 (.kLineBit 2 2 0 1), 0) ∧ (2 : Byte).toNat < run.ncpu ∧
    (1 : Byte).toNat ≤ 1 ∧ space0.resolve 0xD00A .wr = some (⟨0xD009, 0xD00A, .rw, .kSink 0⟩, 1) := by decide

theorem witness_BusAccessesComplete : run.phase = .run ∧ run.refsOk = true ∧ (3 : Byte).toNat < run.ncpu := by decide

theorem witness_SharedByteVisible : run.phase = .run ∧ run.space? 0 .mem = some space0 ∧
    space0.resolve 0xC7FF .wr = some (⟨0xC000, 0xC7FF, .rw, .kMem 1 0⟩, 0x7FF) ∧ run.space? 1 .mem = some space1 ∧
    space1.resolve 0xC7FF .rd = some (⟨0xC000, 0xC7FF, .rw, .kMem 1 0⟩, 0x7FF) ∧ Table.get run.regions 1 = some ram ∧
    ram.mutbl = true ∧ 0 + 0x7FF < ram.size := by decide

theorem witness_LineClearEffect : conf.phase ≠ .run ∧ run.phase = .run ∧ run.ncpu ≤ (4 : Byte).toNat ∧
    (3 : Byte).toNat < run.ncpu := by decide

theorem witness_LineRaiseEffect : run.phase = .run ∧ run.ncpu ≤ (4 : Byte).toNat ∧ (3 : Byte).toNat < run.ncpu := by
  decide

theorem witness_CpuPollEffect : run.phase = .run ∧ run.ncpu ≤ (4 : Byte).toNat ∧ (0 : Byte).toNat < run.ncpu ∧
    run.linesOk = true ∧ (run.line 0 0).level = .pulse := by decide

theorem witness_CpuIackEffect : run.phase = .run ∧ run.ncpu ≤ (4 : Byte).toNat ∧ (0 : Byte).toNat < run.ncpu ∧
    (run.line 0 1).level = .hold := by decide

theorem witness_TimerConfigureEffect : conf.phase = .config ∧ conf.ncpu ≤ (4 : Byte).toNat ∧
    (3 : Byte).toNat < conf.ncpu ∧ conf.scanLines ≤ (256 : BitVec 16).toNat ∧ (255 : BitVec 16).toNat < conf.scanLines ∧
    (1 : BitVec 16) ≠ 0 := by decide

theorem witness_ScanAdvanceEffect : run.phase = .run ∧ ∀ e ∈ run.scanEntries, e.cpu < run.ncpu ∧ e.mode ≠ .clear := by
  decide

theorem witness_PerTickEffect : run.phase = .run ∧ run.perTimers.length ≤ (1 : Byte).toNat ∧
    run.perTimers[(0 : Byte).toNat]? = some ⟨2, 1, .pulse, false, 0, 489, 0⟩ ∧ 2 < run.ncpu ∧
    LineMode.pulse ≠ .clear := by decide

theorem witness_FrameEntersEachScanlineOnce : run.phase = .run ∧ run.rasterOk = true ∧ 255 < run.scanLines := by decide

theorem witness_PortConfigureEffect : conf.phase = .config ∧ State.pcfg { conf with pcfg := some wiring } = some wiring ∧
    conf.pcfg = none ∧ (conf.hasLatch 3 = true ∧ conf.hasLatch 2 = true ∧ (1 : Byte).toNat < conf.ncpu ∧
      (3 : Byte).toNat < conf.ncpu) ∧ conf.hasLatch 4 = false ∧
    ([1, 0, 2, 2 + 1, 4, 4 + 1] : List Nat).Nodup ∧ ¬([1, 1, 2, 2 + 1, 4, 4 + 1] : List Nat).Nodup := by decide

theorem witness_P0ReadEffect : conf.phase ≠ .run ∧ run.phase = .run ∧ State.pcfg { run with pcfg := none } = none ∧
    run.pcfg = some wiring ∧ State.pcfg { conf with pcfg := some wiring } = some wiring ∧ conf.phase = .config ∧
    conf.p0 = 0 ∧ after (exec .sysStart conf) (fun t => t.p0 == 0) = true ∧ (∀ v, Instr.sysStart ≠ .p0Write v) ∧
    (∀ slot, Instr.sysStart ≠ .sysRestore slot) :=
  ⟨by decide, by decide, by decide, by decide, by decide, by decide, by decide, by decide, nofun, nofun⟩

theorem witness_P1ReadEffect : run.phase = .run ∧ run.pcfg = some wiring ∧
    Table.get run.latches wiring.inLatch.toNat = some latch2 := by decide

theorem witness_P2ReadEffect : run.phase = .run ∧ run.pcfg = some wiring ∧
    (run.p0.toNat / 2 ^ wiring.p2selLo.toNat) % 4 ≠ 3 ∧ State.pcfg { run with p0 := 0x0C } = some wiring ∧
    (run.p0.toNat / 2 ^ wiring.p2selLo.toNat) % 4 = 0 ∧ ((0x04 : Byte).toNat / 2 ^ wiring.p2selLo.toNat) % 4 = 1 ∧
    ((0x08 : Byte).toNat / 2 ^ wiring.p2selLo.toNat) % 4 = 2 ∧
    (((0x0C : Byte).toNat / 2 ^ wiring.p2selLo.toNat) % 4 = 3) ∧
    run.extIn = [] ∧ State.extIn { run with extIn := [0x9A] } = [0x9A] := by decide

theorem witness_P3ReadEffect : run.phase = .run ∧ run.pcfg = some wiring ∧
    Table.get run.latches wiring.inLatch.toNat = some latch2 ∧ Table.get run.latches wiring.outLatch.toNat = some latch3 ∧
    wiring.inpBit ≠ wiring.outpBit ∧ 4 ≤ wiring.inpBit.toNat ∧ 4 ≤ wiring.outpBit.toNat ∧
    State.extIn { run with extIn := [0xFE, 0xFF] } = [0xFE, 0xFF] ∧ run.extIn = [] ∧
    State.extIn { run with extIn := [0xFE] } = [0xFE] := by decide

theorem witness_P0WriteEffect : run.phase = .run ∧ run.pcfg = some wiring ∧
    Table.get run.latches wiring.inLatch.toNat = some latch2 ∧ Table.get run.latches wiring.outLatch.toNat = some latch3 ∧
    (latch3.hasTarget = true → latch3.tcpu < run.ncpu) ∧ run.p0.getLsbD wiring.outBit.toNat = false ∧
    run.p0.getLsbD wiring.ackBit.toNat = true := by decide

theorem witness_ShadowWriteEffect : run.phase = .run ∧ State.phase { run with pcfg := none } = .run ∧
    State.pcfg { run with pcfg := none } = none ∧ run.pcfg = some wiring := by decide

theorem witness_P3WriteEffect : run.phase = .run ∧ run.pcfg = some wiring ∧ wiring.rstCpu.toNat < run.ncpu := by decide

theorem witness_ConfigurationFrozen : run.phase = .run ∧ ∃ t, exec (.busWrite 0 0xD000 3) run = .next t :=
  ⟨by decide, ⟨_, rfl⟩⟩

theorem witness_ImmutableBytesFixed : Table.get run.regions 0 = some rom ∧ rom.mutbl = false ∧
    ∃ t, exec (.bankWrite 0 0 7) run = .next t := ⟨by decide, by decide, ⟨_, rfl⟩⟩

theorem witness_StepKeepsCanonical_StepKeepsShape_StepKeepsReferences : ∃ s t : State, s.canonicalOk = true ∧ s.shapeOk = true ∧ s.refsOk = true ∧
    s.queue = [⟨false, [0x3200000000C01042]⟩] ∧ step s = .next t ∧ t.byteAt 1 0x10 = some 0x42 :=
  ⟨{ run with queue := [⟨false, [0x3200000000C01042]⟩] }, _, by decide, by decide, by decide, rfl, rfl, by decide⟩

theorem witness_LdvChangesOnlySo : ∃ t, exec (.busRead 0 0xC010) run = .next t ∧ t.ldv? 0 .mem ≠ run.ldv? 0 .mem :=
  ⟨_, rfl, by decide⟩

theorem witness_ActiveChangesOnlySo : ∃ t k', exec (.busWrite 0 0xD000 3) run = .next t ∧
    Table.get run.banks 0 = some bank0 ∧ Table.get t.banks 0 = some k' ∧ k'.active ≠ bank0.active :=
  ⟨_, _, rfl, by decide, rfl, by decide⟩

end Sys2Proof.Tests
end

section
/-! The rules of the configuration: what a list or a table keeps of its records under each way the model changes it, and
that no run-time operation changes the configuration (10_state.md R35). -/

namespace Sys2Proof.Laws

open Sys2Proof.Machine

variable {α β σ : Type}

/-! ## Lists and tables whose records change in a part that a view `g` does not show -/

theorem map_modify_of_eq {f : α → α} {g : α → σ} (hf : ∀ a, g (f a) = g a) (l : List α) (j : Nat) :
    (l.modify j f).map g = l.map g := by
  refine List.ext_getElem? fun m => ?_
  simp only [List.getElem?_map, List.getElem?_modify]
  cases l[m]? with
  | none => rfl
  | some a => by_cases h : j = m <;> simp [h, hf]

theorem map_mapIdx_of_eq {f : Nat → α → α} {g : α → σ} (hf : ∀ j a, g (f j a) = g a) (l : List α) :
    (l.mapIdx f).map g = l.map g := by
  refine List.ext_getElem? fun m => ?_
  cases h : l[m]? <;> simp [h, hf]

theorem map_zipWith_of_eq {f : α → β → α} {g : α → σ} (hf : ∀ a b, g (f a b) = g a) {l : List α} {k : List β}
    (hl : k.length = l.length) : (List.zipWith f l k).map g = l.map g := by
  induction l generalizing k with
  | nil => simp
  | cons a l ih =>
    cases k with
    | nil => simp at hl
    | cons b k => simp [hf, ih (Nat.succ.inj hl)]

theorem get_set_of_eq {g : α → σ} {u : Table α} {n : Nat} {a b : α} (ha : Table.get u n = some a) (hb : g b = g a)
    (m : Nat) : (Table.get (Table.set u n b) m).map g = (Table.get u m).map g := by
  rw [get_set]
  split
  · subst_vars; simp [ha, hb]
  · rfl

theorem get_mapVals_of_eq {f : Nat → α → α} {g : α → σ} (hf : ∀ n a, g (f n a) = g a) (u : Table α) (n : Nat) :
    (Table.get (Table.mapVals f u) n).map g = (Table.get u n).map g := by
  simp [Function.comp_def, hf]

end Sys2Proof.Laws

namespace Sys2Proof.Machine

open Sys2Proof.Laws

variable {s t u : State}

/-! ## The configuration of a CPU -/

/-- The configuration of both spaces of a CPU (10_state.md R26). -/
def Cpu.setup (cpu : Cpu) : BusSpace × BusSpace := (cpu.mem.setup, cpu.io.setup)

/-- What the CPUs' configuration says of their number and of each space. -/
theorem spaces_of_cpus (h : t.cpus.map Cpu.setup = s.cpus.map Cpu.setup) : t.ncpu = s.ncpu ∧
    ∀ c sp, (t.space? c sp).map BusSpace.setup = (s.space? c sp).map BusSpace.setup := by
  refine ⟨by simpa [State.ncpu] using congrArg List.length h, fun c sp => ?_⟩
  have hc : (t.cpus[c]?).map Cpu.setup = (s.cpus[c]?).map Cpu.setup := by
    simpa only [List.getElem?_map] using congrArg (fun l => l[c]?) h
  cases sp with
  | mem => simpa [State.space?, Cpu.setup, Cpu.space, Function.comp_def] using congrArg (Option.map Prod.fst) hc
  | io => simpa [State.space?, Cpu.setup, Cpu.space, Function.comp_def] using congrArg (Option.map Prod.snd) hc

/-- A new last decoded value is no change of configuration. -/
theorem setup_setLdv (cpu : Cpu) (sp : Space) (v : Byte) :
    (cpu.setSpace sp { cpu.space sp with ldv := v }).setup = cpu.setup := by
  cases sp <;> rfl

/-! ## The configuration of the fabric -/

theorem SameSetup.refl (s : State) : SameSetup s s :=
  ⟨fun _ => rfl, fun _ => rfl, fun _ => rfl, rfl, fun _ _ => rfl, rfl, rfl, rfl, rfl⟩

theorem SameSetup.trans (h : SameSetup s t) (hu : SameSetup t u) : SameSetup s u := by
  obtain ⟨hr, hb, hl, hn, hs, hp, hsl, hse, ht⟩ := h
  obtain ⟨hr', hb', hl', hn', hs', hp', hsl', hse', ht'⟩ := hu
  exact ⟨fun r => (hr' r).trans (hr r), fun b => (hb' b).trans (hb b), fun l => (hl' l).trans (hl l), hn'.trans hn,
    fun c sp => (hs' c sp).trans (hs c sp), hp'.trans hp, hsl'.trans hsl, hse'.trans hse, ht'.trans ht⟩

/-- Moving the raster changes nothing but its position. -/
theorem nextScanline_eq (s : State) :
    s.nextScanline = { s with scanV := s.nextScanline.scanV, scanF := s.nextScanline.scanF } := by
  unfold State.nextScanline
  split <;> rfl

/-- Changing only the CPUs, and those not in their configuration. -/
theorem sameSetup_cpus {cpus : List Cpu} (h : cpus.map Cpu.setup = s.cpus.map Cpu.setup) :
    SameSetup s { s with cpus := cpus } := by
  obtain ⟨hn, hs⟩ := spaces_of_cpus (t := { s with cpus := cpus }) h
  exact ⟨fun _ => rfl, fun _ => rfl, fun _ => rfl, hn, hs, rfl, rfl, rfl, rfl⟩

theorem sameSetup_clearRunState (s : State) : SameSetup s s.clearRunState := by
  obtain ⟨hn, hs⟩ := spaces_of_cpus (s := s) (t := s.clearRunState)
    (by simp only [clearRunState_cpus, List.map_map]; rfl)
  refine ⟨fun _ => rfl, fun _ => rfl, ?_, hn, hs, rfl, rfl, rfl, ?_⟩
  · rw [clearRunState_latches]
    exact get_mapVals_of_eq (fun _ _ => by rfl) _
  · rw [clearRunState_perTimers, List.map_map]
    rfl

theorem sameSetup_redraw (s : State) : SameSetup s s.redraw := by
  obtain ⟨hn, hs⟩ := spaces_of_cpus (s := s) (t := s.redraw) (map_mapIdx_of_eq (fun _ _ => by rfl) _)
  refine ⟨fun _ => rfl, fun _ => rfl, ?_, hn, hs, rfl, rfl, rfl, rfl⟩
  rw [redraw_latches]
  exact get_mapVals_of_eq (fun _ _ => by rfl) _

/-- What the fit check of SYS.RESTORE says, condition by condition (45_system.md R284). -/
theorem fits_conditions {n : Snapshot} (h : n.fits s = true) : activeFits s.banks n.active = true ∧
    sizesFit s.regions n.regions = true ∧ n.cpus.length = s.cpus.length ∧ n.scanV < s.scanLines ∧
    n.ticks.length = s.perTimers.length := by
  simp only [Snapshot.fits, Bool.and_eq_true, beq_iff_eq, decide_eq_true_eq] at h
  obtain ⟨⟨⟨⟨⟨-, ha⟩, hr⟩, hc⟩, hv⟩, ht⟩ := h
  exact ⟨ha, hr, hc, hv, ht⟩

theorem sameSetup_restore {n : Snapshot} (hf : n.fits s = true) : SameSetup s (s.restore n) := by
  obtain ⟨-, -, hc, -, ht⟩ := fits_conditions hf
  obtain ⟨hn, hs⟩ := spaces_of_cpus (s := s) (t := s.restore n) (map_zipWith_of_eq (fun _ _ => by rfl) hc)
  refine ⟨?_, ?_, ?_, hn, hs, rfl, rfl, rfl, map_zipWith_of_eq (fun _ _ => by rfl) ht⟩
  · rw [restore_regions]
    refine get_mapVals_of_eq (fun r g => ?_) _
    split
    · split <;> rfl
    · rfl
  · rw [restore_banks]
    exact get_mapVals_of_eq (fun _ _ => by rfl) _
  · rw [restore_latches]
    exact get_mapVals_of_eq (fun _ _ => by rfl) _

end Sys2Proof.Machine

namespace Sys2Proof.Laws

open Sys2Proof.Machine

variable {s t : State} {R : Prop}

/-- No update of a run-time operation changes the configuration (10_state.md R35). -/
theorem Update.sameSetup (h : Update R s t) : SameSetup s t := by
  cases h with
  | latch l k k' hk hs =>
    exact ⟨fun _ => rfl, fun _ => rfl, get_set_of_eq hk hs, rfl, fun _ _ => rfl, rfl, rfl, rfl, rfl⟩
  | bank b k a hk _ =>
    exact ⟨fun _ => rfl, get_set_of_eq (g := Bank.setup) hk rfl, fun _ => rfl, rfl, fun _ _ => rfl, rfl, rfl, rfl, rfl⟩
  | byte r off g v hg _ _ =>
    exact ⟨get_set_of_eq (g := Region.setup) hg rfl, fun _ => rfl, fun _ => rfl, rfl, fun _ _ => rfl, rfl, rfl, rfl,
      rfl⟩
  | line c n m v => exact sameSetup_cpus (map_modify_of_eq (fun _ => by rfl) _ _)
  | pulses c => exact sameSetup_cpus (map_modify_of_eq (fun _ => by rfl) _ _)
  | ldv c sp v => exact sameSetup_cpus (map_modify_of_eq (fun cpu => setup_setLdv cpu sp v) _ _)
  | tick j =>
    exact ⟨fun _ => rfl, fun _ => rfl, fun _ => rfl, rfl, fun _ _ => rfl, rfl, rfl, rfl,
      map_modify_of_eq (fun _ => by rfl) _ _⟩
  | raster => rw [nextScanline_eq]; exact .refl s
  | clear => exact sameSetup_clearRunState s
  | redraw => exact sameSetup_redraw s
  | restore slot n _ hf _ => exact sameSetup_restore hf
  | _ => exact .refl s

/-- No update of a run-time operation leaves `PHASE` or records an error (60_exceptions.md R300, R302). -/
theorem Update.phase_error (h : Update R s t) : t.phase = s.phase ∧ t.error = s.error := by
  cases h with
  | raster => rw [nextScanline_eq]; exact ⟨rfl, rfl⟩
  | _ => exact ⟨rfl, rfl⟩

/-- An operation that answers in `PHASE = RUN` is one that belongs to it. -/
theorem exec_updates_of_run {i : Instr} (hs : s.phase = .run) (h : exec i s = .next t) :
    Updates (i = .sysReset ∨ ∃ slot, i = .sysRestore slot) s t := by
  rcases phaseOf_cases i with hp | hp
  · simp [configured_phase hp h] at hs
  · exact exec_updates hp h

/-! ## Immutable regions -/

/-- No update of a run-time operation touches the record of an immutable region (10_state.md R23). -/
theorem Update.immutable {r : Nat} {g : Region} (h : Update R s t) (hm : g.mutbl = false)
    (hg : Table.get s.regions r = some g) : Table.get t.regions r = some g := by
  cases h with
  | byte q off d v hd _ hdm =>
    have hne : r ≠ q := by
      rintro rfl
      simp_all
    exact (get_set_other _ _ hne).trans hg
  | raster => rw [nextScanline_eq]; exact hg
  | restore slot n _ _ _ =>
    rw [restore_regions, get_mapVals, hg]
    simp only [Option.map_some, hm, Bool.false_eq_true, if_false]
    split <;> rfl
  | _ => exact hg

/-- A configuration operation leaves the record of a region that is defined alone: REGION.DEFINE takes a new one
(45_system.md R280). -/
theorem Configured.region_kept {wf : Bool} {r : Nat} {g : Region} (h : Configured wf s t)
    (hg : Table.get s.regions r = some g) : Table.get t.regions r = some g := by
  cases h with
  | region q size mutbl hn _ =>
    have hne : r ≠ q := by
      rintro rfl
      simp [hn] at hg
    exact (get_set_other _ _ hne).trans hg
  | range => rw [bindTarget_eq]; exact hg
  | _ => exact hg

/-- No operation touches the record of an immutable region. -/
theorem exec_immutable {i : Instr} {r : Nat} {g : Region} (h : exec i s = .next t) (hm : g.mutbl = false)
    (hg : Table.get s.regions r = some g) : Table.get t.regions r = some g := by
  rcases phaseOf_cases i with hp | hp
  · exact (exec_configured hp h).region_kept hg
  · exact (exec_updates hp h).keeps (P := fun u => Table.get u.regions r = some g) (fun _ _ hu => hu.immutable hm) hg

end Sys2Proof.Laws

namespace Sys2Proof.Proofs

open Sys2Proof.Machine Sys2Proof.Laws

/-- Settles O54: each update of a run-time operation keeps the phase, the error and the configuration. -/
theorem configurationFrozen : Obligations.ConfigurationFrozen := by
  intro i s t hrun h
  refine (exec_updates_of_run hrun h).keeps (P := fun u => u.phase = .run ∧ u.error = s.error ∧ SameSetup s u) ?_
    ⟨hrun, rfl, .refl s⟩
  rintro u v hu ⟨hp, he, hs⟩
  obtain ⟨hp', he'⟩ := hu.phase_error
  exact ⟨hp'.trans hp, he'.trans he, hs.trans hu.sameSetup⟩

/-- Settles O55: the whole record of an immutable region stays, and its bytes are read from it. -/
theorem immutableBytesFixed : Obligations.ImmutableBytesFixed := by
  intro i s t r g h hg hm off
  unfold State.byteAt
  rw [hg, exec_immutable h hm hg]

end Sys2Proof.Proofs
end

section
/-! What every step keeps, from what each update of the state keeps; and the shape of the maps, of the raster and of the
recorded error (10_state.md R25, R29; 60_exceptions.md R302). -/

namespace Sys2Proof.Laws

open Sys2Proof.Machine

variable {s t : State} {R : Prop}

/-! ## From updates to steps -/

/-- The decoder gives well-formed operations only (30_encoding.md R117). -/
theorem decode_wf {ws rest : List OpWord} {i : Instr} (h : decode ws = some (i, rest)) : i.wf = true := by
  cases ws with
  | nil => simp [decode] at h
  | cons w tl =>
    unfold decode at h
    dsimp only at h
    split at h
    all_goals
      obtain ⟨j, hj, hi⟩ := Option.map_eq_some_iff.1 h
      obtain ⟨rfl, -⟩ := Prod.mk.inj hi
    case h_1 => exact (need_eq_some.1 hj).2 ▸ rfl
    case h_2 =>
      unfold decodeRegisterRange at hj
      split at hj
      · exact (need_eq_some.1 hj).2 ▸ rfl
      · simp at hj
    case h_3 => exact (need_eq_some.1 hj).2 ▸ rfl
    case h_4 => exact (decodeShort_some hj).1

/-- An invariant is kept by every step once taking an operation from the queue, each update of a run-time operation and
each configuration operation keep it. -/
theorem step_keeps {P : State → Prop}
    (hTake : ∀ {s : State} (i : Instr) (turn : Turn) (ws : List OpWord) (later : List Turn),
      P s → P (s.takeOp i turn ws later))
    (hUpdate : ∀ {R : Prop} {s t : State}, Update R s t → P s → P t)
    (hConfig : ∀ {s t : State}, s.phase = .config → Configured true s t → P s → P t)
    (hs : P s) (h : step s = .next t) : P t := by
  obtain ⟨-, rfl⟩ | ⟨turn, later, i, ws, -, hd, -, -, hx⟩ := step_next h
  · exact hs
  · have h0 := hTake i turn ws later hs
    rcases phaseOf_cases i with hp | hp
    · have hc := exec_configured hp hx
      rw [decode_wf hd] at hc
      refine hConfig ?_ hc (hUpdate (.out (R := True) _ _) h0)
      exact configured_phase hp hx
    · exact (exec_updates hp hx).keeps (fun _ _ => hUpdate) h0

/-! ## The maps -/

theorem space?_some {c : Nat} {sp : Space} {b : BusSpace} :
    s.space? c sp = some b ↔ ∃ cpu, s.cpus[c]? = some cpu ∧ cpu.space sp = b := by
  simp [State.space?]

/-- The maps are in order just if the map of each space is. -/
theorem mapsOk_iff : s.mapsOk = true ↔ ∀ c sp b, s.space? c sp = some b → b.rangesOk = true := by
  simp only [State.mapsOk, List.all_eq_true, Bool.and_eq_true, space?_some]
  constructor
  · rintro h c sp b ⟨cpu, hc, rfl⟩
    obtain ⟨hm, hi⟩ := h cpu (List.mem_of_getElem? hc)
    cases sp
    · exact hm
    · exact hi
  · intro h cpu hc
    obtain ⟨c, hc⟩ := List.mem_iff_getElem?.1 hc
    exact ⟨h c .mem _ ⟨cpu, hc, rfl⟩, h c .io _ ⟨cpu, hc, rfl⟩⟩

/-- A space of the one state has its configuration from the other, where that is the same. -/
theorem space?_of_sameSetup (h : SameSetup s t) {c : Nat} {sp : Space} {b : BusSpace} (hb : t.space? c sp = some b) :
    ∃ b', s.space? c sp = some b' ∧ b'.setup = b.setup := by
  obtain ⟨-, -, -, -, hs, -⟩ := h
  exact Option.map_eq_some_iff.1 ((hs c sp).symm.trans (congrArg _ hb))

theorem mapsOk_of_sameSetup (h : SameSetup s t) (hs : s.mapsOk = true) : t.mapsOk = true := by
  refine mapsOk_iff.2 fun c sp b hb => ?_
  obtain ⟨b', hb', he⟩ := space?_of_sameSetup h hb
  have : b.setup.rangesOk = true := he ▸ mapsOk_iff.1 hs c sp b' hb'
  exact this

theorem mapsOk_modifySpace {c : Nat} {sp : Space} {f : BusSpace → BusSpace} (hs : s.mapsOk = true)
    (hf : ∀ b, s.space? c sp = some b → b.rangesOk = true → (f b).rangesOk = true) :
    (s.modifySpace c sp f).mapsOk = true := by
  refine mapsOk_iff.2 fun d sq b hb => ?_
  rw [space?_modifySpace] at hb
  split at hb
  next h =>
    obtain ⟨rfl, rfl⟩ := h
    obtain ⟨b', hb', rfl⟩ := Option.map_eq_some_iff.1 hb
    exact hf b' hb' (mapsOk_iff.1 hs _ _ _ hb')
  next => exact mapsOk_iff.1 hs _ _ _ hb

theorem overlaps_eq_false {lo hi : Nat} {map : List BusRange} :
    overlaps lo hi map = false ↔ ∀ e ∈ map, e.hi < lo ∨ hi < e.lo := by
  simp only [overlaps, List.any_eq_false, Bool.not_eq_true', Bool.or_eq_false_iff, decide_eq_false_iff_not]
  exact forall₂_congr fun e _ => by omega

/-- A new range that shares no address with the map may end it (42_bus.md R180). -/
theorem rangesOk_append {b : BusSpace} (h : b.rangesOk = true) {lo hi : Nat} (hlo : lo ≤ hi) (hhi : hi < 2 ^ b.addrW)
    (ho : overlaps lo hi b.map = false) (mode : Access) (g : Target) :
    BusSpace.rangesOk { b with map := b.map ++ [⟨lo, hi, mode, g⟩] } = true := by
  simp only [BusSpace.rangesOk, Bool.and_eq_true, disjointMap, decide_eq_true_eq, List.all_append,
    List.pairwise_append] at h ⊢
  obtain ⟨hbounds, hdisjoint⟩ := h
  refine ⟨⟨hbounds, by simp [boundsOk, hlo, hhi]⟩, hdisjoint, List.pairwise_singleton _ _, fun d hd e he => ?_⟩
  rw [List.mem_singleton.1 he]
  exact overlaps_eq_false.1 ho d hd

theorem Configured.mapsOk {wf : Bool} (h : Configured wf s t) (hs : s.mapsOk = true) : t.mapsOk = true := by
  cases h with
  | range c sp b lo hi mode g hb hlo hhi ho _ =>
    rw [bindTarget_eq]
    refine mapsOk_modifySpace (s := { s with banks := _ }) hs fun b' hb' hr => ?_
    cases Option.some.inj (hb.symm.trans hb')
    exact rangesOk_append hr hlo hhi ho mode g
  | policy c sp m p o => exact mapsOk_modifySpace hs fun b _ hb => hb
  | start => exact mapsOk_of_sameSetup (sameSetup_clearRunState s) hs
  | _ => exact hs

/-! ## The raster -/

theorem rasterOk_iff : s.rasterOk = true ↔ s.scanV < s.scanLines := decide_eq_true_iff

theorem nextScanline_lt (h : s.scanV < s.scanLines) : s.nextScanline.scanV < s.nextScanline.scanLines := by
  unfold State.nextScanline
  split <;> dsimp only <;> omega

theorem Update.rasterOk (h : Update R s t) (hs : s.rasterOk = true) : t.rasterOk = true := by
  rw [rasterOk_iff] at hs ⊢
  cases h with
  | raster => exact nextScanline_lt hs
  | clear => exact Nat.zero_lt_of_lt hs
  | restore slot n _ hf _ =>
    obtain ⟨-, -, -, hv, -⟩ := fits_conditions hf
    exact hv
  | _ => exact hs

theorem Configured.rasterOk {wf : Bool} (h : Configured wf s t) (hs : s.rasterOk = true) : t.rasterOk = true := by
  rw [rasterOk_iff] at hs ⊢
  cases h with
  | range => rw [bindTarget_eq]; exact hs
  | start => exact Nat.zero_lt_of_lt hs
  | _ => exact hs

/-! ## The recorded error -/

theorem errorOk_iff : s.errorOk = true ↔ (s.phase = .aborted ↔ s.error.isSome = true) := by
  rw [State.errorOk, beq_iff_eq, Bool.eq_iff_iff, decide_eq_true_iff]

theorem Update.errorOk (h : Update R s t) (hs : s.errorOk = true) : t.errorOk = true := by
  obtain ⟨hp, he⟩ := h.phase_error
  rwa [errorOk_iff, hp, he, ← errorOk_iff]

/-- A configuration operation records an error just where it leaves the fabric ABORTED (60_exceptions.md R302). -/
theorem Configured.errorOk {wf : Bool} (hp : s.phase = .config) (h : Configured wf s t) (hs : s.errorOk = true) :
    t.errorOk = true := by
  rw [errorOk_iff] at hs ⊢
  cases h with
  | error e => simp
  | range => rw [bindTarget_eq]; exact hs
  | start =>
    have he : ¬s.error.isSome = true := fun h => by simpa [hp] using hs.2 h
    simpa using he
  | _ => exact hs

/-! ## The shape -/

theorem shapeOk_iff : s.shapeOk = true ↔ s.mapsOk = true ∧ s.rasterOk = true ∧ s.errorOk = true := by
  simp only [State.shapeOk, Bool.and_eq_true, and_assoc]

theorem Update.shapeOk (h : Update R s t) (hs : s.shapeOk = true) : t.shapeOk = true := by
  obtain ⟨hm, hr, he⟩ := shapeOk_iff.1 hs
  exact shapeOk_iff.2 ⟨mapsOk_of_sameSetup h.sameSetup hm, h.rasterOk hr, h.errorOk he⟩

theorem Configured.shapeOk {wf : Bool} (hp : s.phase = .config) (h : Configured wf s t) (hs : s.shapeOk = true) :
    t.shapeOk = true := by
  obtain ⟨hm, hr, he⟩ := shapeOk_iff.1 hs
  exact shapeOk_iff.2 ⟨h.mapsOk hm, h.rasterOk hr, h.errorOk hp he⟩

end Sys2Proof.Laws

namespace Sys2Proof.Proofs

open Sys2Proof.Machine Sys2Proof.Laws

/-- Settles O57, from the maps, the raster and the recorded error, each kept by every update of the state. -/
theorem stepKeepsShape : Obligations.StepKeepsShape := fun _ _ hs h =>
  step_keeps (P := fun u => u.shapeOk = true) (fun _ _ _ _ hu => hu) (fun hu => hu.shapeOk)
    (fun hp hc => hc.shapeOk hp) hs h

end Sys2Proof.Proofs
end

section
/-! Every reference of a configured record stays valid (10_state.md R24; 40_bank.md R140; 42_bus.md R180;
60_exceptions.md R302). The idea: no operation takes a unit away that a record can name, so what is to be shown of each operation is only
that the records it writes are valid. -/

namespace Sys2Proof.Laws

open Sys2Proof.Machine

variable {s t u : State} {R : Prop}

/-! ## The units that a record can name -/

/-- Every unit of `s` that a record can name is one of `t`, with what the records rely on: a region its size, a bank its
window size and, once it has one, its binding. -/
structure KeepsUnits (s t : State) : Prop where
  ncpu : t.ncpu = s.ncpu
  scanLines : t.scanLines = s.scanLines
  region : ∀ r g, Table.get s.regions r = some g → ∃ g', Table.get t.regions r = some g' ∧ g'.size = g.size
  bank : ∀ b k, Table.get s.banks b = some k →
    ∃ k', Table.get t.banks b = some k' ∧ k'.wsize = k.wsize ∧ (k.binding ≠ none → k'.binding = k.binding)
  latch : ∀ l, s.hasLatch l = true → t.hasLatch l = true

theorem KeepsUnits.refl (s : State) : KeepsUnits s s :=
  ⟨rfl, rfl, fun _ g hg => ⟨g, hg, rfl⟩, fun _ k hk => ⟨k, hk, rfl, fun _ => rfl⟩, fun _ hl => hl⟩

theorem KeepsUnits.trans (h : KeepsUnits s t) (hu : KeepsUnits t u) : KeepsUnits s u where
  ncpu := hu.ncpu.trans h.ncpu
  scanLines := hu.scanLines.trans h.scanLines
  region r g hg := by
    obtain ⟨g', hg', he⟩ := h.region r g hg
    obtain ⟨d, hd, he'⟩ := hu.region r g' hg'
    exact ⟨d, hd, he'.trans he⟩
  bank b k hk := by
    obtain ⟨k', hk', hw, hb⟩ := h.bank b k hk
    obtain ⟨d, hd, hw', hb'⟩ := hu.bank b k' hk'
    exact ⟨d, hd, hw'.trans hw, fun hn => (hb' ((hb hn).symm ▸ hn)).trans (hb hn)⟩
  latch l hl := hu.latch l (h.latch l hl)

/-- Where the configuration is the same, so are the units. -/
theorem keepsUnits_of_sameSetup (h : SameSetup s t) : KeepsUnits s t := by
  obtain ⟨hr, hb, hl, hn, -, -, hsl, -⟩ := h
  refine ⟨hn, hsl, fun r g hg => ?_, fun b k hk => ?_, fun l hk => ?_⟩
  · have := hr r
    rw [hg] at this
    obtain ⟨g', hg', he⟩ := Option.map_eq_some_iff.1 this
    exact ⟨g', hg', congrArg Prod.fst he⟩
  · have := hb b
    rw [hk] at this
    obtain ⟨k', hk', he⟩ := Option.map_eq_some_iff.1 this
    exact ⟨k', hk', congrArg (·.wsize) he, fun _ => congrArg (·.binding) he⟩
  · have := congrArg Option.isSome (hl l.toNat)
    rw [Option.isSome_map, Option.isSome_map] at this
    exact this.trans hk

/-- A change of a map names no unit away. -/
theorem keepsUnits_modifySpace (s : State) (c : Nat) (sp : Space) (f : BusSpace → BusSpace) :
    KeepsUnits s (s.modifySpace c sp f) :=
  { KeepsUnits.refl s with ncpu := ncpu_modifySpace s c sp f }

/-- A bank that a range may target has no binding yet (42_bus.md R180). -/
theorem targetError_bank_none {bank : Byte} {lo hi : Nat} (h : targetError (.kBank bank) lo hi s = none) :
    ∃ k, Table.get s.banks bank.toNat = some k ∧ k.binding = none ∧ hi - lo + 1 = k.wsize := by
  cases hk : Table.get s.banks bank.toNat with
  | none => simp [targetError, hk] at h
  | some k =>
    simp only [targetError, hk] at h
    split at h
    · simp at h
    · exact ⟨k, rfl, by simpa using ‹¬k.binding.isSome = true›, by simpa using h⟩

/-- Binding the target of a range takes no unit away, since the bank was unbound. -/
theorem keepsUnits_bindTarget {g : Target} {lo hi : Nat} (c : Nat) (sp : Space) (h : targetError g lo hi s = none) :
    KeepsUnits s (bindTarget g c sp lo s) := by
  cases g with
  | kBank bank =>
    obtain ⟨k, hk, hb, -⟩ := targetError_bank_none h
    simp only [bindTarget, hk]
    refine { KeepsUnits.refl s with bank := fun b d hd => ?_ }
    dsimp only
    rw [get_set]
    split
    · subst_vars
      cases Option.some.inj (hk.symm.trans hd)
      exact ⟨_, rfl, rfl, fun hn => absurd hb hn⟩
    · exact ⟨d, hd, rfl, fun _ => rfl⟩
  | _ => exact .refl s

/-- No operation of `PHASE = CONFIG` takes a unit away: a unit is configured once (10_state.md R35). -/
theorem Configured.keepsUnits {wf : Bool} (h : Configured wf s t) : KeepsUnits s t := by
  cases h with
  | region r size mutbl hn _ =>
    refine { KeepsUnits.refl s with region := fun q g hg => ⟨g, ?_, rfl⟩ }
    exact (get_set_other _ _ (by rintro rfl; simp [hn] at hg)).trans hg
  | bank b k g hn _ _ _ _ _ _ =>
    refine { KeepsUnits.refl s with bank := fun q d hd => ⟨d, ?_, rfl, fun _ => rfl⟩ }
    exact (get_set_other _ _ (by rintro rfl; simp [hn] at hd)).trans hd
  | latch l k n hn _ _ =>
    refine { KeepsUnits.refl s with latch := fun m hm => ?_ }
    simp only [State.hasLatch, get_set] at hm ⊢
    split
    · rfl
    · exact hm
  | range c sp b lo hi mode g _ _ _ _ ht => exact (keepsUnits_bindTarget c sp ht).trans (keepsUnits_modifySpace _ _ _ _)
  | policy c sp m p o => exact keepsUnits_modifySpace s c sp _
  | start => exact { keepsUnits_of_sameSetup (sameSetup_clearRunState s) with }
  | _ => exact { KeepsUnits.refl s with }

/-! ## Banks -/

theorem bankOk_iff {k : Bank} : bankOk s k = true ↔ k.active < k.count ∧
    ∃ g, Table.get s.regions k.region = some g ∧ (k.start + k.count) * k.wsize ≤ g.size := by
  unfold bankOk
  cases Table.get s.regions k.region <;> simp

theorem bankOk_mono (hu : KeepsUnits s t) {k : Bank} (h : bankOk s k = true) : bankOk t k = true := by
  obtain ⟨ha, g, hg, hle⟩ := bankOk_iff.1 h
  obtain ⟨g', hg', he⟩ := hu.region _ _ hg
  exact bankOk_iff.2 ⟨ha, g', hg', he.symm ▸ hle⟩

/-- The banks are valid once each is where the units of `s` are. -/
theorem banksOk_mono (hu : KeepsUnits s t) (h : t.banks.all (fun e => bankOk s e.2) = true) : t.banksOk = true :=
  List.all_eq_true.2 fun e he => bankOk_mono hu (List.all_eq_true.1 h e he)

/-- Another active entry that the bank has keeps the bank valid. -/
theorem bankOk_active {k : Bank} {a : Nat} (h : bankOk s k = true) (ha : a < k.count) :
    bankOk s { k with active := a } = true := bankOk_iff.2 ⟨ha, (bankOk_iff.1 h).2⟩

/-- Restoring a snapshot that fits gives each bank an active entry that it has (45_system.md R284). -/
theorem restore_banks_ok {n : Snapshot} (hf : n.fits s = true) (hs : s.banksOk = true) :
    (s.restore n).banks.all (fun e => bankOk s e.2) = true := by
  rw [restore_banks, all_mapVals]
  refine List.all_eq_true.2 fun e he => bankOk_active (List.all_eq_true.1 hs e he) ?_
  have ha := List.all_eq_true.1 (fits_conditions hf).1 e he
  cases hn : Table.get n.active e.1 with
  | none => exact (bankOk_iff.1 (List.all_eq_true.1 hs e he)).1
  | some a => simpa [hn] using ha

theorem Update.banksOk (h : Update R s t) (hs : s.banksOk = true) : t.banksOk = true := by
  refine banksOk_mono (keepsUnits_of_sameSetup h.sameSetup) ?_
  cases h with
  | bank b k a hk ha =>
    have hok : bankOk s k = true := all_get (p := fun e => bankOk s e.2) hs hk
    exact all_set hs (bankOk_active hok (ha (bankOk_iff.1 hok).1))
  | raster => rw [nextScanline_eq]; exact hs
  | restore slot n _ hf _ => exact restore_banks_ok hf hs
  | _ => exact hs

theorem bindTarget_banks_ok (g : Target) (c : Nat) (sp : Space) (lo : Nat) (hs : s.banksOk = true) :
    (bindTarget g c sp lo s).banks.all (fun e => bankOk s e.2) = true := by
  cases g with
  | kBank bank =>
    cases hk : Table.get s.banks bank.toNat with
    | none => simp only [bindTarget, hk]; exact hs
    | some k =>
      have hok : bankOk s k = true := all_get (p := fun e => bankOk s e.2) hs hk
      simp only [bindTarget, hk]
      exact all_set hs (bankOk_iff.2 (bankOk_iff.1 hok))
  | _ => exact hs

theorem Configured.banksOk {wf : Bool} (h : Configured wf s t) (hs : s.banksOk = true) : t.banksOk = true := by
  refine banksOk_mono h.keepsUnits ?_
  cases h with
  | bank b k g _ hg hc _ ha _ hle => exact all_set hs (bankOk_iff.2 ⟨ha ▸ hc, g, hg, hle⟩)
  | range c sp b lo hi mode g _ _ _ _ _ => exact bindTarget_banks_ok g c sp lo hs
  | _ => exact hs

/-! ## The targets of the ranges -/

theorem targetOk_mono (hu : KeepsUnits s t) {c lo hi : Nat} {sp : Space} {g : Target}
    (h : targetOk s c sp lo hi g = true) : targetOk t c sp lo hi g = true := by
  have flag : ∀ {p : Bool} {l : Byte}, (!p || s.hasLatch l) = true → (!p || t.hasLatch l) = true := by
    intro p l hl
    rw [Bool.or_eq_true] at hl ⊢
    exact hl.imp_right (hu.latch l)
  cases g with
  | kMem region roff =>
    cases hg : Table.get s.regions region.toNat with
    | none => simp [targetOk, hg] at h
    | some g =>
      obtain ⟨g', hg', he⟩ := hu.region _ _ hg
      simpa [targetOk, hg, hg', he] using h
  | kBank bank =>
    cases hk : Table.get s.banks bank.toNat with
    | none => simp [targetOk, hk] at h
    | some k =>
      obtain ⟨k', hk', hw, hb⟩ := hu.bank _ _ hk
      simp only [targetOk, hk, Bool.and_eq_true, decide_eq_true_eq] at h
      obtain ⟨hsize, hbound⟩ := h
      simp [targetOk, hk', hw, hsize, hb (by simp [hbound]), hbound]
  | kLatchData latch => exact hu.latch _ h
  | kLatchAck latch => exact hu.latch _ h
  | kStatus l0 l1 l2 l3 valid invert =>
    simp only [targetOk, Bool.and_eq_true] at h ⊢
    obtain ⟨⟨⟨h0, h1⟩, h2⟩, h3⟩ := h
    exact ⟨⟨⟨flag h0, flag h1⟩, flag h2⟩, flag h3⟩
  | kBankSel bank shift mask =>
    simp only [targetOk, Bool.and_eq_true, Option.isSome_iff_exists] at h ⊢
    obtain ⟨⟨k, hk⟩, hs⟩ := h
    obtain ⟨k', hk', -⟩ := hu.bank _ _ hk
    exact ⟨⟨k', hk'⟩, hs⟩
  | kLine tcpu line mode vec hasVec => simpa only [targetOk, hu.ncpu] using h
  | kLineBit tcpu line bit active => simpa only [targetOk, hu.ncpu] using h
  | kInput src => rfl
  | kSink sink => rfl

/-- What the check of a range's target lets through is valid once the target is bound (42_bus.md R180). -/
theorem targetOk_bindTarget {g : Target} {lo hi : Nat} (c : Nat) (sp : Space) (h : targetError g lo hi s = none) :
    targetOk (bindTarget g c sp lo s) c sp lo hi g = true := by
  have latch : ∀ {l : Byte}, (if s.hasLatch l = true then none else some ErrCode.unit) = none →
      s.hasLatch l = true := by
    intro l hl
    by_contra hn
    simp [hn] at hl
  cases g with
  | kMem region roff =>
    cases hg : Table.get s.regions region.toNat with
    | none => simp [targetError, hg] at h
    | some g => simpa [bindTarget, targetOk, targetError, hg] using h
  | kBank bank =>
    obtain ⟨k, hk, -, hw⟩ := targetError_bank_none h
    simp [bindTarget, targetOk, hk, hw]
  | kLatchData l => exact latch h
  | kLatchAck l => exact latch h
  | kStatus l0 l1 l2 l3 valid invert =>
    simp only [targetError, List.any_cons, List.any_nil, Bool.or_false] at h
    split at h
    · simp at h
    · rename_i hn
      simp only [Bool.or_eq_true, Bool.and_eq_true, Bool.not_eq_true', not_or, not_and, Bool.not_eq_false] at hn
      simp only [bindTarget, targetOk, Bool.and_eq_true, Bool.or_eq_true, Bool.not_eq_true', ← Bool.not_eq_true,
        ← imp_iff_not_or]
      obtain ⟨h0, h1, h2, h3⟩ := hn
      exact ⟨⟨⟨h0, h1⟩, h2⟩, h3⟩
  | kBankSel bank shift mask =>
    cases hk : Table.get s.banks bank.toNat with
    | none => simp [targetError, hk] at h
    | some k => simpa [bindTarget, targetOk, targetError, hk] using h
  | kLine tcpu line mode vec hasVec =>
    by_cases hc : s.ncpu ≤ tcpu.toNat
    · simp [targetError, hc] at h
    · simpa [bindTarget, targetOk, targetError, hc, Nat.lt_of_not_le hc] using h
  | kLineBit tcpu line bit active =>
    by_cases hc : s.ncpu ≤ tcpu.toNat
    · simp [targetError, hc] at h
    · simpa [bindTarget, targetOk, targetError, hc, Nat.lt_of_not_le hc] using h
  | kInput src => rfl
  | kSink sink => rfl

theorem targetsOk_iff : s.targetsOk = true ↔ ∀ c sp b, s.space? c sp = some b → targetsOk s c sp b = true := by
  simp only [State.targetsOk, List.all_eq_true, Bool.and_eq_true, space?_some, List.mem_zipIdx_iff_getElem?]
  constructor
  · rintro h c sp b ⟨cpu, hc, rfl⟩
    obtain ⟨hm, hi⟩ := h (cpu, c) hc
    cases sp
    · exact hm
    · exact hi
  · rintro h ⟨cpu, c⟩ hc
    exact ⟨h c .mem _ ⟨cpu, hc, rfl⟩, h c .io _ ⟨cpu, hc, rfl⟩⟩

theorem targetsOk_mono (hu : KeepsUnits s t) {c : Nat} {sp : Space} {b : BusSpace} (h : targetsOk s c sp b = true) :
    targetsOk t c sp b = true :=
  List.all_eq_true.2 fun e he => targetOk_mono hu (List.all_eq_true.1 h e he)

theorem targetsOk_of_sameSetup (h : SameSetup s t) (hs : s.targetsOk = true) : t.targetsOk = true := by
  refine targetsOk_iff.2 fun c sp b hb => targetsOk_mono (keepsUnits_of_sameSetup h) ?_
  obtain ⟨b', hb', he⟩ := space?_of_sameSetup h hb
  have : Machine.targetsOk s c sp b.setup = true := he ▸ targetsOk_iff.1 hs c sp b' hb'
  exact this

/-- A change of a map keeps the targets valid where those of the new map are, in the new state. -/
theorem targetsOk_modifySpace {c : Nat} {sp : Space} {f : BusSpace → BusSpace} (hs : s.targetsOk = true)
    (hf : ∀ b, targetsOk s c sp b = true → targetsOk s c sp (f b) = true) :
    (s.modifySpace c sp f).targetsOk = true := by
  refine targetsOk_iff.2 fun d sq b hb => targetsOk_mono (keepsUnits_modifySpace s c sp f) ?_
  rw [space?_modifySpace] at hb
  split at hb
  next h =>
    obtain ⟨rfl, rfl⟩ := h
    obtain ⟨b', hb', rfl⟩ := Option.map_eq_some_iff.1 hb
    exact hf b' (targetsOk_iff.1 hs _ _ _ hb')
  next => exact targetsOk_iff.1 hs _ _ _ hb

/-- Operations that leave the CPUs as they are keep the targets valid. -/
theorem targetsOk_of_cpus (hu : KeepsUnits s t) (hc : t.cpus = s.cpus) (hs : s.targetsOk = true) :
    t.targetsOk = true := by
  refine targetsOk_iff.2 fun c sp b hb => targetsOk_mono hu (targetsOk_iff.1 hs c sp b ?_)
  rwa [State.space?, ← hc]

theorem Configured.targetsOk {wf : Bool} (h : Configured wf s t) (hs : s.targetsOk = true) : t.targetsOk = true := by
  have hu := h.keepsUnits
  cases h with
  | range c sp b lo hi mode g _ _ _ _ ht =>
    have hbind : (bindTarget g c sp lo s).targetsOk = true :=
      targetsOk_of_cpus (keepsUnits_bindTarget c sp ht) (by rw [bindTarget_eq]) hs
    refine targetsOk_modifySpace hbind fun b hb => ?_
    rw [Machine.targetsOk, List.all_append, Bool.and_eq_true]
    exact ⟨hb, by simpa using targetOk_bindTarget c sp ht⟩
  | policy c sp m p o => exact targetsOk_modifySpace hs fun b hb => hb
  | start => exact targetsOk_of_sameSetup (sameSetup_clearRunState s) hs
  | _ => exact targetsOk_of_cpus hu rfl hs

/-! ## Latches -/

/-- The latch's target CPU is one of the `ncpu` that exist (41_latch.md R160). -/
def latchOk (ncpu : Nat) (k : Latch) : Bool := !k.hasTarget || decide (k.tcpu < ncpu)

theorem latchesOk_eq (s : State) : s.latchesOk = s.latches.all fun e => latchOk s.ncpu e.2 := rfl

theorem latchOk_of_setup {k k' : Latch} (h : k'.setup = k.setup) (n : Nat) : latchOk n k' = latchOk n k := by
  change latchOk n k'.setup = latchOk n k.setup
  rw [h]

theorem latchesOk_mapVals {f : Nat → Latch → Latch} (hf : ∀ l k, (f l k).setup = k.setup) {ks : Table Latch} {n : Nat}
    (h : ks.all (fun e => latchOk n e.2) = true) : (Table.mapVals f ks).all (fun e => latchOk n e.2) = true := by
  rw [all_mapVals]
  simpa only [latchOk_of_setup (hf _ _)] using h

theorem latchesOk_clearRunState {n : Nat} (h : s.latches.all (fun e => latchOk n e.2) = true) :
    s.clearRunState.latches.all (fun e => latchOk n e.2) = true := by
  rw [clearRunState_latches]
  exact latchesOk_mapVals (fun _ _ => by rfl) h

theorem Update.latchesOk (h : Update R s t) (hs : s.latchesOk = true) : t.latchesOk = true := by
  rw [latchesOk_eq] at hs ⊢
  rw [h.ncpu]
  cases h with
  | latch l k k' hk he =>
    refine all_set hs ?_
    dsimp only
    rw [latchOk_of_setup he]
    exact all_get (p := fun e => latchOk s.ncpu e.2) hs hk
  | clear => exact latchesOk_clearRunState hs
  | redraw => rw [redraw_latches]; exact latchesOk_mapVals (fun _ _ => by rfl) hs
  | restore slot n _ _ _ => rw [restore_latches]; exact latchesOk_mapVals (fun _ _ => by rfl) hs
  | raster => rw [nextScanline_eq]; exact hs
  | _ => exact hs

theorem Configured.latchesOk {wf : Bool} (h : Configured wf s t) (hs : s.latchesOk = true) : t.latchesOk = true := by
  rw [latchesOk_eq] at hs ⊢
  rw [h.keepsUnits.ncpu]
  cases h with
  | latch l k n _ ht _ =>
    refine all_set hs ?_
    cases hk : k.hasTarget with
    | false => simp [latchOk, hk]
    | true => simp [latchOk, ht hk]
  | range => rw [bindTarget_eq]; exact hs
  | start => exact latchesOk_clearRunState hs
  | _ => exact hs

/-! ## The peripheral -/

theorem peripheralOk_iff : s.peripheralOk = true ↔ ∀ w, s.pcfg = some w → s.hasLatch w.outLatch = true ∧
    s.hasLatch w.inLatch = true ∧ w.rstCpu.toNat < s.ncpu ∧ w.mcu.toNat < s.ncpu := by
  unfold State.peripheralOk
  cases s.pcfg <;> simp [and_assoc]

theorem peripheralOk_mono (hu : KeepsUnits s t) (hp : t.pcfg = s.pcfg) (hs : s.peripheralOk = true) :
    t.peripheralOk = true := by
  refine peripheralOk_iff.2 fun w hw => ?_
  obtain ⟨ho, hi, hr, hm⟩ := peripheralOk_iff.1 hs w (hp ▸ hw)
  exact ⟨hu.latch _ ho, hu.latch _ hi, hu.ncpu ▸ hr, hu.ncpu ▸ hm⟩

theorem Configured.peripheralOk {wf : Bool} (h : Configured wf s t) (hs : s.peripheralOk = true) :
    t.peripheralOk = true := by
  have hu := h.keepsUnits
  cases h with
  | ports w _ ho hi hr hm =>
    refine peripheralOk_iff.2 fun w' hw => ?_
    cases Option.some.inj hw
    exact ⟨ho, hi, hr, hm⟩
  | range => exact peripheralOk_mono hu (by rw [bindTarget_eq]; rfl) hs
  | _ => exact peripheralOk_mono hu rfl hs

/-! ## The timers -/

theorem timersOk_iff : s.timersOk = true ↔
    s.scanEntries.all (scanEntryOk s) = true ∧ (s.perTimers.map PerTimer.setup).all (perTimerOk s) = true := by
  rw [State.timersOk, Bool.and_eq_true, List.all_map]
  rfl

theorem scanEntryOk_mono (hu : KeepsUnits s t) : scanEntryOk t = scanEntryOk s := by
  funext e
  rw [scanEntryOk, scanEntryOk, hu.ncpu, hu.scanLines]

theorem perTimerOk_mono (hu : KeepsUnits s t) : perTimerOk t = perTimerOk s := by
  funext e
  rw [perTimerOk, perTimerOk, hu.ncpu]

theorem timersOk_mono (hu : KeepsUnits s t) (hse : t.scanEntries = s.scanEntries)
    (hpt : t.perTimers.map PerTimer.setup = s.perTimers.map PerTimer.setup) (hs : s.timersOk = true) :
    t.timersOk = true := by
  rwa [timersOk_iff, scanEntryOk_mono hu, perTimerOk_mono hu, hse, hpt, ← timersOk_iff]

/-- The entries of the two timer operations are valid as far as the operations are ones that the encoding has. -/
theorem Configured.timersOk (h : Configured true s t) (hs : s.timersOk = true) : t.timersOk = true := by
  have hu := h.keepsUnits
  cases h with
  | scan e hc hl hm =>
    obtain ⟨hse, hpt⟩ := timersOk_iff.1 hs
    refine timersOk_iff.2 ⟨?_, hpt⟩
    rw [scanEntryOk_mono hu, List.all_append, hse]
    simp [scanEntryOk, hc, hl, hm]
  | timer e hc hm =>
    obtain ⟨hse, hpt⟩ := timersOk_iff.1 hs
    refine timersOk_iff.2 ⟨hse, ?_⟩
    rw [perTimerOk_mono hu, List.map_append, List.all_append, hpt]
    simp [perTimerOk, PerTimer.setup, hc, hm]
  | range => exact timersOk_mono hu (by rw [bindTarget_eq]; rfl) (by rw [bindTarget_eq]; rfl) hs
  | start =>
    obtain ⟨-, -, -, -, -, -, -, hse, hpt⟩ := sameSetup_clearRunState s
    exact timersOk_mono hu hse hpt hs
  | _ => exact timersOk_mono hu rfl rfl hs

/-! ## All references -/

theorem refsOk_iff : s.refsOk = true ↔ s.banksOk = true ∧ s.targetsOk = true ∧ s.latchesOk = true ∧
    s.peripheralOk = true ∧ s.timersOk = true := by
  simp only [State.refsOk, Bool.and_eq_true, and_assoc]

theorem Update.refsOk (h : Update R s t) (hs : s.refsOk = true) : t.refsOk = true := by
  obtain ⟨hb, hg, hl, hp, ht⟩ := refsOk_iff.1 hs
  have hu := keepsUnits_of_sameSetup h.sameSetup
  obtain ⟨-, -, -, -, -, hpcfg, -, hse, hpt⟩ := h.sameSetup
  exact refsOk_iff.2 ⟨h.banksOk hb, targetsOk_of_sameSetup h.sameSetup hg, h.latchesOk hl,
    peripheralOk_mono hu hpcfg hp, timersOk_mono hu hse hpt ht⟩

theorem Configured.refsOk (h : Configured true s t) (hs : s.refsOk = true) : t.refsOk = true := by
  obtain ⟨hb, hg, hl, hp, ht⟩ := refsOk_iff.1 hs
  exact refsOk_iff.2 ⟨h.banksOk hb, h.targetsOk hg, h.latchesOk hl, h.peripheralOk hp, h.timersOk ht⟩

end Sys2Proof.Laws

namespace Sys2Proof.Proofs

open Sys2Proof.Machine Sys2Proof.Laws

/-- Settles O58, from the banks, the targets, the latches, the peripheral and the timers, each kept by every update of
the state. -/
theorem stepKeepsReferences : Obligations.StepKeepsReferences := fun _ _ hs h =>
  step_keeps (P := fun u => u.refsOk = true) (fun _ _ _ _ hu => hu) (fun hu => hu.refsOk) (fun _ hc => hc.refsOk) hs h

end Sys2Proof.Proofs
end

section
/-! The canonical form of memory, lines and unit tables (10_state.md R23, R27; log 5), and the fabric at power-on
(10_state.md R38). -/

namespace Sys2Proof.Laws

open Sys2Proof.Machine

variable {s t : State} {R : Prop}

/-! ## The unit tables -/

theorem tablesOk_iff : s.tablesOk = true ↔ Table.wf s.regions = true ∧ Table.wf s.banks = true ∧
    Table.wf s.latches = true ∧ Table.wf s.snaps = true := by
  simp only [State.tablesOk, Bool.and_eq_true, and_assoc]

theorem Update.tablesOk (h : Update R s t) (hs : s.tablesOk = true) : t.tablesOk = true := by
  obtain ⟨hr, hb, hl, hn⟩ := tablesOk_iff.1 hs
  rw [tablesOk_iff]
  cases h with
  | latch l k k' _ _ => exact ⟨hr, hb, wf_set hl _ _, hn⟩
  | bank b k a _ _ => exact ⟨hr, wf_set hb _ _, hl, hn⟩
  | byte r off g v _ _ _ => exact ⟨wf_set hr _ _, hb, hl, hn⟩
  | save slot => exact ⟨hr, hb, hl, wf_set hn _ _⟩
  | clear => rw [clearRunState_latches]; exact ⟨hr, hb, wf_mapVals _ hl, hn⟩
  | redraw => rw [redraw_latches]; exact ⟨hr, hb, wf_mapVals _ hl, hn⟩
  | restore slot n _ _ _ =>
    rw [restore_regions, restore_banks, restore_latches]
    exact ⟨wf_mapVals _ hr, wf_mapVals _ hb, wf_mapVals _ hl, hn⟩
  | raster => rw [nextScanline_eq]; exact ⟨hr, hb, hl, hn⟩
  | _ => exact ⟨hr, hb, hl, hn⟩

theorem wf_bindTarget (g : Target) (c : Nat) (sp : Space) (lo : Nat) (h : Table.wf s.banks = true) :
    Table.wf (bindTarget g c sp lo s).banks = true := by
  unfold bindTarget
  split
  · split
    · exact wf_set h _ _
    · exact h
  all_goals exact h

theorem Configured.tablesOk {wf : Bool} (h : Configured wf s t) (hs : s.tablesOk = true) : t.tablesOk = true := by
  obtain ⟨hr, hb, hl, hn⟩ := tablesOk_iff.1 hs
  rw [tablesOk_iff]
  cases h with
  | region r size mutbl _ _ => exact ⟨wf_set hr _ _, hb, hl, hn⟩
  | bank b k g _ _ _ _ _ _ _ => exact ⟨hr, wf_set hb _ _, hl, hn⟩
  | latch l k n _ _ _ => exact ⟨hr, hb, wf_set hl _ _, hn⟩
  | range c sp b lo hi mode g _ _ _ _ _ =>
    have hbind := wf_bindTarget g c sp lo hb
    rw [bindTarget_eq]
    exact ⟨hr, hbind, hl, hn⟩
  | start => dsimp only; rw [clearRunState_latches]; exact ⟨hr, hb, wf_mapVals _ hl, hn⟩
  | _ => exact ⟨hr, hb, hl, hn⟩

/-! ## The memory -/

theorem Update.memoryOk (h : Update R s t) (hs : s.memoryOk = true) : t.memoryOk = true := by
  cases h with
  | byte r off g v hg ho hm => exact regionWrite_memoryOk hs (regionWrite_next.2 ⟨g, hg, ho, (if_pos hm).symm⟩)
  | save slot => exact save_memoryOk hs slot
  | restore slot n hn hf _ => exact restore_memoryOk hs hn hf
  | raster => rw [nextScanline_eq]; exact hs
  | _ => exact hs

theorem Configured.memoryOk {wf : Bool} (h : Configured wf s t) (hs : s.memoryOk = true) : t.memoryOk = true := by
  cases h with
  | region r size mutbl _ _ => exact regionDefine_memoryOk hs r size mutbl
  | range => rw [bindTarget_eq]; exact hs
  | _ => exact hs

/-! ## The lines -/

theorem linesCanonical_iff {ls : Table LineRec} :
    linesCanonical ls = true ↔ Table.wf ls = true ∧ ls.all (fun e => e.2 != LineRec.cleared) = true := by
  simp only [linesCanonical, Bool.and_eq_true]

theorem linesCanonical_filter {ls : Table LineRec} (h : linesCanonical ls = true) (p : Nat × LineRec → Bool) :
    linesCanonical (ls.filter p) = true := by
  obtain ⟨hw, ha⟩ := linesCanonical_iff.1 h
  exact linesCanonical_iff.2 ⟨wf_filter hw p, all_filter ha p⟩

/-- A line's new record is listed just if it is not the cleared one. -/
theorem linesCanonical_setLineRec {ls : Table LineRec} (h : linesCanonical ls = true) (n : Nat) (r : LineRec) :
    linesCanonical (setLineRec ls n r) = true := by
  unfold setLineRec
  split
  · exact linesCanonical_filter h _
  · obtain ⟨hw, ha⟩ := linesCanonical_iff.1 h
    exact linesCanonical_iff.2 ⟨wf_set hw n r, all_set ha (bne_iff_ne.2 ‹_›)⟩

theorem linesOk_iff : s.linesOk = true ↔ (∀ (c : Nat) cpu, s.cpus[c]? = some cpu → linesCanonical cpu.lines = true) ∧
    s.snaps.all (fun n => n.2.cpus.all fun cpu => linesCanonical cpu.lines) = true := by
  rw [State.linesOk, Bool.and_eq_true, List.all_eq_true]
  refine and_congr_left fun _ => ⟨fun h c cpu hc => h cpu (List.mem_of_getElem? hc), fun h cpu hc => ?_⟩
  obtain ⟨c, hc⟩ := List.mem_iff_getElem?.1 hc
  exact h c cpu hc

/-- Changing one CPU keeps the lines canonical where it does so for the lines of that CPU. -/
theorem linesOk_modify {c : Nat} {f : Cpu → Cpu} (hs : s.linesOk = true)
    (hf : ∀ cpu, linesCanonical cpu.lines = true → linesCanonical (f cpu).lines = true) :
    State.linesOk { s with cpus := s.cpus.modify c f } = true := by
  obtain ⟨hc, hn⟩ := linesOk_iff.1 hs
  refine linesOk_iff.2 ⟨fun d cpu hd => ?_, hn⟩
  simp only [List.getElem?_modify, Option.map_eq_map, Option.map_eq_some_iff] at hd
  obtain ⟨old, hold, rfl⟩ := hd
  split
  · exact hf old (hc d old hold)
  · exact hc d old hold

theorem linesOk_modifySpace {c : Nat} {sp : Space} {f : BusSpace → BusSpace} (hs : s.linesOk = true) :
    (s.modifySpace c sp f).linesOk = true :=
  linesOk_modify hs fun cpu h => by rwa [setSpace_lines]

theorem clearRunState_linesOk (hs : s.linesOk = true) : s.clearRunState.linesOk = true := by
  obtain ⟨-, hn⟩ := linesOk_iff.1 hs
  refine linesOk_iff.2 ⟨fun c cpu hc => ?_, hn⟩
  rw [clearRunState_cpus, List.getElem?_map] at hc
  obtain ⟨old, -, rfl⟩ := Option.map_eq_some_iff.1 hc
  rfl

theorem redraw_linesOk (hs : s.linesOk = true) : s.redraw.linesOk = true := by
  obtain ⟨hc, hn⟩ := linesOk_iff.1 hs
  refine linesOk_iff.2 ⟨fun c cpu hd => ?_, hn⟩
  rw [redraw_cpus, List.getElem?_mapIdx] at hd
  obtain ⟨old, hold, rfl⟩ := Option.map_eq_some_iff.1 hd
  exact hc c old hold

theorem save_linesOk (hs : s.linesOk = true) (slot : Nat) :
    State.linesOk { s with snaps := Table.set s.snaps slot s.snapshot } = true := by
  obtain ⟨hc, hn⟩ := linesOk_iff.1 hs
  refine linesOk_iff.2 ⟨hc, all_set hn ?_⟩
  rw [snapshot_cpus, List.all_map, List.all_eq_true]
  intro cpu hcpu
  obtain ⟨c, hcpu⟩ := List.mem_iff_getElem?.1 hcpu
  exact linesCanonical_filter (hc c cpu hcpu) _

/-- A restored CPU has the lines that were saved for it. -/
theorem restore_linesOk {slot : Nat} {n : Snapshot} (hs : s.linesOk = true) (hn : Table.get s.snaps slot = some n) :
    (s.restore n).linesOk = true := by
  obtain ⟨-, hsn⟩ := linesOk_iff.1 hs
  refine linesOk_iff.2 ⟨fun c cpu hc => ?_, hsn⟩
  have hsaved := all_get (p := fun n => n.2.cpus.all fun cpu => linesCanonical cpu.lines) hsn hn
  rw [restore_cpus, List.getElem?_zipWith_eq_some] at hc
  obtain ⟨old, saved, -, hsv, rfl⟩ := hc
  exact List.all_eq_true.1 hsaved saved (List.mem_of_getElem? hsv)

theorem Update.linesOk (h : Update R s t) (hs : s.linesOk = true) : t.linesOk = true := by
  cases h with
  | line c n m v => exact linesOk_modify hs fun cpu hc => linesCanonical_setLineRec hc n _
  | pulses c => exact linesOk_modify hs fun cpu hc => linesCanonical_filter hc _
  | ldv c sp v => exact linesOk_modifySpace hs
  | save slot => exact save_linesOk hs slot
  | clear => exact clearRunState_linesOk hs
  | redraw => exact redraw_linesOk hs
  | restore slot n hn _ _ => exact restore_linesOk hs hn
  | raster => rw [nextScanline_eq]; exact hs
  | _ => exact hs

theorem Configured.linesOk {wf : Bool} (h : Configured wf s t) (hs : s.linesOk = true) : t.linesOk = true := by
  cases h with
  | range =>
    rw [bindTarget_eq]
    exact linesOk_modifySpace (s := { s with banks := _ }) hs
  | policy c sp m p o => exact linesOk_modifySpace hs
  | start => exact clearRunState_linesOk hs
  | _ => exact hs

/-! ## The canonical form -/

theorem canonicalOk_iff : s.canonicalOk = true ↔ s.memoryOk = true ∧ s.linesOk = true ∧ s.tablesOk = true := by
  simp only [State.canonicalOk, Bool.and_eq_true, and_assoc]

theorem Update.canonicalOk (h : Update R s t) (hs : s.canonicalOk = true) : t.canonicalOk = true := by
  obtain ⟨hm, hl, ht⟩ := canonicalOk_iff.1 hs
  exact canonicalOk_iff.2 ⟨h.memoryOk hm, h.linesOk hl, h.tablesOk ht⟩

theorem Configured.canonicalOk {wf : Bool} (h : Configured wf s t) (hs : s.canonicalOk = true) :
    t.canonicalOk = true := by
  obtain ⟨hm, hl, ht⟩ := canonicalOk_iff.1 hs
  exact canonicalOk_iff.2 ⟨h.memoryOk hm, h.linesOk hl, h.tablesOk ht⟩

/-! ## Power-on -/

variable {ncpu addrW lines : Nat}

@[simp] theorem powerOn_ncpu : (State.powerOn ncpu addrW lines).ncpu = ncpu := by simp [State.ncpu, State.powerOn]

/-- The CPUs at power-on, one by one. -/
theorem powerOn_cpus {c : Nat} {cpu : Cpu} :
    (State.powerOn ncpu addrW lines).cpus[c]? = some cpu ↔ c < ncpu ∧ Cpu.powerOn addrW c = cpu := by
  by_cases hc : c < ncpu <;> simp [State.powerOn, hc]

/-- The spaces at power-on, one by one. -/
theorem powerOn_space? {c : Nat} {sp : Space} {b : BusSpace} : (State.powerOn ncpu addrW lines).space? c sp = some b ↔
    c < ncpu ∧ BusSpace.powerOn c (sp == .io) addrW = b := by
  simp only [space?_some, powerOn_cpus, and_assoc, exists_and_left, exists_eq_left']
  cases sp <;> rfl

/-- Every line is cleared at power-on, those of CPUs that do not exist too. -/
theorem powerOn_line (c n : Nat) : (State.powerOn ncpu addrW lines).line c n = LineRec.cleared := by
  unfold State.line
  split
  next cpu h =>
    obtain ⟨-, rfl⟩ := powerOn_cpus.1 h
    rfl
  next => rfl

theorem powerOn_canonicalOk : (State.powerOn ncpu addrW lines).canonicalOk = true := by
  refine canonicalOk_iff.2 ⟨rfl, linesOk_iff.2 ⟨fun c cpu hc => ?_, rfl⟩, rfl⟩
  obtain ⟨-, rfl⟩ := powerOn_cpus.1 hc
  rfl

theorem powerOn_shapeOk (hl : 0 < lines) : (State.powerOn ncpu addrW lines).shapeOk = true := by
  refine shapeOk_iff.2 ⟨mapsOk_iff.2 fun c sp b hb => ?_, rasterOk_iff.2 hl, rfl⟩
  obtain ⟨-, rfl⟩ := powerOn_space?.1 hb
  rfl

theorem powerOn_refsOk : (State.powerOn ncpu addrW lines).refsOk = true := by
  refine refsOk_iff.2 ⟨rfl, targetsOk_iff.2 fun c sp b hb => ?_, rfl, rfl, rfl⟩
  obtain ⟨-, rfl⟩ := powerOn_space?.1 hb
  rfl

end Sys2Proof.Laws

namespace Sys2Proof.Proofs

open Sys2Proof.Machine Sys2Proof.Laws

/-- Settles O56, from the memory, the lines and the unit tables, each kept by every update of the state. -/
theorem stepKeepsCanonical : Obligations.StepKeepsCanonical := fun _ _ hs h =>
  step_keeps (P := fun u => u.canonicalOk = true) (fun _ _ _ _ hu => hu) (fun hu => hu.canonicalOk)
    (fun _ hc => hc.canonicalOk) hs h

/-- Settles O7. The mask of a space has as many ones as its addresses have bits, at most 32. -/
theorem powerOnValues : Obligations.PowerOnValues := by
  refine ⟨fun ncpu addrW lines hw => ⟨rfl, rfl, powerOn_ncpu, rfl, fun _ => ⟨rfl, rfl, rfl, rfl⟩, fun c sp hc => ?_,
    powerOn_line, rfl, rfl, rfl, rfl, rfl, rfl, rfl, rfl, rfl⟩, rfl⟩
  refine ⟨_, powerOn_space?.2 ⟨hc, rfl⟩, rfl, rfl, rfl, rfl, ?_⟩
  have hmask : 2 ^ addrW - 1 < 2 ^ 32 :=
    (Nat.sub_lt (Nat.two_pow_pos addrW) Nat.one_pos).trans_le (Nat.pow_le_pow_right (by decide) hw)
  exact (BitVec.toNat_ofNat _ _).trans (Nat.mod_eq_of_lt hmask)

/-- Settles O8: at power-on the invariants hold whatever the parameters, as far as there is a scanline. -/
theorem resetMeetsInvariants : Obligations.ResetMeetsInvariants :=
  ⟨powerOn_canonicalOk, powerOn_shapeOk (by decide), powerOn_refsOk⟩

end Sys2Proof.Proofs
end

section
/-! Which operations move a pending flag (10_state.md R34): the flag of one latch is followed through the shared
operations, each of which leaves it, sets it or clears it. -/

namespace Sys2Proof.Laws

open Sys2Proof.Machine

variable {s t u : State} {a b a' b' : Prop} {l m : Nat}

/-! ## How a flag moves -/

/-- The pending flag of latch `l`, where there is such a latch. -/
def flag? (s : State) (l : Nat) : Option Bool := (Table.get s.latches l).map Latch.pending

/-- From `s` to `t` the pending flag of latch `l` becomes set only where `a` holds, and clear only where `b` holds. -/
def FlagMoves (a b : Prop) (l : Nat) (s t : State) : Prop :=
  flag? t l = flag? s l ∨ (a ∧ flag? t l = some true) ∨ (b ∧ flag? t l = some false)

theorem FlagMoves.of_latches (h : t.latches = s.latches) : FlagMoves a b l s t := .inl (by rw [flag?, flag?, h])

theorem FlagMoves.refl (s : State) : FlagMoves a b l s s := .of_latches rfl

theorem FlagMoves.trans (h : FlagMoves a b l s t) (hu : FlagMoves a b l t u) : FlagMoves a b l s u := by
  rcases hu with hu | hu
  · rwa [FlagMoves, hu]
  · exact .inr hu

theorem FlagMoves.mono (h : FlagMoves a b l s t) (ha : a → a') (hb : b → b') : FlagMoves a' b' l s t :=
  h.imp_right (Or.imp (And.imp_left ha) (And.imp_left hb))

/-- A state that lists the same latches moves the flag in the same way. -/
theorem FlagMoves.congr_right (h : FlagMoves a b l s t) (hu : u.latches = t.latches) : FlagMoves a b l s u :=
  h.trans (.of_latches hu)

theorem flag?_setLatch (s : State) (m : Nat) (k : Latch) (l : Nat) :
    flag? (s.setLatch m k) l = if l = m then some k.pending else flag? s l := by
  rw [flag?, get_setLatch]
  split <;> rfl

/-- Replacing a latch's record moves that latch's flag only, to what the record says. -/
theorem flagMoves_setLatch (s : State) (m : Nat) (k : Latch) :
    FlagMoves (m = l ∧ k.pending = true) (m = l ∧ k.pending = false) l s (s.setLatch m k) := by
  unfold FlagMoves
  rw [flag?_setLatch]
  split
  · subst_vars
    cases hk : k.pending <;> simp
  · exact .inl rfl

/-! ## The shared operations -/

theorem latchLower_latches (k : Latch) (s : State) : (latchLower k s).latches = s.latches := by
  unfold latchLower
  split <;> rfl

theorem flagMoves_latchWrite {v : Byte} (h : latchWrite m v s = .next t) : FlagMoves (m = l) b l s t := by
  obtain ⟨k, -, rfl⟩ := latchWrite_next.1 h
  have hset : FlagMoves (m = l) b l s (s.setLatch m { k with value := v, pending := true }) :=
    (flagMoves_setLatch s m _).mono And.left fun hb => absurd hb.2 (by simp)
  refine hset.congr_right ?_
  split <;> exact emitIf_latches _ _

/-- Clearing a latch's flag, and lowering its line. -/
theorem flagMoves_clear (s : State) (m : Nat) (k : Latch) :
    FlagMoves a (m = l) l s (s.setLatch m { k with pending := false }) :=
  (flagMoves_setLatch s m _).mono (fun ha => absurd ha.2 (by simp)) And.left

theorem flagMoves_latchRead {p : Byte × State} (h : latchRead m s = .next p) : FlagMoves a (m = l) l s p.2 := by
  obtain ⟨k, -, rfl⟩ := latchRead_next.1 h
  have hemit : FlagMoves a (m = l) l s (s.emitIf (!k.pending)) := .of_latches (emitIf_latches _ _)
  have hclear := hemit.trans (flagMoves_clear _ m k)
  dsimp only
  split
  · exact hemit
  · split
    · exact hclear.congr_right (latchLower_latches _ _)
    · exact hclear

theorem flagMoves_latchAck (h : latchAck m s = .next t) : FlagMoves a (m = l) l s t := by
  obtain ⟨k, -, rfl⟩ := latchAck_next.1 h
  split
  · exact (flagMoves_clear s m k).congr_right (latchLower_latches _ _)
  · exact .of_latches rfl

theorem regionWrite_latches {r off : Nat} {v : Byte} (h : regionWrite r off v s = .next t) : t.latches = s.latches := by
  obtain ⟨g, -, -, rfl⟩ := regionWrite_next.1 h
  split <;> rfl

theorem bankWrite_latches {k off : Nat} {v : Byte} (h : bankWrite k off v s = .next t) : t.latches = s.latches := by
  obtain ⟨_, _, _, hw⟩ := bankWrite_next.1 h
  exact regionWrite_latches hw

theorem bankSelect_latches {k : Nat} {index : Word32} (h : bankSelect k index s = .next t) :
    t.latches = s.latches := by
  obtain ⟨k, -, rfl⟩ := bankSelect_next.1 h
  split
  · rfl
  · split <;> rfl

theorem externByte_latches (site : Config.Site) (s : State) : (externByte site s).2.latches = s.latches := by
  obtain ⟨x, n, h⟩ := externByte_state site s
  rw [h]

theorem latchPending_state {p : Bool × State} (h : latchPending m s = .next p) : p.2 = s := by
  obtain ⟨k, -, rfl⟩ := latchPending_next.1 h
  rfl

theorem scan_latches (es : List ScanEntry) (s : State) : (es.foldl fireScanEntry s).latches = s.latches := by
  induction es generalizing s with
  | nil => rfl
  | cons e es ih =>
    refine (ih _).trans ?_
    unfold fireScanEntry
    split <;> rfl

theorem nextScanline_latches (s : State) : s.nextScanline.latches = s.latches := by
  rw [nextScanline_eq]

theorem port2Byte_latches (w : PortWiring) (s : State) : (port2Byte w s).2.latches = s.latches := by
  unfold port2Byte
  split <;> first | exact externByte_latches _ _ | rfl

/-! ## The bus -/

section Bus

variable {x : Byte}

theorem flagMoves_readTarget {o : Byte} {g : Target} {off : Nat} {p : Byte × State}
    (h : readTarget o g off s = .next p) :
    FlagMoves a (g = .kLatchData x ∨ g = .kLatchAck x) x.toNat s p.2 := by
  cases g with
  | kMem region roff => obtain ⟨v, -, rfl⟩ := regionRead_next.1 h; exact .refl s
  | kBank bank => rw [updates_bankRead h]; exact .refl s
  | kLatchData latch =>
    exact (flagMoves_latchRead h).mono id fun hl => .inl (congrArg _ (BitVec.eq_of_toNat_eq hl))
  | kLatchAck latch =>
    obtain ⟨v, hv, hp⟩ := andThen_next.1 h
    rw [next_eq.1 hp]
    exact (flagMoves_latchAck hv).mono id fun hl => .inr (congrArg _ (BitVec.eq_of_toNat_eq hl))
  | kStatus l0 l1 l2 l3 valid invert =>
    obtain ⟨b0, h0, h⟩ := andThen_next.1 h
    obtain ⟨b1, h1, h⟩ := andThen_next.1 h
    obtain ⟨b2, h2, h⟩ := andThen_next.1 h
    obtain ⟨b3, h3, h⟩ := andThen_next.1 h
    rw [next_eq.1 h]
    dsimp only
    rw [statusFlag_state h3, statusFlag_state h2, statusFlag_state h1, statusFlag_state h0]
    exact .refl s
  | kBankSel bank shift mask => rw [next_eq.1 h]; exact .of_latches rfl
  | kLine tcpu line mode vec hasVec => rw [next_eq.1 h]; exact .of_latches rfl
  | kLineBit tcpu line bit active => rw [next_eq.1 h]; exact .of_latches rfl
  | kInput src => rw [next_eq.1 h]; exact .of_latches (externByte_latches _ s)
  | kSink sink => rw [next_eq.1 h]; exact .of_latches (externByte_latches _ s)

theorem flagMoves_writeTarget {g : Target} {off : Nat} {v : Byte} (h : writeTarget g off v s = .next t) :
    FlagMoves (g = .kLatchData x) (g = .kLatchAck x) x.toNat s t := by
  cases g with
  | kMem region roff => exact .of_latches (regionWrite_latches h)
  | kBank bank => exact .of_latches (bankWrite_latches h)
  | kLatchData latch => exact (flagMoves_latchWrite h).mono (fun hl => congrArg _ (BitVec.eq_of_toNat_eq hl)) id
  | kLatchAck latch => exact (flagMoves_latchAck h).mono id fun hl => congrArg _ (BitVec.eq_of_toNat_eq hl)
  | kStatus l0 l1 l2 l3 valid invert => rw [next_eq.1 h]; exact .of_latches rfl
  | kBankSel bank shift mask => exact .of_latches (bankSelect_latches h)
  | kLine tcpu line mode vec hasVec => rw [next_eq.1 h]; exact .of_latches rfl
  | kLineBit tcpu line bit active => rw [next_eq.1 h]; exact .of_latches rfl
  | kInput src => rw [next_eq.1 h]; exact .of_latches rfl
  | kSink sink => rw [next_eq.1 h]; exact .of_latches rfl

variable {c : Nat} {sp : Space} {addr : Word32}

theorem target?_of_resolve {dir : Dir} {d : BusSpace} {e : BusRange} {off : Nat} (hd : s.space? c sp = some d)
    (he : d.resolve addr dir = some (e, off)) : s.target? c sp addr dir = some e.target := by
  simp [State.target?, hd, he]

theorem flagMoves_busRead {p : Byte × State} (h : busRead c sp addr s = .next p) :
    FlagMoves a (s.target? c sp addr .rd = some (.kLatchData x) ∨ s.target? c sp addr .rd = some (.kLatchAck x))
      x.toNat s p.2 := by
  obtain ⟨d, hd, ⟨-, rfl⟩ | ⟨e, off, q, he, hq, rfl⟩⟩ := busRead_next.1 h
  · exact .of_latches rfl
  · rw [target?_of_resolve hd he, Option.some.injEq, Option.some.injEq]
    exact (flagMoves_readTarget hq).congr_right rfl

theorem flagMoves_busWrite {v : Byte} (h : busWrite c sp addr v s = .next t) :
    FlagMoves (s.target? c sp addr .wr = some (.kLatchData x)) (s.target? c sp addr .wr = some (.kLatchAck x))
      x.toNat s t := by
  obtain ⟨d, hd, ⟨-, rfl⟩ | ⟨e, off, q, he, hq, rfl⟩⟩ := busWrite_next.1 h
  · exact .of_latches rfl
  · rw [target?_of_resolve hd he, Option.some.injEq, Option.some.injEq]
    exact (flagMoves_writeTarget hq).congr_right rfl

end Bus

/-! ## The frames of the operations -/

theorem flagMoves_whenRun {f : State → Res} (h : whenRun s f = .next t)
    (hf : ∀ v, f { s with out := Output.empty } = .next v → FlagMoves a b l { s with out := Output.empty } v) :
    FlagMoves a b l s t := hf t (whenRun_next.1 h).2

theorem flagMoves_onCpu {c : Byte} {f : State → State} (h : onCpu c s f = .next t)
    (hf : ∀ v : State, (f v).latches = v.latches) : FlagMoves a b l s t := by
  refine flagMoves_whenRun h fun v hv => ?_
  split at hv
  · rw [next_eq.1 hv]; exact .of_latches (hf _)
  · simp at hv

theorem flagMoves_onPorts {f : PortWiring → State → Res} (h : onPorts s f = .next t)
    (hf : ∀ w v, s.pcfg = some w → f w { s with out := Output.empty } = .next v →
      FlagMoves a b l { s with out := Output.empty } v) : FlagMoves a b l s t := by
  refine flagMoves_whenRun h fun v hv => ?_
  split at hv
  · simp at hv
  · exact hf _ _ ‹_› hv

theorem flagMoves_giveByte {p : Byte × State} (h : FlagMoves a b l s p.2) (ht : giveByte p = .next t) :
    FlagMoves a b l s t := by
  rw [next_eq.1 ht]
  exact h.congr_right rfl

theorem flagMoves_configure {e : Option ErrCode} {i : Instr} (h : configure e i s u = .next t)
    (hu : e = none → FlagMoves a b l s u) : FlagMoves a b l s t := by
  rw [configure_eq] at h
  rw [next_eq.1 h]
  cases e with
  | some code => exact .of_latches rfl
  | none => exact hu rfl

/-- A configuration operation whose change is none of the latches. -/
theorem flagMoves_whenConfig {e : State → Option ErrCode} {i : Instr} {f : State → State}
    (h : whenConfig s (fun s => configure (e s) i s (f s)) = .next t)
    (hf : (f { s with out := Output.empty }).latches = s.latches) : FlagMoves a b l s t :=
  flagMoves_configure (s := { s with out := Output.empty }) (whenConfig_next.1 h).2 fun _ => .of_latches hf

/-- Every flag is clear after SYS.START and SYS.RESET (45_system.md R281, R282). -/
theorem flagMoves_clearRunState (s : State) : FlagMoves a True l s s.clearRunState := by
  have hflag : flag? s.clearRunState l = (flag? s l).map fun _ => false := by
    simp [flag?, Function.comp_def]
  rw [FlagMoves, hflag]
  cases flag? s l <;> simp

/-- New latch values move no flag. -/
theorem flagMoves_redraw (s : State) : FlagMoves a b l s s.redraw := by
  refine .inl ?_
  simp [flag?, Function.comp_def]

/-- SYS.RESTORE overwrites the flags of the latches there are. -/
theorem flagMoves_restore (s : State) (n : Snapshot) : FlagMoves True True l s (s.restore n) := by
  unfold FlagMoves flag?
  rw [restore_latches, get_mapVals]
  cases hk : Table.get s.latches l with
  | none => exact .inl rfl
  | some k => cases hp : (Table.get n.latchPending l).getD k.pending <;> simp [hp]

/-- P0.WRITE: a rising edge sends, a falling edge acknowledges (44_peripheral.md R251). -/
theorem flagMoves_p0Write {v : Byte} (h : execP0Write v s = .next t) :
    FlagMoves (∃ w, s.pcfg = some w ∧ w.outLatch.toNat = l ∧ risingEdge s.p0 v w.outBit.toNat = true)
      (∃ w, s.pcfg = some w ∧ w.inLatch.toNat = l ∧ fallingEdge s.p0 v w.ackBit.toNat = true) l s t := by
  refine flagMoves_onPorts h fun w x hw hx => ?_
  dsimp only at hx
  obtain ⟨y, hy, hx⟩ := andThen_next.1 hx
  refine FlagMoves.trans (t := y) ?_ ?_
  · split at hy
    next hrise =>
      refine FlagMoves.trans ?_ ((flagMoves_latchWrite hy).mono (fun hl => ⟨w, hw, hl, hrise⟩) id)
      exact .of_latches (emitIf_latches _ _)
    next =>
      rw [next_eq.1 hy]
      exact .of_latches (emitIf_latches _ _)
  · split at hx
    next hfall => exact (flagMoves_latchAck hx).mono id fun hl => ⟨w, hw, hl, hfall⟩
    next => rw [next_eq.1 hx]; exact .refl y

/-- P3.READ reads two flags and moves none (44_peripheral.md R258). -/
theorem flagMoves_p3Read (h : execP3Read s = .next t) : FlagMoves a b l s t := by
  refine flagMoves_onPorts h fun w x _ hx => ?_
  dsimp only at hx
  obtain ⟨i, hi, hx⟩ := andThen_next.1 hx
  obtain ⟨o, ho, hx⟩ := andThen_next.1 hx
  refine flagMoves_giveByte (.of_latches ?_) hx
  dsimp only
  rw [latchPending_state ho, latchPending_state hi]
  exact (externByte_latches _ _).trans (externByte_latches _ _)

/-! ## Every operation -/

/-- The ways to clear the flag of latch `x` by an operation (10_state.md R34). -/
def mayClear (i : Instr) (s : State) (x : Byte) : Prop :=
  clearsLatch i s x ∨ i = .sysReset ∨ i = .sysStart ∨ ∃ slot, i = .sysRestore slot

/-- The ways to set the flag of latch `x` by an operation (10_state.md R34). -/
def maySet (i : Instr) (s : State) (x : Byte) : Prop := setsLatch i s x ∨ ∃ slot, i = .sysRestore slot

variable {x : Byte} {i : Instr}

/-- A read of the bus clears a flag just through a latch register. -/
theorem mayClear_of_read {sp : Space} {c : Byte} {addr : Word32}
    (h : s.target? c.toNat sp addr .rd = some (.kLatchData x) ∨ s.target? c.toNat sp addr .rd = some (.kLatchAck x)) :
    mayClear (readOp sp c addr) s x :=
  h.elim (fun h => .inl (.inr (.inr (.inl ⟨c, sp, addr, rfl, h⟩))))
    fun h => .inl (.inr (.inr (.inr (.inl ⟨c, sp, addr, rfl, h⟩))))

theorem maySet_of_write {sp : Space} {c v : Byte} {addr : Word32}
    (h : s.target? c.toNat sp addr .wr = some (.kLatchData x)) : maySet (writeOp sp c addr v) s x :=
  .inl (.inr (.inl ⟨c, sp, addr, v, rfl, h⟩))

theorem mayClear_of_write {sp : Space} {c v : Byte} {addr : Word32}
    (h : s.target? c.toNat sp addr .wr = some (.kLatchAck x)) : mayClear (writeOp sp c addr v) s x :=
  .inl (.inr (.inr (.inr (.inr (.inl ⟨c, sp, addr, v, rfl, h⟩)))))

theorem mayClear_p1Read {w : PortWiring} (hw : s.pcfg = some w) (hl : w.inLatch.toNat = x.toNat) :
    mayClear .p1Read s x :=
  .inl (.inr (.inr (.inr (.inr (.inr (.inl ⟨w, rfl, hw, BitVec.eq_of_toNat_eq hl⟩))))))

theorem maySet_p0Write {w : PortWiring} {v : Byte} (hw : s.pcfg = some w) (hl : w.outLatch.toNat = x.toNat)
    (hrise : risingEdge s.p0 v w.outBit.toNat = true) : maySet (.p0Write v) s x :=
  .inl (.inr (.inr ⟨v, w, rfl, hw, BitVec.eq_of_toNat_eq hl, hrise⟩))

theorem mayClear_p0Write {w : PortWiring} {v : Byte} (hw : s.pcfg = some w) (hl : w.inLatch.toNat = x.toNat)
    (hfall : fallingEdge s.p0 v w.ackBit.toNat = true) : mayClear (.p0Write v) s x :=
  .inl (.inr (.inr (.inr (.inr (.inr (.inr ⟨v, w, rfl, hw, BitVec.eq_of_toNat_eq hl, hfall⟩))))))

/-- A read of the bus, in either space. -/
theorem flagMoves_readOp {sp : Space} {c : Byte} {addr : Word32}
    (h : whenRun s (fun s => andThen (busRead c.toNat sp addr s) giveByte) = .next t) :
    FlagMoves (maySet (readOp sp c addr) s x) (mayClear (readOp sp c addr) s x) x.toNat s t := by
  refine flagMoves_whenRun h fun v hv => ?_
  obtain ⟨p, hp, hv⟩ := andThen_next.1 hv
  exact flagMoves_giveByte ((flagMoves_busRead hp).mono id mayClear_of_read) hv

/-- A write of the bus, in either space. -/
theorem flagMoves_writeOp {sp : Space} {c v : Byte} {addr : Word32}
    (h : whenRun s (busWrite c.toNat sp addr v) = .next t) :
    FlagMoves (maySet (writeOp sp c addr v) s x) (mayClear (writeOp sp c addr v) s x) x.toNat s t :=
  flagMoves_whenRun h fun _ hv => (flagMoves_busWrite hv).mono maySet_of_write mayClear_of_write

/-- A configuration operation moves the flag of a latch there is by SYS.START only: LATCH.CONFIGURE takes a new
latch. -/
theorem flagMoves_config {k : Latch} (hk : Table.get s.latches x.toNat = some k) (hp : phaseOf i = .config)
    (h : exec i s = .next t) : FlagMoves (maySet i s x) (mayClear i s x) x.toNat s t := by
  cases i with
  | sysStart =>
    have h : execSysStart s = .next t := h
    rw [next_eq.1 (whenConfig_next.1 h).2]
    exact ((flagMoves_clearRunState s).mono id fun _ => .inr (.inr (.inl rfl))).congr_right rfl
  | latchConfigure l mode ht fire de hv tcpu tline vec =>
    have h : execLatchConfigure l mode ht fire de hv tcpu tline vec s = .next t := h
    refine flagMoves_configure (s := { s with out := Output.empty }) (whenConfig_next.1 h).2 fun he => .inl ?_
    have hne : x.toNat ≠ l.toNat := by
      intro heq
      have hnone : Table.get s.latches l.toNat = none := (latchConfigureError_none he).1
      simp [← heq, hk] at hnone
    rw [flag?_setLatch, if_neg hne]
    rfl
  | regionDefine r mutbl size =>
    have h : execRegionDefine r mutbl size s = .next t := h
    exact flagMoves_whenConfig h rfl
  | bankConfigure c policy start region count wsize xor =>
    have h : execBankConfigure c policy start region count wsize xor s = .next t := h
    exact flagMoves_whenConfig h rfl
  | busRegisterRange c mode sp lo hi g =>
    have h : execBusRegisterRange c mode sp lo hi g s = .next t := h
    exact flagMoves_whenConfig h (by rw [bindTarget_eq]; rfl)
  | busSetPolicy c policy sp mask obc =>
    have h : execBusSetPolicy c policy sp mask obc s = .next t := h
    exact flagMoves_whenConfig h rfl
  | scanConfigure c n line mode hv vec =>
    have h : execScanConfigure c n line mode hv vec s = .next t := h
    exact flagMoves_whenConfig h rfl
  | perConfigure c n hz mode hv vec =>
    have h : execPerConfigure c n hz mode hv vec s = .next t := h
    exact flagMoves_whenConfig h rfl
  | portConfigure w =>
    have h : execPortConfigure w s = .next t := h
    exact flagMoves_whenConfig h rfl
  | _ => simp [phaseOf] at hp

/-- A run-time operation moves the flag of a latch only in one of the ways of 10_state.md R34. -/
theorem flagMoves_run (hp : phaseOf i = .run) (h : exec i s = .next t) :
    FlagMoves (maySet i s x) (mayClear i s x) x.toNat s t := by
  cases i with
  | sysReset =>
    have h : execSysReset s = .next t := h
    refine flagMoves_whenRun h fun v hv => ?_
    rw [next_eq.1 hv]
    exact ((flagMoves_clearRunState _).mono id fun _ => .inr (.inl rfl)).trans
      ((flagMoves_redraw _).congr_right (restartAll_latches _))
  | sysSave slot =>
    have h : execSysSave slot s = .next t := h
    exact flagMoves_whenRun h fun v hv => by rw [next_eq.1 hv]; exact .of_latches rfl
  | sysRestore slot =>
    have h : execSysRestore slot s = .next t := h
    refine flagMoves_whenRun h fun v hv => ?_
    split at hv
    · simp at hv
    · split at hv
      · rw [next_eq.1 hv]
        exact (flagMoves_restore _ _).mono (fun _ => .inr ⟨slot, rfl⟩) fun _ => .inr (.inr (.inr ⟨slot, rfl⟩))
      · simp at hv
  | bankSelect k index => exact flagMoves_whenRun h fun v hv => .of_latches (bankSelect_latches hv)
  | bankRead k offset =>
    have h : execBankRead k offset s = .next t := h
    refine flagMoves_whenRun h fun v hv => ?_
    obtain ⟨p, hp, hv⟩ := andThen_next.1 hv
    exact flagMoves_giveByte (.of_latches (by rw [updates_bankRead hp])) hv
  | bankWrite k offset v => exact flagMoves_whenRun h fun u hu => .of_latches (bankWrite_latches hu)
  | latchWrite l v =>
    exact flagMoves_whenRun h fun u hu => (flagMoves_latchWrite hu).mono
      (fun hl => .inl (.inl ⟨v, by rw [BitVec.eq_of_toNat_eq hl]⟩)) id
  | latchRead l =>
    have h : execLatchRead l s = .next t := h
    refine flagMoves_whenRun h fun v hv => ?_
    obtain ⟨p, hp, hv⟩ := andThen_next.1 hv
    exact flagMoves_giveByte ((flagMoves_latchRead hp).mono id
      fun hl => .inl (.inl (by rw [BitVec.eq_of_toNat_eq hl]))) hv
  | latchAck l =>
    exact flagMoves_whenRun h fun u hu => (flagMoves_latchAck hu).mono id
      fun hl => .inl (.inr (.inl (by rw [BitVec.eq_of_toNat_eq hl])))
  | latchPendingR l =>
    have h : execLatchPendingR l s = .next t := h
    refine flagMoves_whenRun h fun v hv => ?_
    obtain ⟨p, hp, hv⟩ := andThen_next.1 hv
    rw [next_eq.1 hv]
    exact .of_latches (by rw [withResult_latches, latchPending_state hp])
  | busRead c addr => exact flagMoves_readOp (sp := .mem) h
  | ioRead c addr => exact flagMoves_readOp (sp := .io) h
  | busWrite c addr v => exact flagMoves_writeOp (sp := .mem) h
  | ioWrite c addr v => exact flagMoves_writeOp (sp := .io) h
  | lineClear c n =>
    have h : execLineClear c n s = .next t := h
    exact flagMoves_onCpu h fun v => emitIf_latches _ _
  | lineAssert c n hasVec vec => exact flagMoves_onCpu h fun v => rfl
  | linePulse c n hasVec vec => exact flagMoves_onCpu h fun v => rfl
  | lineHold c n hasVec vec => exact flagMoves_onCpu h fun v => rfl
  | cpuPoll c =>
    have h : execCpuPoll c s = .next t := h
    refine flagMoves_whenRun h fun v hv => ?_
    split at hv
    · simp at hv
    · rw [next_eq.1 hv]; exact .of_latches rfl
  | cpuIack c n =>
    have h : execCpuIack c n s = .next t := h
    exact flagMoves_onCpu h fun v => by split <;> rfl
  | scanAdvance =>
    have h : execScanAdvance s = .next t := h
    refine flagMoves_whenRun h fun v hv => ?_
    rw [next_eq.1 hv]
    exact .of_latches ((scan_latches _ _).trans (nextScanline_latches _))
  | perTick j =>
    have h : execPerTick j s = .next t := h
    refine flagMoves_whenRun h fun v hv => ?_
    split at hv
    · simp at hv
    · rw [next_eq.1 hv]; exact .of_latches rfl
  | p0Read =>
    have h : execP0Read s = .next t := h
    exact flagMoves_onPorts h fun w v _ hv => flagMoves_giveByte (p := (s.p0, _)) (.refl _) hv
  | p1Read =>
    have h : execP1Read s = .next t := h
    refine flagMoves_onPorts h fun w v hw hv => ?_
    obtain ⟨p, hp, hv⟩ := andThen_next.1 hv
    exact flagMoves_giveByte ((flagMoves_latchRead hp).mono id (mayClear_p1Read hw)) hv
  | p2Read =>
    have h : execP2Read s = .next t := h
    exact flagMoves_onPorts h fun w v _ hv => flagMoves_giveByte (.of_latches (port2Byte_latches w _)) hv
  | p3Read => exact flagMoves_p3Read h
  | p0Write v =>
    exact (flagMoves_p0Write h).mono (fun ⟨_, hw, hl, hrise⟩ => maySet_p0Write hw hl hrise)
      fun ⟨_, hw, hl, hfall⟩ => mayClear_p0Write hw hl hfall
  | p1Write v =>
    have h : execP1Write v s = .next t := h
    exact flagMoves_onPorts h fun w u _ hu => by rw [next_eq.1 hu]; exact .of_latches rfl
  | p2Write v =>
    have h : execP2Write v s = .next t := h
    exact flagMoves_onPorts h fun w u _ hu => by rw [next_eq.1 hu]; exact .of_latches rfl
  | p3Write v =>
    have h : execP3Write v s = .next t := h
    exact flagMoves_onPorts h fun w u _ hu => by rw [next_eq.1 hu]; exact .of_latches rfl
  | _ => simp [phaseOf] at hp

end Sys2Proof.Laws

namespace Sys2Proof.Proofs

open Sys2Proof.Machine Sys2Proof.Laws

/-- Settles O26, from how each operation moves the flag of the latch. -/
theorem pendingChangesOnlySo : Obligations.PendingChangesOnlySo := by
  intro i s t l k k' h hk hk'
  have hmoves : FlagMoves (maySet i s l) (mayClear i s l) l.toNat s t :=
    (phaseOf_cases i).elim (fun hp => flagMoves_config hk hp h) fun hp => flagMoves_run hp h
  simp only [FlagMoves, flag?, hk, hk', Option.map_some, Option.some.injEq] at hmoves
  rcases hmoves with hsame | ⟨hset, htrue⟩ | ⟨hclear, hfalse⟩
  · exact ⟨fun h0 h1 => by simp [hsame, h0] at h1, fun h0 h1 => by simp [hsame, h0] at h1⟩
  · exact ⟨fun _ _ => hset, fun _ h1 => by simp [htrue] at h1⟩
  · exact ⟨fun _ h1 => by simp [hfalse] at h1, fun _ _ => hclear⟩

end Sys2Proof.Proofs
end

section
/-! What an operation of `PHASE = RUN` leaves alone unless it is a bus access, BANK.SELECT, SYS.RESET or SYS.RESTORE, and
from it what changes a last decoded value (20_memory.md R60) and an active entry (R61). -/

namespace Sys2Proof.Machine

open Sys2Proof.Laws

variable {s t u : State}

/-! ## The frames of the shared operations -/

theorem latchWrite_unchanged {l : Nat} {v : Byte} (h : latchWrite l v s = .next t) :
    Unchanged s t [.latches, .lines, .out] := by
  obtain ⟨k, -, rfl⟩ := latchWrite_next.1 h
  have written : Unchanged s ((s.setLatch l { k with value := v, pending := true }).emitIf k.pending)
      [.latches, .lines, .out] :=
    ((unchanged_setLatch s l _).mono (by simp)).trans ((unchanged_emitIf _ _).mono (by simp))
  split
  · exact written.trans ((unchanged_lineSet _ _ _ _ _).mono (by simp))
  · exact written

theorem latchRead_unchanged {l : Nat} {p : Byte × State} (h : latchRead l s = .next p) :
    Unchanged s p.2 [.latches, .lines, .out] := by
  obtain ⟨k, hk, -⟩ := latchRead_next.1 h
  obtain ⟨u, hu, -, -, hf⟩ := latchRead_effect hk
  cases hu.symm.trans h
  exact hf

theorem latchAck_unchanged {l : Nat} (h : latchAck l s = .next t) : Unchanged s t [.latches, .lines, .out] := by
  obtain ⟨k, hk, -⟩ := latchAck_next.1 h
  obtain ⟨u, hu, -, -, hf⟩ := latchAck_effect hk
  cases hu.symm.trans h
  exact hf

theorem regionWrite_unchanged {r off : Nat} {v : Byte} (h : regionWrite r off v s = .next t) :
    Unchanged s t [.memory, .out] := by
  obtain ⟨g, hg, ho, -⟩ := regionWrite_next.1 h
  obtain ⟨u, hu, -, -, hf⟩ := regionWrite_effect hg ho v
  cases hu.symm.trans h
  exact hf

theorem bankWrite_unchanged {b off : Nat} {v : Byte} (h : bankWrite b off v s = .next t) :
    Unchanged s t [.memory, .out] := by
  obtain ⟨_, -, -, hw⟩ := bankWrite_next.1 h
  exact regionWrite_unchanged hw

theorem bankSelect_unchanged {b : Nat} {index : Word32} (h : bankSelect b index s = .next t) :
    Unchanged s t [.banks, .out] := by
  obtain ⟨k, hk, -⟩ := bankSelect_next.1 h
  obtain ⟨u, hu, -, -, -, hf⟩ := bankSelect_effect hk index
  cases hu.symm.trans h
  exact hf

/-- BANK.SELECT leaves every other bank alone. -/
theorem bankSelect_other {b m : Nat} {index : Word32} (h : bankSelect b index s = .next t) (hm : m ≠ b) :
    Table.get t.banks m = Table.get s.banks m := by
  obtain ⟨k, hk, -⟩ := bankSelect_next.1 h
  obtain ⟨u, hu, -, ho, -⟩ := bankSelect_effect hk index
  cases hu.symm.trans h
  exact ho m hm

theorem scan_unchanged (es : List ScanEntry) (s : State) : Unchanged s (es.foldl fireScanEntry s) [.lines] := by
  induction es generalizing s with
  | nil => exact .refl s _
  | cons e es ih =>
    refine Unchanged.trans ?_ (ih _)
    unfold fireScanEntry
    split
    · exact unchanged_lineSet _ _ _ _ _
    · exact .refl s _

/-- A CPU.POLL changes lines only (43_coordinator.md R215). -/
theorem unchanged_pulses (s : State) (c : Nat) :
    Unchanged s { s with cpus := s.cpus.modify c fun cpu => { cpu with lines := clearPulses cpu.lines } } [.lines] := by
  have spaces : ∀ d sp, State.space? { s with cpus := s.cpus.modify c fun cpu =>
      { cpu with lines := clearPulses cpu.lines } } d sp = s.space? d sp := by
    intro d sp
    simp only [State.space?, List.getElem?_modify]
    cases s.cpus[d]? with
    | none => rfl
    | some cpu => by_cases h : c = d <;> cases sp <;> simp [h, Cpu.space]
  intro p hp
  cases p <;> first
    | exact absurd (List.mem_singleton.2 rfl) hp
    | simp [Part.same, State.ldv?, State.ncpu, spaces]; done
    | exact fun _ => rfl
    | exact fun _ _ => rfl

/-! ## The frame of the run-time operations -/

/-- The run-time state but for the last decoded values, the banks and the CPUs that are to begin with their poll. -/
def runParts : List Part :=
  [.memory, .latches, .lines, .p0, .p1, .p2, .p3, .raster, .timers, .snaps, .extIn, .draws, .out]

theorem Unchanged.within {but : List Part} (h : Unchanged s t but) (hb : but ⊆ runParts := by simp [runParts]) :
    Unchanged s t runParts := h.mono hb

theorem unchanged_scalars (s : State) (p0 p1 p2 p3 : Byte) (v f : Nat) (ts : List PerTimer) (sn : Table Snapshot)
    (x : List Byte) (n : Nat) : Unchanged s { s with
      p0 := p0, p1 := p1, p2 := p2, p3 := p3, scanV := v, scanF := f, perTimers := ts, snaps := sn, extIn := x,
      draws := n } runParts := by
  intro p hp
  cases p <;> first
    | exact absurd (by decide) hp
    | exact fun _ => rfl
    | exact fun _ _ => rfl
    | exact ⟨rfl, fun _ _ => rfl⟩
    | exact ⟨rfl, rfl⟩
    | rfl

theorem externByte_unchanged (site : Config.Site) (s : State) : Unchanged s (externByte site s).2 runParts :=
  (externByte_effect site s).2.2.2.within

theorem port2Byte_unchanged (w : PortWiring) (s : State) : Unchanged s (port2Byte w s).2 runParts := by
  unfold port2Byte
  split
  case h_4 => exact unchanged_scalars s _ _ _ _ _ _ _ _ _ _
  all_goals exact externByte_unchanged _ s

theorem unchanged_whenRun {f : State → Res} (h : whenRun s f = .next t)
    (hf : f { s with out := Output.empty } = .next t → Unchanged { s with out := Output.empty } t runParts) :
    Unchanged s t runParts :=
  ((unchanged_out s _).within).trans (hf (whenRun_next.1 h).2)

theorem unchanged_onCpu {c : Byte} {f : State → State} (h : onCpu c s f = .next t)
    (hf : ∀ u, Unchanged u (f u) [.lines, .out]) : Unchanged s t runParts := by
  refine unchanged_whenRun h fun ht => ?_
  split at ht
  · rw [next_eq.1 ht]; exact (hf _).within
  · simp at ht

theorem unchanged_onPorts {f : PortWiring → State → Res} (h : onPorts s f = .next t)
    (hf : ∀ w u, f w u = .next t → Unchanged u t runParts) : Unchanged s t runParts := by
  refine unchanged_whenRun h fun ht => ?_
  split at ht
  · simp at ht
  · exact hf _ _ ht

theorem unchanged_giveByte {p : Byte × State} {but : List Part} (h : Unchanged s p.2 but) (ht : giveByte p = .next t)
    (hb : but ⊆ runParts := by simp [runParts]) : Unchanged s t runParts := by
  rw [next_eq.1 ht]
  exact (h.within hb).trans ((unchanged_withResult _ _).within)

theorem unchanged_p3Read (h : execP3Read s = .next t) : Unchanged s t runParts := by
  refine unchanged_onPorts h fun w u hu => ?_
  dsimp only at hu
  obtain ⟨i, hi, hu⟩ := andThen_next.1 hu
  obtain ⟨o, ho, hu⟩ := andThen_next.1 hu
  refine unchanged_giveByte (but := runParts) ?_ hu
  dsimp only
  rw [latchPending_state ho, latchPending_state hi]
  exact (externByte_unchanged _ _).trans (externByte_unchanged _ _)

theorem unchanged_p0Write {v : Byte} (h : execP0Write v s = .next t) : Unchanged s t runParts := by
  refine unchanged_onPorts h fun w u hu => ?_
  dsimp only at hu
  obtain ⟨y, hy, hu⟩ := andThen_next.1 hu
  have shadow : Unchanged u (State.emitIf { u with p0 := v } (!risingEdge u.p0 v w.outBit.toNat &&
      !fallingEdge u.p0 v w.ackBit.toNat)) runParts :=
    (unchanged_scalars u v _ _ _ _ _ _ _ _ _).trans ((unchanged_emitIf _ _).within)
  have sent : Unchanged u y runParts := by
    split at hy
    · exact shadow.trans ((latchWrite_unchanged hy).within)
    · rw [next_eq.1 hy]; exact shadow
  split at hu
  · exact sent.trans ((latchAck_unchanged hu).within)
  · rw [next_eq.1 hu]; exact sent

/-- BUS.READ and IO.READ, in the space they name. -/
theorem exec_readOp (sp : Space) (c : Byte) (addr : Word32) (s : State) :
    exec (readOp sp c addr) s = whenRun s fun s => andThen (busRead c.toNat sp addr s) giveByte := by
  cases sp <;> rfl

/-- BUS.WRITE and IO.WRITE, in the space they name. -/
theorem exec_writeOp (sp : Space) (c : Byte) (addr : Word32) (v : Byte) (s : State) :
    exec (writeOp sp c addr v) s = whenRun s (busWrite c.toNat sp addr v) := by
  cases sp <;> rfl

/-- A run-time operation leaves the last decoded values, the banks and the configuration alone, unless it is one of the
operations that are made to change them. -/
theorem exec_run_cases {i : Instr} (hp : phaseOf i = .run) (h : exec i s = .next t) : Unchanged s t runParts ∨
    (∃ sp c addr, i = readOp sp c addr) ∨ (∃ sp c addr v, i = writeOp sp c addr v) ∨
    (∃ b index, i = .bankSelect b index) ∨ i = .sysReset ∨ ∃ slot, i = .sysRestore slot := by
  cases i with
  | sysReset => simp
  | sysRestore slot => simp
  | bankSelect b index => simp
  | busRead c addr => exact .inr (.inl ⟨.mem, c, addr, rfl⟩)
  | ioRead c addr => exact .inr (.inl ⟨.io, c, addr, rfl⟩)
  | busWrite c addr v => exact .inr (.inr (.inl ⟨.mem, c, addr, v, rfl⟩))
  | ioWrite c addr v => exact .inr (.inr (.inl ⟨.io, c, addr, v, rfl⟩))
  | sysSave slot =>
    have h : execSysSave slot s = .next t := h
    refine .inl (unchanged_whenRun h fun ht => ?_)
    rw [next_eq.1 ht]
    exact unchanged_scalars _ _ _ _ _ _ _ _ _ _ _
  | bankRead b offset =>
    have h : execBankRead b offset s = .next t := h
    refine .inl (unchanged_whenRun h fun ht => ?_)
    obtain ⟨p, hp, ht⟩ := andThen_next.1 ht
    exact unchanged_giveByte (but := []) (by rw [updates_bankRead hp]; exact .refl _ _) ht
  | bankWrite b offset v =>
    exact .inl (unchanged_whenRun h fun ht => (bankWrite_unchanged ht).within)
  | latchWrite l v => exact .inl (unchanged_whenRun h fun ht => (latchWrite_unchanged ht).within)
  | latchRead l =>
    have h : execLatchRead l s = .next t := h
    refine .inl (unchanged_whenRun h fun ht => ?_)
    obtain ⟨p, hp, ht⟩ := andThen_next.1 ht
    exact unchanged_giveByte (latchRead_unchanged hp) ht
  | latchAck l => exact .inl (unchanged_whenRun h fun ht => (latchAck_unchanged ht).within)
  | latchPendingR l =>
    have h : execLatchPendingR l s = .next t := h
    refine .inl (unchanged_whenRun h fun ht => ?_)
    obtain ⟨p, hp, ht⟩ := andThen_next.1 ht
    rw [next_eq.1 ht, latchPending_state hp]
    exact (unchanged_withResult _ _).within
  | lineClear c n =>
    have h : execLineClear c n s = .next t := h
    exact .inl (unchanged_onCpu h fun u => ((unchanged_emitIf u _).mono (by simp)).trans
      ((unchanged_lineSet _ _ _ _ _).mono (by simp)))
  | lineAssert c n hasVec vec => exact .inl (unchanged_onCpu h fun u => (unchanged_lineSet _ _ _ _ u).mono (by simp))
  | linePulse c n hasVec vec => exact .inl (unchanged_onCpu h fun u => (unchanged_lineSet _ _ _ _ u).mono (by simp))
  | lineHold c n hasVec vec => exact .inl (unchanged_onCpu h fun u => (unchanged_lineSet _ _ _ _ u).mono (by simp))
  | cpuPoll c =>
    have h : execCpuPoll c s = .next t := h
    refine .inl (unchanged_whenRun h fun ht => ?_)
    split at ht
    · simp at ht
    · rw [next_eq.1 ht]
      exact ((unchanged_pulses _ _).within).trans
        ((unchanged_withResult _ _).within)
  | cpuIack c n =>
    have h : execCpuIack c n s = .next t := h
    refine .inl (unchanged_onCpu h fun u => ?_)
    split
    · exact (unchanged_setLine _ _ _ u).mono (by simp)
    · exact (unchanged_emit u _).mono (by simp)
  | scanAdvance =>
    have h : execScanAdvance s = .next t := h
    refine .inl (unchanged_whenRun h fun ht => ?_)
    rw [next_eq.1 ht, nextScanline_eq]
    exact (unchanged_scalars _ _ _ _ _ _ _ _ _ _ _).trans ((scan_unchanged _ _).within)
  | perTick j =>
    have h : execPerTick j s = .next t := h
    refine .inl (unchanged_whenRun h fun ht => ?_)
    split at ht
    · simp at ht
    · rw [next_eq.1 ht]
      exact (unchanged_scalars _ _ _ _ _ _ _ _ _ _ _).trans ((unchanged_lineSet _ _ _ _ _).within)
  | p0Read =>
    have h : execP0Read s = .next t := h
    exact .inl (unchanged_onPorts h fun w u hu => unchanged_giveByte (p := (u.p0, u)) (.refl u []) hu)
  | p1Read =>
    have h : execP1Read s = .next t := h
    refine .inl (unchanged_onPorts h fun w u hu => ?_)
    obtain ⟨p, hp, hu⟩ := andThen_next.1 hu
    exact unchanged_giveByte (latchRead_unchanged hp) hu
  | p2Read =>
    have h : execP2Read s = .next t := h
    exact .inl (unchanged_onPorts h fun w u hu => unchanged_giveByte (port2Byte_unchanged w u) hu)
  | p3Read => exact .inl (unchanged_p3Read h)
  | p0Write v => exact .inl (unchanged_p0Write h)
  | p1Write v =>
    have h : execP1Write v s = .next t := h
    exact .inl (unchanged_onPorts h fun w u hu => by rw [next_eq.1 hu]; exact unchanged_scalars _ _ _ _ _ _ _ _ _ _ _)
  | p2Write v =>
    have h : execP2Write v s = .next t := h
    exact .inl (unchanged_onPorts h fun w u hu => by rw [next_eq.1 hu]; exact unchanged_scalars _ _ _ _ _ _ _ _ _ _ _)
  | p3Write v =>
    have h : execP3Write v s = .next t := h
    refine .inl (unchanged_onPorts h fun w u hu => ?_)
    rw [next_eq.1 hu]
    exact (unchanged_scalars u _ _ _ v _ _ _ _ _ _).trans ((unchanged_lineSet _ _ _ _ _).within)
  | _ => simp [phaseOf] at hp

/-- Writing a target changes a bank through a bank select register only (42_bus.md R191). -/
theorem writeTarget_cases {g : Target} {off : Nat} {v : Byte} (h : writeTarget g off v s = .next t) :
    Unchanged s t runParts ∨
      ∃ bank shift mask, g = .kBankSel bank shift mask ∧ bankSelect bank.toNat (bankSelIndex shift mask v) s = .next t := by
  have discarded : Unchanged s (s.emit .protocolViolation) runParts := (unchanged_emit s _).within
  cases g with
  | kMem region roff => exact .inl ((regionWrite_unchanged h).within)
  | kBank bank => exact .inl ((bankWrite_unchanged h).within)
  | kLatchData latch => exact .inl ((latchWrite_unchanged h).within)
  | kLatchAck latch => exact .inl ((latchAck_unchanged h).within)
  | kStatus l0 l1 l2 l3 valid invert => rw [next_eq.1 h]; exact .inl discarded
  | kBankSel bank shift mask => exact .inr ⟨bank, shift, mask, rfl, h⟩
  | kLine tcpu line mode vec hasVec =>
    rw [next_eq.1 h]; exact .inl ((unchanged_lineSet _ _ _ _ _).within)
  | kLineBit tcpu line bit active =>
    rw [next_eq.1 h]; exact .inl ((unchanged_lineSet _ _ _ _ _).within)
  | kInput src => rw [next_eq.1 h]; exact .inl discarded
  | kSink sink => rw [next_eq.1 h]; exact .inl ((unchanged_out s _).within)

/-! ## Last decoded values -/

theorem ldv?_modifySpace {c : Nat} {sp : Space} {f : BusSpace → BusSpace} (hf : ∀ b, (f b).ldv = b.ldv) (d : Nat)
    (sq : Space) : (s.modifySpace c sp f).ldv? d sq = s.ldv? d sq := by
  unfold State.ldv?
  rw [space?_modifySpace]
  split
  · simp [Function.comp_def, hf]
  · rfl

theorem ldv?_clearRunState (s : State) (c : Nat) (sp : Space) : s.clearRunState.ldv? c sp = s.ldv? c sp := by
  simp only [State.ldv?, State.space?, clearRunState_cpus, List.getElem?_map, Option.map_map]
  cases sp <;> rfl

/-- No configuration operation changes a last decoded value, SYS.START neither (log 22). -/
theorem configured_ldv {wf : Bool} (h : Configured wf s t) (c : Nat) (sp : Space) : t.ldv? c sp = s.ldv? c sp := by
  cases h with
  | range d sq b lo hi mode g => rw [ldv?_modifySpace (fun _ => by rfl), bindTarget_eq]; rfl
  | policy d sq m p o => exact ldv?_modifySpace (fun _ => by rfl) _ _
  | start => exact ldv?_clearRunState s c sp
  | _ => rfl

/-- Where an access that hits changes a last decoded value, and its target none, it is that of its own space. -/
theorem own_space_of_ldv?_ne {c d : Nat} {sp sq : Space} {v : Byte} (h : u.ldv? d sq = s.ldv? d sq)
    (hne : (u.setLdv c sp v).ldv? d sq ≠ s.ldv? d sq) : d = c ∧ sq = sp := by
  rw [ldv?_setLdv] at hne
  split at hne
  next hc => exact ⟨hc.1, hc.2.1⟩
  next => exact absurd h hne

/-- A read changes the last decoded value of its own space only, and by a hit (20_memory.md R60). -/
theorem busRead_ldv {c d : Nat} {sp sq : Space} {addr : Word32} {p : Byte × State}
    (h : busRead c sp addr s = .next p) (hne : p.2.ldv? d sq ≠ s.ldv? d sq) :
    d = c ∧ sq = sp ∧ (s.target? c sp addr .rd).isSome = true := by
  obtain ⟨b, hb, ⟨-, rfl⟩ | ⟨e, off, q, he, hq, rfl⟩⟩ := busRead_next.1 h
  · exact absurd rfl hne
  · obtain ⟨rfl, rfl⟩ := own_space_of_ldv?_ne ((readTarget_frame hq).2 .ldv (by simp) d sq) hne
    exact ⟨rfl, rfl, by rw [target?_of_resolve hb he]; rfl⟩

/-- A write changes the last decoded value of its own space only, and by a hit (20_memory.md R60). -/
theorem busWrite_ldv {c d : Nat} {sp sq : Space} {addr : Word32} {v : Byte}
    (h : busWrite c sp addr v s = .next t) (hne : t.ldv? d sq ≠ s.ldv? d sq) :
    d = c ∧ sq = sp ∧ (s.target? c sp addr .wr).isSome = true := by
  obtain ⟨b, hb, ⟨-, rfl⟩ | ⟨e, off, u, he, hu, rfl⟩⟩ := busWrite_next.1 h
  · exact absurd rfl hne
  · have hldv : u.ldv? d sq = s.ldv? d sq := by
      obtain hf | ⟨_, _, _, -, hw⟩ := writeTarget_cases hu
      · exact hf .ldv (by simp [runParts]) d sq
      · exact bankSelect_unchanged hw .ldv (by simp) d sq
    obtain ⟨rfl, rfl⟩ := own_space_of_ldv?_ne hldv hne
    exact ⟨rfl, rfl, by rw [target?_of_resolve hb he]; rfl⟩

/-! ## Active entries -/

/-- A configuration operation keeps the active entry of each bank there is: BANK.CONFIGURE takes a new one
(40_bank.md R140). -/
theorem configured_active {wf : Bool} {b : Nat} {k : Bank} (h : Configured wf s t)
    (hk : Table.get s.banks b = some k) : ∃ k', Table.get t.banks b = some k' ∧ k'.active = k.active := by
  cases h with
  | bank m k' g hn =>
    have hne : b ≠ m := by
      rintro rfl
      simp [hn] at hk
    exact ⟨k, (get_set_other _ _ hne).trans hk, rfl⟩
  | range c sp d lo hi mode g =>
    rw [modifySpace_banks, get_bindTarget, hk]
    split
    · exact ⟨_, rfl, rfl⟩
    · exact ⟨k, rfl, rfl⟩
  | _ => exact ⟨k, hk, rfl⟩

theorem busRead_banks {c : Nat} {sp : Space} {addr : Word32} {p : Byte × State} (h : busRead c sp addr s = .next p)
    (m : Nat) : Table.get p.2.banks m = Table.get s.banks m := by
  obtain ⟨b, -, ⟨-, rfl⟩ | ⟨e, off, q, -, hq, rfl⟩⟩ := busRead_next.1 h
  · rfl
  · exact (readTarget_frame hq).2 .banks (by simp) m

/-- A write of the bus changes a bank only where it selects an entry of it (42_bus.md R191). -/
theorem busWrite_banks {c m : Nat} {sp : Space} {addr : Word32} {v : Byte} (h : busWrite c sp addr v s = .next t)
    (hne : Table.get t.banks m ≠ Table.get s.banks m) :
    ∃ bank shift mask, bank.toNat = m ∧ s.target? c sp addr .wr = some (.kBankSel bank shift mask) := by
  obtain ⟨b, hb, ⟨-, rfl⟩ | ⟨e, off, u, he, hu, rfl⟩⟩ := busWrite_next.1 h
  · exact absurd rfl hne
  · rw [setLdv_banks] at hne
    obtain hf | ⟨bank, shift, mask, hg, hw⟩ := writeTarget_cases hu
    · exact absurd (hf .banks (by simp [runParts]) m) hne
    · by_cases hm : m = bank.toNat
      · exact ⟨bank, shift, mask, hm.symm, hg ▸ target?_of_resolve hb he⟩
      · exact absurd (bankSelect_other hw hm) hne

end Sys2Proof.Machine

namespace Sys2Proof.Proofs

open Sys2Proof.Machine Sys2Proof.Laws

/-- Settles O59, from the frame of the run-time operations: what is left are the accesses of the bus, of which only a hit
sets the value of its own space. -/
theorem ldvChangesOnlySo : Obligations.LdvChangesOnlySo := by
  intro i s t c sp h hne
  rcases phaseOf_cases i with hp | hp
  · exact absurd (configured_ldv (exec_configured hp h) c sp) hne
  obtain hf | ⟨sq, cc, addr, rfl⟩ | ⟨sq, cc, addr, v, rfl⟩ | ⟨b, index, rfl⟩ | hi | hi := exec_run_cases hp h
  · exact absurd (hf .ldv (by simp [runParts]) c sp) hne
  · rw [exec_readOp] at h
    obtain ⟨p, hr, ht⟩ := andThen_next.1 (whenRun_next.1 h).2
    rw [next_eq.1 ht] at hne
    obtain ⟨rfl, rfl, hit⟩ := busRead_ldv hr hne
    exact .inl ⟨cc, addr, rfl, .inl ⟨rfl, hit⟩⟩
  · rw [exec_writeOp] at h
    obtain ⟨rfl, rfl, hit⟩ := busWrite_ldv (whenRun_next.1 h).2 hne
    exact .inl ⟨cc, addr, rfl, .inr ⟨v, rfl, hit⟩⟩
  · exact absurd (bankSelect_unchanged (whenRun_next.1 h).2 .ldv (by simp) c sp) hne
  · exact .inr (.inl hi)
  · exact .inr (.inr hi)

/-- Settles O60, from the frame of the run-time operations: what is left are a direct select and a write of the bus, of
which only one that hits a bank select register changes a bank. -/
theorem activeChangesOnlySo : Obligations.ActiveChangesOnlySo := by
  intro i s t b k k' h hk hk' hne
  have hbanks : Table.get t.banks b.toNat ≠ Table.get s.banks b.toNat := by
    rintro heq
    simp_all
  rcases phaseOf_cases i with hp | hp
  · obtain ⟨d, hd, ha⟩ := configured_active (exec_configured hp h) hk
    cases hd.symm.trans hk'
    exact absurd ha hne
  obtain hf | ⟨sq, cc, addr, rfl⟩ | ⟨sq, cc, addr, v, rfl⟩ | ⟨m, index, rfl⟩ | rfl | hi := exec_run_cases hp h
  · exact absurd (hf .banks (by simp [runParts]) _) hbanks
  · rw [exec_readOp] at h
    obtain ⟨p, hr, ht⟩ := andThen_next.1 (whenRun_next.1 h).2
    rw [next_eq.1 ht] at hbanks
    exact absurd (busRead_banks hr _) hbanks
  · rw [exec_writeOp] at h
    obtain ⟨bank, shift, mask, hb, hit⟩ := busWrite_banks (whenRun_next.1 h).2 hbanks
    rw [BitVec.eq_of_toNat_eq hb] at hit
    exact .inr (.inl ⟨shift, mask, cc, sq, addr, v, rfl, hit⟩)
  · by_cases hm : b.toNat = m.toNat
    · exact .inl ⟨index, by rw [BitVec.eq_of_toNat_eq hm]⟩
    · exact absurd (bankSelect_other (whenRun_next.1 h).2 hm) hbanks
  · have h : execSysReset s = .next t := h
    rw [next_eq.1 (whenRun_next.1 h).2] at hbanks
    exact absurd rfl hbanks
  · exact .inr (.inr hi)

end Sys2Proof.Proofs
end

section
/-! Accesses of the bus: which range answers (20_memory.md R57), the byte of memory behind a memory block or a bank window
(R58, R59, R61), that every access completes (R53, R62) and that a byte written is the byte read next (R65). -/

namespace Sys2Proof.Machine

open Sys2Proof.Laws

variable {s t u : State}

/-! ## Resolving an address -/

theorem allows_rd {m : Access} : Access.allows m .rd = true ↔ m = .r ∨ m = .rw := by cases m <;> simp [Access.allows]

theorem allows_wr {m : Access} : Access.allows m .wr = true ↔ m = .w ∨ m = .rw := by cases m <;> simp [Access.allows]

/-- An address lies in one range of a map at most (10_state.md R25). -/
theorem eq_of_disjointMap {map : List BusRange} (h : disjointMap map = true) {d e : BusRange} {a : Nat} (hd : d ∈ map)
    (he : e ∈ map) (hda : d.lo ≤ a ∧ a ≤ d.hi) (hea : e.lo ≤ a ∧ a ≤ e.hi) : d = e := by
  by_contra hne
  have : Std.Symm fun d e : BusRange => d.hi < e.lo ∨ e.hi < d.lo := ⟨fun _ _ => Or.symm⟩
  have apart : d.hi < e.lo ∨ e.hi < d.lo := (of_decide_eq_true h).forall hd he hne
  omega

/-- `Resolve` gives the one range that contains the masked address, where it lets the direction through. -/
theorem resolve_eq_some_iff {b : BusSpace} (hb : b.rangesOk = true) {a : Word32} {dir : Dir} {e : BusRange} {off : Nat} :
    b.resolve a dir = some (e, off) ↔ e ∈ b.map ∧ e.lo ≤ b.masked a ∧ b.masked a ≤ e.hi ∧ off = b.masked a - e.lo ∧
      Access.allows e.mode dir = true := by
  refine ⟨resolve_some, fun ⟨he, hlo, hhi, hoff, hm⟩ => ?_⟩
  obtain ⟨d, hd⟩ : ∃ d, b.map.find? (fun d => d.covers (b.masked a)) = some d :=
    Option.isSome_iff_exists.1 (List.find?_isSome.2 ⟨e, he, by simp [BusRange.covers, hlo, hhi]⟩)
  have hda : d.lo ≤ b.masked a ∧ b.masked a ≤ d.hi := by simpa [BusRange.covers] using List.find?_some hd
  obtain rfl : d = e := eq_of_disjointMap (Bool.and_eq_true_iff.1 hb).2 (List.mem_of_find?_eq_some hd) he hda ⟨hlo, hhi⟩
  simp [BusSpace.resolve, hd, hm, hoff]

/-- Which range answers is a matter of the configuration of the space. -/
theorem resolve_of_setup {b b' : BusSpace} (h : b'.setup = b.setup) : b'.resolve = b.resolve := by
  have hs : b'.setup.resolve = b.setup.resolve := by rw [h]
  exact hs

/-! ## Accesses that hit -/

section Hit

variable {c : Byte} {sp : Space} {addr : Word32} {v : Byte} {b : BusSpace} {e : BusRange} {off : Nat}

theorem exec_readOp_of_hit (hrun : s.phase = .run) (hb : s.space? c.toNat sp = some b)
    (hr : b.resolve addr .rd = some (e, off))
    (ht : readTarget b.openBus e.target off { s with out := Output.empty } = .next (v, u)) :
    exec (readOp sp c addr) s = .next ((u.setLdv c.toNat sp v).withResult (.byte v)) := by
  rw [exec_readOp, whenRun_of_run hrun]
  exact andThen_next.2 ⟨_, busRead_next.2 ⟨b, hb, .inr ⟨e, off, (v, u), hr, ht, rfl⟩⟩, rfl⟩

theorem exec_writeOp_of_hit (hrun : s.phase = .run) (hb : s.space? c.toNat sp = some b)
    (hr : b.resolve addr .wr = some (e, off))
    (ht : writeTarget e.target off v { s with out := Output.empty } = .next u) :
    exec (writeOp sp c addr v) s = .next (u.setLdv c.toNat sp v) := by
  rw [exec_writeOp, whenRun_of_run hrun]
  exact busWrite_next.2 ⟨b, hb, .inr ⟨e, off, u, hr, ht, rfl⟩⟩

end Hit

/-! ## Memory blocks and bank windows -/

/-- Offset `off` of a memory block or of a bank window is byte `o` of region `r` (20_memory.md R61; 42_bus.md R186,
R187). -/
def Backs (s : State) (g : Target) (off r o : Nat) : Prop :=
  (∃ region roff, g = .kMem region roff ∧ r = region.toNat ∧ o = roff.toNat + off) ∨
    ∃ bank k, g = .kBank bank ∧ Table.get s.banks bank.toNat = some k ∧ off < k.wsize ∧ r = k.region ∧
      o = (k.start + k.active) * k.wsize + off

section Backs

variable {g : Target} {off r o : Nat}

theorem Backs.readTarget (h : Backs s g off r o) (x : Byte) : readTarget x g off s = regionRead r o s := by
  obtain ⟨region, roff, rfl, rfl, rfl⟩ | ⟨bank, k, rfl, hk, hoff, rfl, rfl⟩ := h
  · rfl
  · simp [Machine.readTarget, bankRead, hk, hoff, Bank.src]

theorem Backs.writeTarget (h : Backs s g off r o) (v : Byte) : writeTarget g off v s = regionWrite r o v s := by
  obtain ⟨region, roff, rfl, rfl, rfl⟩ | ⟨bank, k, rfl, hk, hoff, rfl, rfl⟩ := h
  · rfl
  · simp [Machine.writeTarget, bankWrite, hk, hoff, Bank.src]

/-- A byte of a region that exists can be read, and written. -/
theorem Backs.completes {d : Region} (h : Backs s g off r o) (hd : Table.get s.regions r = some d) (ho : o < d.size)
    (x v : Byte) : (∃ p, Machine.readTarget x g off s = .next p) ∧ ∃ t, Machine.writeTarget g off v s = .next t := by
  rw [h.readTarget, h.writeTarget]
  obtain ⟨t, ht, -⟩ := regionWrite_effect hd ho v
  exact ⟨⟨_, regionRead_next.2 ⟨d.read r o, by simp [State.byteAt, hd, ho], rfl⟩⟩, t, ht⟩

/-- The entry that a bank has selected lies inside its region (40_bank.md R140). -/
theorem bankOk_offset {k : Bank} (h : bankOk s k = true) (hoff : off < k.wsize) :
    ∃ d, Table.get s.regions k.region = some d ∧ (k.start + k.active) * k.wsize + off < d.size := by
  obtain ⟨ha, d, hd, hle⟩ := bankOk_iff.1 h
  refine ⟨d, hd, ?_⟩
  calc (k.start + k.active) * k.wsize + off < (k.start + k.active + 1) * k.wsize := by rw [Nat.add_one_mul]; omega
    _ ≤ (k.start + k.count) * k.wsize := Nat.mul_le_mul_right _ (by omega)
    _ ≤ d.size := hle

end Backs

/-! ## Every access completes -/

theorem hasLatch_iff {l : Byte} : s.hasLatch l = true ↔ ∃ k, Table.get s.latches l.toNat = some k :=
  Option.isSome_iff_exists

/-- A flag of a status register whose latch exists can be read. -/
theorem statusFlag_completes {valid invert : BitVec 4} {i : Nat} {l : Byte}
    (h : (!valid.getLsbD i || s.hasLatch l) = true) : ∃ p, statusFlag valid invert i l s = .next (p, s) := by
  cases hv : valid.getLsbD i with
  | false => exact ⟨false, by simp [statusFlag, hv]⟩
  | true =>
    obtain ⟨k, hk⟩ := hasLatch_iff.1 (by simpa [hv] using h)
    exact ⟨statusBit valid invert i k.pending, by simp [statusFlag, hv, latchPending, hk]⟩

/-- The target of a registered range answers every access inside the range, since what it names exists (42_bus.md
R180). -/
theorem target_completes {c : Nat} {sp : Space} {lo hi off : Nat} {g : Target} (hbanks : s.banksOk = true)
    (hg : targetOk s c sp lo hi g = true) (hoff : off ≤ hi - lo) (x v : Byte) :
    (∃ p, readTarget x g off s = .next p) ∧ ∃ t, writeTarget g off v s = .next t := by
  cases g with
  | kMem region roff =>
    cases hr : Table.get s.regions region.toNat with
    | none => simp [targetOk, hr] at hg
    | some d =>
      have hlt : roff.toNat + (hi - lo) < d.size := by simpa [targetOk, hr] using hg
      exact Backs.completes (.inl ⟨region, roff, rfl, rfl, rfl⟩) hr (by omega) x v
  | kBank bank =>
    cases hk : Table.get s.banks bank.toNat with
    | none => simp [targetOk, hk] at hg
    | some k =>
      have hw : hi - lo + 1 = k.wsize := by
        simp only [targetOk, hk, Bool.and_eq_true, decide_eq_true_eq] at hg
        exact hg.1
      have hlt : off < k.wsize := by omega
      obtain ⟨d, hd, ho⟩ := bankOk_offset (all_get (p := fun e => bankOk s e.2) hbanks hk) hlt
      exact Backs.completes (.inr ⟨bank, k, rfl, hk, hlt, rfl, rfl⟩) hd ho x v
  | kLatchData latch =>
    obtain ⟨k, hk⟩ := hasLatch_iff.1 hg
    exact ⟨⟨_, latchRead_next.2 ⟨k, hk, rfl⟩⟩, _, latchWrite_next.2 ⟨k, hk, rfl⟩⟩
  | kLatchAck latch =>
    obtain ⟨k, hk⟩ := hasLatch_iff.1 hg
    obtain ⟨t, ht, -⟩ := latchAck_effect hk
    exact ⟨⟨(x, t), andThen_next.2 ⟨t, ht, rfl⟩⟩, t, ht⟩
  | kStatus l0 l1 l2 l3 valid invert =>
    simp only [targetOk, Bool.and_eq_true] at hg
    obtain ⟨⟨⟨h0, h1⟩, h2⟩, h3⟩ := hg
    obtain ⟨p0, e0⟩ := statusFlag_completes (invert := invert) h0
    obtain ⟨p1, e1⟩ := statusFlag_completes (invert := invert) h1
    obtain ⟨p2, e2⟩ := statusFlag_completes (invert := invert) h2
    obtain ⟨p3, e3⟩ := statusFlag_completes (invert := invert) h3
    exact ⟨⟨(statusByte p0 p1 p2 p3, s), by simp only [readTarget, e0, e1, e2, e3, andThen_next_left]⟩, _, rfl⟩
  | kBankSel bank shift mask =>
    simp only [targetOk, Bool.and_eq_true] at hg
    obtain ⟨k, hk⟩ := Option.isSome_iff_exists.1 hg.1
    obtain ⟨t, ht, -⟩ := bankSelect_effect hk (bankSelIndex shift mask v)
    exact ⟨⟨_, rfl⟩, t, ht⟩
  | kLine tcpu line mode vec hasVec => exact ⟨⟨_, rfl⟩, _, rfl⟩
  | kLineBit tcpu line bit active => exact ⟨⟨_, rfl⟩, _, rfl⟩
  | kInput src => exact ⟨⟨_, rfl⟩, _, rfl⟩
  | kSink sink => exact ⟨⟨_, rfl⟩, _, rfl⟩

theorem space?_of_lt {c : Nat} (h : c < s.ncpu) (sp : Space) : ∃ b, s.space? c sp = some b :=
  ⟨_, space?_some.2 ⟨s.cpus[c], List.getElem?_eq_getElem h, rfl⟩⟩

/-- The target that an access resolves to answers it. -/
theorem hit_completes (h : s.refsOk = true) {c : Nat} {sp : Space} {b : BusSpace} (hb : s.space? c sp = some b)
    {addr : Word32} {dir : Dir} {e : BusRange} {off : Nat} (he : b.resolve addr dir = some (e, off)) (x v : Byte) :
    (∃ p, readTarget x e.target off s = .next p) ∧ ∃ t, writeTarget e.target off v s = .next t := by
  obtain ⟨hbanks, htargets, -⟩ := refsOk_iff.1 h
  obtain ⟨hmem, -, hhi, rfl, -⟩ := resolve_some he
  exact target_completes hbanks (List.all_eq_true.1 (targetsOk_iff.1 htargets c sp b hb) e hmem) (by omega) x v

theorem busRead_completes (h : s.refsOk = true) {c : Nat} (hc : c < s.ncpu) (sp : Space) (addr : Word32) :
    ∃ p, busRead c sp addr s = .next p := by
  obtain ⟨b, hb⟩ := space?_of_lt hc sp
  cases he : b.resolve addr .rd with
  | none => exact ⟨_, busRead_next.2 ⟨b, hb, .inl ⟨he, rfl⟩⟩⟩
  | some r =>
    obtain ⟨q, hq⟩ := (hit_completes h hb he b.openBus 0).1
    exact ⟨_, busRead_next.2 ⟨b, hb, .inr ⟨_, _, q, he, hq, rfl⟩⟩⟩

theorem busWrite_completes (h : s.refsOk = true) {c : Nat} (hc : c < s.ncpu) (sp : Space) (addr : Word32) (v : Byte) :
    ∃ t, busWrite c sp addr v s = .next t := by
  obtain ⟨b, hb⟩ := space?_of_lt hc sp
  cases he : b.resolve addr .wr with
  | none => exact ⟨_, busWrite_next.2 ⟨b, hb, .inl ⟨he, rfl⟩⟩⟩
  | some r =>
    obtain ⟨u, hu⟩ := (hit_completes h hb he 0 v).2
    exact ⟨_, busWrite_next.2 ⟨b, hb, .inr ⟨_, _, u, he, hu, rfl⟩⟩⟩

end Sys2Proof.Machine

namespace Sys2Proof.Proofs

open Sys2Proof.Machine Sys2Proof.Laws

/-- Settles O29: no two ranges of the map contain the address. -/
theorem resolveAnswers : Obligations.ResolveAnswers := by
  rintro b a dir e off a1 hb rfl
  rw [resolve_eq_some_iff hb]
  cases dir with
  | rd => rw [allows_rd]; rfl
  | wr => rw [allows_wr]; rfl

/-- Settles O32, from the byte of the region that the target stands for. -/
theorem memoryTargetRead : Obligations.MemoryTargetRead := by
  intro s sp c addr b e off v hrun hb hr htarget
  obtain ⟨r, o, hback, hv⟩ : ∃ r o, Backs { s with out := Output.empty } e.target off r o ∧ s.byteAt r o = some v := by
    obtain ⟨region, roff, hg, hv⟩ | ⟨bank, k, hg, hk, hoff, hv⟩ := htarget
    · exact ⟨_, _, .inl ⟨region, roff, hg, rfl, rfl⟩, hv⟩
    · exact ⟨_, _, .inr ⟨bank, k, hg, hk, hoff, rfl, rfl⟩, hv⟩
  have hread : readTarget b.openBus e.target off { s with out := Output.empty } =
      .next (v, { s with out := Output.empty }) := (hback.readTarget _).trans (regionRead_next.2 ⟨v, hv, rfl⟩)
  refine ⟨_, exec_readOp_of_hit hrun hb hr hread, ⟨rfl, rfl, rfl⟩, ldvSet_setLdv (s := s) (ncpu_of_space hb) sp v, ?_⟩
  exact ((unchanged_out s _).mono (by simp)).trans
    (((unchanged_setLdv _ _ _ _).mono (by simp)).trans ((unchanged_withResult _ _).mono (by simp)))

/-- Settles O33, from the write of the byte of the region that the target stands for. -/
theorem memoryTargetWrite : Obligations.MemoryTargetWrite := by
  intro s sp c addr v b e off r o g hrun hb hr htarget hg ho
  obtain ⟨u, hu, hbyte, hout, hf⟩ := regionWrite_effect (s := { s with out := Output.empty }) hg ho v
  have hwrite : writeTarget e.target off v { s with out := Output.empty } = .next u :=
    (Backs.writeTarget (s := { s with out := Output.empty }) htarget v).trans hu
  refine ⟨_, exec_writeOp_of_hit hrun hb hr hwrite, hbyte, hout, fun d sq => ?_, ?_⟩
  · have hc : c.toNat < u.ncpu := (hf .busSetup (by simp)).1 ▸ ncpu_of_space hb
    rw [ldvSet_setLdv hc sp v d sq, hf .ldv (by simp) d sq]
    rfl
  · exact ((unchanged_out s _).mono (by simp)).trans
      ((hf.mono (by simp)).trans ((unchanged_setLdv _ _ _ _).mono (by simp)))

/-- Settles O36: a miss answers at once, and what a hit resolves to answers since every reference is valid. -/
theorem busAccessesComplete : Obligations.BusAccessesComplete := by
  intro s sp c addr v hrun hrefs hc
  rw [exec_readOp, exec_writeOp, whenRun_of_run hrun, whenRun_of_run hrun]
  obtain ⟨p, hp⟩ := busRead_completes (s := { s with out := Output.empty }) hrefs hc sp addr
  exact ⟨⟨_, andThen_next.2 ⟨p, hp, rfl⟩⟩, busWrite_completes (s := { s with out := Output.empty }) hrefs hc sp addr v⟩

/-- Settles O37: the write leaves the map of the reader as it was, and the byte it stored is the one the reader's range
stands for. -/
theorem sharedByteVisible : Obligations.SharedByteVisible := by
  intro s sp sq c d addr addr' v b b' e e' off off' region roff roff' g hrun hb hr hg hb' hr' hg' heq hd hm ho
  obtain ⟨t, hw, hbyte, -, -, hf⟩ := memoryTargetWrite s sp c addr v b e off region.toNat (roff.toNat + off) g hrun hb hr
    (.inl ⟨region, roff, hg, rfl, rfl⟩) hd ho
  obtain ⟨b2, hb2, hsetup⟩ : ∃ b2, t.space? d.toNat sq = some b2 ∧ b2.setup = b'.setup := by
    have hspace := (hf .busSetup (by simp)).2 d.toNat sq
    rw [hb'] at hspace
    exact Option.map_eq_some_iff.1 hspace
  have hrun' : t.phase = .run := (hf .phase (by simp)).trans hrun
  have hstored : t.byteAt region.toNat (roff'.toNat + off') = some v := by simp [hbyte, hm, heq]
  obtain ⟨w, hread, hout, -⟩ := memoryTargetRead t sq d addr' b2 e' off' v hrun' hb2
    ((congrFun₂ (resolve_of_setup hsetup) addr' .rd).trans hr') (.inl ⟨region, roff', hg', hstored⟩)
  exact ⟨w, andThen_next.2 ⟨t, hw, andThen_next.2 ⟨w, hread, rfl⟩⟩, hout.1⟩

end Sys2Proof.Proofs
end

section
/-! The step: what it takes from the queue before the operation runs, in the terms of 20_memory.md R64 and
43_coordinator.md R221. -/

namespace Sys2Proof.Machine

open Sys2Proof.Laws

variable {s t : State} {i : Instr}

/-- The CPU that an operation polls is the one its CPU.POLL names. -/
theorem polledCpu_eq_some {c : Nat} : polledCpu i = some c ↔ ∃ b : Byte, b.toNat = c ∧ i = .cpuPoll b := by
  cases i <;> simp [polledCpu]

theorem seesReset_iff : s.seesReset i = true ↔ ∃ c, polledCpu i = some c ∧ (s.line c 2).level = .pulse := by
  unfold State.seesReset
  cases polledCpu i <;> simp [resetLine]

theorem held_iff {c : Nat} : s.held c = true ↔ (s.line c 2).level = .assert ∨ (s.line c 2).level = .hold := by
  simp [State.held, resetLine]

theorem wordsLeft_of_reset {ws : List OpWord} (h : s.seesReset i = true) : s.wordsLeft i ws = [] := by
  simp [State.wordsLeft, h]

theorem wordsLeft_of_not_reset {ws : List OpWord} (h : ¬s.seesReset i = true) : s.wordsLeft i ws = ws := by
  simp [State.wordsLeft, h]

theorem afterOp_eq (turn : Turn) (ws : List OpWord) (later : List Turn) :
    afterOp turn ws later = if ws = [] then later else ⟨turn.whole, ws⟩ :: later := by
  cases ws <;> rfl

theorem slotAfter_eq (a : Agent) (ws : List OpWord) : slotAfter a ws = if ws = [] then none else some a := by
  cases ws <;> rfl

/-- A step runs the operation at the front of the queue, where its issuer is not held and it may stand there. -/
theorem step_eq_exec {turn : Turn} {later : List Turn} {ws : List OpWord} (hq : s.queue = turn :: later)
    (hd : decode turn.words = some (i, ws)) (hh : s.heldIssuer (issuer i s) = none)
    (hs : s.inSlot turn.whole i (issuer i s) = true) : step s = exec i (s.takeOp i turn ws later) := by
  simp [step, hq, hd, hh, hs]

/-- A step that answers with an operation at the front of the queue has run it. -/
theorem exec_of_step {turn : Turn} {later : List Turn} {ws : List OpWord} (hq : s.queue = turn :: later)
    (hd : decode turn.words = some (i, ws)) (h : step s = .next t) : exec i (s.takeOp i turn ws later) = .next t := by
  obtain ⟨hn, -⟩ | ⟨turn', later', j, ws', hq', hd', -, -, hx⟩ := step_next h
  · simp [hq] at hn
  · cases hq.symm.trans hq'
    cases hd.symm.trans hd'
    exact hx

end Sys2Proof.Machine

namespace Sys2Proof.Proofs

open Sys2Proof.Machine Sys2Proof.Laws

/-- Settles O4: the step runs the operation in the state that `takeOp` leaves, and the operation itself moves neither the
queue nor the turn in progress. -/
theorem stepRunsOperation : Obligations.StepRunsOperation := by
  intro s turn later i ws kept hq hd polls pulsed first hpulsed hnot
  have hpolls (c : Nat) : polledCpu i = some c ↔ polls c := polledCpu_eq_some
  have hsees : s.seesReset i = true ↔ ∃ c, pulsed c := by simp only [seesReset_iff, hpolls, pulsed]
  obtain rfl : s.wordsLeft i ws = kept := by
    by_cases h : ∃ c, pulsed c
    · rw [hpulsed h, wordsLeft_of_reset (hsees.2 h)]
    · rw [hnot h, wordsLeft_of_not_reset (mt hsees.1 h)]
  have hfirst (c : Nat) : c ∈ (s.takeOp i turn ws later).restarts ↔ first c := by
    have hself : polls c → ((∃ d, pulsed d) ↔ (s.line c 2).level = .pulse) := fun hc => by
      rw [← hsees, State.seesReset, (hpolls c).2 hc]
      exact beq_iff_eq
    rw [mem_takeOp_restarts, held_iff, hsees, ne_eq, hpolls, and_congr_right hself, or_assoc]
  refine ⟨fun hh hs => ⟨_, hfirst, ?_⟩, fun t ht => ?_⟩
  · rw [step_eq_exec hq hd hh hs, ← afterOp_eq, ← slotAfter_eq]
    rfl
  · have hx := exec_of_step hq hd ht
    obtain ⟨hqueue, hslot, hrestarts⟩ := exec_turns hx
    refine ⟨hqueue.trans (afterOp_eq _ _ _), hslot.trans (slotAfter_eq _ _), ?_, fun h1 h2 c => ?_⟩
    · rintro rfl c
      rw [sysReset_restarts hx, List.mem_range]
      rfl
    · rw [hrestarts h1 h2]
      exact hfirst c

end Sys2Proof.Proofs
end

section
/-! The encoding: the decoder gives back what the encoder wrote and accepts nothing else (30_encoding.md R110 to
R118). -/

namespace Sys2Proof.Laws

variable {i : Instr} {h : Head} {ws rest : List OpWord} {e e1 e2 e3 : OpWord}

/-! ## The decoder by format (30_encoding.md R114, R118) -/

/-- The decoder of format S accepts no opcode of a longer format. -/
theorem decodeShort_of_long (ho : h.opc = 0x10 ∨ h.opc = 0x30 ∨ h.opc = 0x50) : decodeShort h = none := by
  obtain ⟨o, u, a, g, d⟩ := h
  rcases ho with rfl | rfl | rfl <;> rfl

theorem decode_short (hd : decodeShort h = some i) : decode (h.word :: rest) = some (i, rest) := by
  have hlong : ¬(h.opc = 0x10 ∨ h.opc = 0x30 ∨ h.opc = 0x50) := fun ho => by simp [decodeShort_of_long ho] at hd
  unfold decode
  dsimp only
  rw [ofWord_word]
  split
  next ho => exact absurd (.inl (eq_ofNat_of_toNat ho)) hlong
  next ho => exact absurd (.inr (.inl (eq_ofNat_of_toNat ho))) hlong
  next ho => exact absurd (.inr (.inr (eq_ofNat_of_toNat ho))) hlong
  next => rw [hd]; rfl

theorem decode_bankConfigure (ho : h.opc = 0x10) (hd : decodeBankConfigure h e1 e2 e3 = some i) :
    decode (h.word :: e1 :: e2 :: e3 :: rest) = some (i, rest) := by
  simp [decode, ho, hd]

theorem decode_registerRange (ho : h.opc = 0x30) (hd : decodeRegisterRange h e1 e2 = some i) :
    decode (h.word :: e1 :: e2 :: rest) = some (i, rest) := by
  simp [decode, ho, hd]

theorem decode_portConfigure (ho : h.opc = 0x50) (hd : decodePortConfigure h e = some i) :
    decode (h.word :: e :: rest) = some (i, rest) := by
  simp [decode, ho, hd]

/-- The words that one of the four formats' decoders reads as the operation. -/
inductive Decodes (i : Instr) : List OpWord → Prop
  | short {h : Head} (hd : decodeShort h = some i) : Decodes i [h.word]
  | bankConfigure {h : Head} {e1 e2 e3 : OpWord} (ho : h.opc = 0x10) (hd : decodeBankConfigure h e1 e2 e3 = some i) :
      Decodes i [h.word, e1, e2, e3]
  | registerRange {h : Head} {e1 e2 : OpWord} (ho : h.opc = 0x30) (hd : decodeRegisterRange h e1 e2 = some i) :
      Decodes i [h.word, e1, e2]
  | portConfigure {h : Head} {e : OpWord} (ho : h.opc = 0x50) (hd : decodePortConfigure h e = some i) :
      Decodes i [h.word, e]

/-- The decoder takes the words that one format's decoder reads, and leaves the words after them. -/
theorem decode_eq_some : decode ws = some (i, rest) ↔ ∃ us, Decodes i us ∧ ws = us ++ rest := by
  constructor
  · intro h
    cases ws with
    | nil => simp [decode] at h
    | cons w tl =>
      obtain ⟨hd, rfl⟩ : ∃ hd : Head, w = hd.word := ⟨Head.ofWord w, (word_ofWord w).symm⟩
      unfold decode at h
      dsimp only at h
      rw [ofWord_word] at h
      split at h
      all_goals
        obtain ⟨j, hj, hi⟩ := Option.map_eq_some_iff.1 h
        obtain ⟨rfl, rfl⟩ := Prod.mk.inj hi
      next ho => exact ⟨_, .bankConfigure (eq_ofNat_of_toNat ho) hj, rfl⟩
      next ho => exact ⟨_, .registerRange (eq_ofNat_of_toNat ho) hj, rfl⟩
      next ho => exact ⟨_, .portConfigure (eq_ofNat_of_toNat ho) hj, rfl⟩
      next => exact ⟨_, .short hj, rfl⟩
  · rintro ⟨us, hu, rfl⟩
    cases hu with
    | short hd => exact decode_short hd
    | bankConfigure ho hd => exact decode_bankConfigure ho hd
    | registerRange ho hd => exact decode_registerRange ho hd
    | portConfigure ho hd => exact decode_portConfigure ho hd

/-! ## The words of an operation -/

/-- The format S operations: with no extension words, the head word alone gives a well-formed operation back. -/
theorem decodeShort_head (hw : i.wf = true) (hx : i.exts = []) : decodeShort i.head = some i := by
  cases i with
  | bankConfigure | busRegisterRange | portConfigure => simp [Instr.exts] at hx
  | regionDefine => simp [decodeShort, Instr.head, need, packBit_fields]
  | latchConfigure => simp [decodeShort, Instr.head, need, packLatchAux_fields, packIds_fields]
  | busSetPolicy => simp [decodeShort, Instr.head, need, packPolicyAux_fields]
  | lineAssert | linePulse | lineHold =>
    rw [Instr.wf] at hw
    simp [decodeShort, Instr.head, need, packVec_fields, hw]
  | scanConfigure | perConfigure =>
    rw [Instr.wf] at hw
    simp [decodeShort, Instr.head, need, packTimer_fields, hw]
  | _ => rfl

/-- The words of a well-formed operation are read by the decoder of its format. -/
theorem decodes_encode (hw : i.wf = true) : Decodes i (encode i) := by
  cases i with
  | bankConfigure =>
    refine .bankConfigure rfl ?_
    simp [decodeBankConfigure, Instr.head, need, packBit_fields, packExt_fields]
  | busRegisterRange c mode sp lo hi g =>
    refine .registerRange rfl ?_
    simp [decodeRegisterRange, Instr.head, need, packRangeAux_fields, packExt_fields, ofFields_fields]
  | portConfigure p =>
    refine .portConfigure rfl (need_eq_some.2 ⟨?_, congrArg Instr.portConfigure (ofWords_extWord p)⟩)
    simp [Instr.head, packIds_fields, extWord_unused]
  | _ => exact .short (decodeShort_head hw rfl)

/-- All that the decoder of BANK.CONFIGURE accepts. -/
theorem decodeBankConfigure_some (ho : h.opc = 0x10) (hd : decodeBankConfigure h e1 e2 e3 = some i) :
    i.wf = true ∧ i.head = h ∧ i.exts = [e1, e2, e3] := by
  obtain ⟨o, u, a, g, d⟩ := h
  obtain rfl : o = 0x10 := ho
  obtain ⟨hc, rfl⟩ := need_eq_some.1 hd
  simp only [Bool.and_eq_true, beq_iff_eq, BitVec.ofNat_eq_ofNat] at hc
  obtain ⟨⟨⟨ha, h1⟩, h2⟩, h3⟩ := hc
  refine ⟨rfl, ?_, ?_⟩
  · rw [Instr.head, bankPolicy_code_ofCode, packBit_of_fields ha]
  · rw [Instr.exts, packExt_of_fields h1, packExt_of_fields h2, packExt_of_fields h3]

/-- All that the decoder of BUS.REGISTER_RANGE accepts. -/
theorem decodeRegisterRange_some (ho : h.opc = 0x30) (hd : decodeRegisterRange h e1 e2 = some i) :
    i.wf = true ∧ i.head = h ∧ i.exts = [e1, e2] := by
  obtain ⟨o, u, a, g, d⟩ := h
  obtain rfl : o = 0x30 := ho
  unfold decodeRegisterRange at hd
  split at hd
  next mode target hmode htarget =>
    obtain ⟨hc, rfl⟩ := need_eq_some.1 hd
    simp only [Bool.and_eq_true, beq_iff_eq, BitVec.ofNat_eq_ofNat] at hc
    obtain ⟨ha, h1⟩ := hc
    have hfields : target.fields = TargetFields.ofWord d e2 := ofFields_some htarget
    refine ⟨rfl, ?_, ?_⟩
    · rw [Instr.head, packRangeAux_of_fields ha hmode, hfields]
      rfl
    · rw [Instr.exts, packExt_of_fields h1, hfields, targetFields_word_ofWord]
  · simp at hd

/-- All that the decoder of PORT.CONFIGURE accepts. -/
theorem decodePortConfigure_some (ho : h.opc = 0x50) (hd : decodePortConfigure h e = some i) :
    i.wf = true ∧ i.head = h ∧ i.exts = [e] := by
  obtain ⟨o, u, a, g, d⟩ := h
  obtain rfl : o = 0x50 := ho
  obtain ⟨hc, rfl⟩ := need_eq_some.1 hd
  simp only [Bool.and_eq_true, beq_iff_eq, BitVec.ofNat_eq_ofNat] at hc
  obtain ⟨⟨hg, rfl⟩, he⟩ := hc
  refine ⟨rfl, ?_, ?_⟩
  · simp only [Instr.head, PortWiring.ofWords, packIds_of_fields hg, BitVec.ofNat_eq_ofNat]
  · rw [Instr.exts, extWord_ofWords _ he]

/-- The decoder of a format reads nothing but the words of a well-formed operation. -/
theorem Decodes.words (h : Decodes i ws) : i.wf = true ∧ ws = encode i := by
  suffices ∃ hd es, ws = hd.word :: es ∧ i.wf = true ∧ i.head = hd ∧ i.exts = es by
    obtain ⟨hd, es, rfl, hw, rfl, rfl⟩ := this
    exact ⟨hw, rfl⟩
  cases h with
  | short hd => exact ⟨_, _, rfl, decodeShort_some hd⟩
  | bankConfigure ho hd => exact ⟨_, _, rfl, decodeBankConfigure_some ho hd⟩
  | registerRange ho hd => exact ⟨_, _, rfl, decodeRegisterRange_some ho hd⟩
  | portConfigure ho hd => exact ⟨_, _, rfl, decodePortConfigure_some ho hd⟩

end Sys2Proof.Laws

namespace Sys2Proof.Proofs

open Sys2Proof.Laws

/-- Settles O1: the words of the operation are read by the decoder of its format. -/
theorem decodeOfEncode : Obligations.DecodeOfEncode :=
  fun _ _ hw => decode_eq_some.2 ⟨_, decodes_encode hw, rfl⟩

/-- Settles O2: what the decoder takes was read by the decoder of one format. -/
theorem decodeOnlyEncodings : Obligations.DecodeOnlyEncodings := by
  intro ws i rest h
  obtain ⟨us, hu, rfl⟩ := decode_eq_some.1 h
  obtain ⟨hw, rfl⟩ := hu.words
  exact ⟨hw, rfl⟩

end Sys2Proof.Proofs
end

section
/-! Where a step runs nothing: the ways the step refuses the turn at the front of the queue (20_memory.md R64;
43_coordinator.md R221). -/

namespace Sys2Proof.Machine

open Sys2Proof.Laws

variable {s : State} {turn : Turn} {later : List Turn} {i : Instr} {ws : List OpWord}

/-- The operations that open an instruction are the polls. -/
theorem opensSlot_iff : opensSlot i = true ↔ ∃ c, i = .cpuPoll c := by
  cases i <;> simp [opensSlot, polledCpu]

theorem heldIssuer_cpu_of_held {c : Nat} (h : s.held c = true) : s.heldIssuer (.cpu c) = some c := by
  simp [State.heldIssuer, h]

theorem step_idle (hq : s.queue = []) : step s = .next s := by
  simp [step, hq]

theorem step_invalidWord (hq : s.queue = turn :: later) (hd : decode turn.words = none) :
    step s = .refused .invalidWord := by
  simp [step, hq, hd]

theorem step_cpuHeld {c : Nat} (hq : s.queue = turn :: later) (hd : decode turn.words = some (i, ws))
    (hh : s.heldIssuer (issuer i s) = some c) : step s = .refused (.cpuHeld c) := by
  simp [step, hq, hd, hh]

theorem step_outsideSlot (hq : s.queue = turn :: later) (hd : decode turn.words = some (i, ws))
    (hh : s.heldIssuer (issuer i s) = none) (hs : ¬s.inSlot turn.whole i (issuer i s) = true) :
    step s = .refused (.outsideSlot (issuer i s)) := by
  simp [step, hq, hd, hh, hs]

end Sys2Proof.Machine

namespace Sys2Proof.Proofs

open Sys2Proof.Machine Sys2Proof.Laws

/-- Settles O5: each clause is one answer of the step, the last two by what may stand inside a turn and at its front. -/
theorem stepStops : Obligations.StepStops := by
  intro s
  refine ⟨step_idle, fun turn later hq => ⟨step_invalidWord hq, ?held, ?inside, ?front⟩⟩
  case held =>
    intro i ws c hd hi hl
    exact step_cpuHeld hq hd (hi ▸ heldIssuer_cpu_of_held (held_iff.2 hl))
  case inside =>
    intro i ws b hd hh hb hbad
    refine step_outsideSlot hq hd hh fun hs => ?_
    obtain ⟨rfl, hcpu, hopen⟩ := (inSlot_some hb).1 hs
    rcases hbad with hne | hnot | hpoll
    · exact hne rfl
    · simp [hcpu] at hnot
    · simp [opensSlot_iff.2 hpoll] at hopen
  case front =>
    intro i ws c hd hh hb hfirst hi hpoll
    rw [← hi]
    refine step_outsideSlot hq hd hh fun hs => ?_
    obtain ⟨hwhole, hrestart⟩ := (inSlot_none hb).1 hs
    have hopen : opensSlot i = true := by
      rcases hfirst with hw | hc
      · exact hwhole hw (by rw [hi]; rfl)
      · exact hrestart (by rw [hi]; exact List.contains_iff_mem.2 hc)
    obtain ⟨d, rfl⟩ := opensSlot_iff.1 hopen
    exact hpoll d rfl

end Sys2Proof.Proofs
end

section
/-! The Bank Table: the checks of BANK.CONFIGURE and a configuration error taken (40_bank.md R140), the window that
BANK.READ and BANK.WRITE see (R142, R143), and that a read after a select sees the entry selected (R144). -/

namespace Sys2Proof.Machine

open Sys2Proof.Laws

variable {s : State}

/-! ## Configuration errors -/

theorem unchanged_raised (s : State) (e : Option ErrorRecord) :
    Unchanged s { s with phase := .aborted, error := e } [.phase, .error] := by
  intro p hp
  cases p with
  | phase | error => simp at hp
  | memory | ldv | lines => exact fun _ _ => rfl
  | regionSetup | banks | latches | snaps => exact fun _ => rfl
  | busSetup => exact ⟨rfl, fun _ _ => rfl⟩
  | raster | scanSetup => exact ⟨rfl, rfl⟩
  | _ => rfl

section Configure

variable {i : Instr} {e : State → Option ErrCode} {f : State → State}

/-- A configuration operation whose checks find an error takes it, and does nothing else (60_exceptions.md R301,
R302). -/
theorem raises_of_configure {code : ErrCode} (hi : exec i s = whenConfig s fun u => configure (e u) i u (f u))
    (hconfig : s.phase = .config) (he : e { s with out := Output.empty } = some code) : Raises i s code := by
  rw [whenConfig_of_config hconfig, he] at hi
  refine ⟨_, hi, rfl, rfl, ?_⟩
  exact ((unchanged_out s _).mono (by simp)).trans ((unchanged_raised _ _).mono (by simp))

/-- A configuration operation whose checks find nothing makes its change. -/
theorem exec_of_configure (hi : exec i s = whenConfig s fun u => configure (e u) i u (f u))
    (hconfig : s.phase = .config) (he : e { s with out := Output.empty } = none) :
    exec i s = .next (f { s with out := Output.empty }) := by
  rw [hi, whenConfig_of_config hconfig, he, configure_none]

end Configure

section BankConfigureError

variable {b region : Nat} {start count wsize : Word32}

theorem bankConfigureError_of_dup (hb : (Table.get s.banks b).isSome = true) :
    bankConfigureError b start region count wsize s = some .dup := if_pos hb

theorem bankConfigureError_of_noRegion (hb : Table.get s.banks b = none) (hg : Table.get s.regions region = none) :
    bankConfigureError b start region count wsize s = some .unit := by
  simp [bankConfigureError, hb, hg]

/-- A new bank over a region that exists is checked for its own numbers, the zeros first (40_bank.md R140). -/
theorem bankConfigureError_of_region {g : Region} (hb : Table.get s.banks b = none)
    (hg : Table.get s.regions region = some g) :
    bankConfigureError b start region count wsize s =
      if count = 0 ∨ wsize = 0 then some .value
      else if g.size < (start.toNat + count.toNat) * wsize.toNat then some .bankRange else none := by
  simp [bankConfigureError, hb, hg]

end BankConfigureError

/-! ## Refusals, and the window of a bank -/

theorem andThen_of_refused {α β : Type} {o : Host.Outcome α Fault Refusal} {f : α → Host.Outcome β Fault Refusal}
    {r : Refusal} (h : o = .refused r) : andThen o f = .refused r := by
  rw [h]; rfl

section Window

variable {b off : Nat} {v : Byte} {k : Bank}

theorem bankSelect_of_none {index : Word32} (hk : Table.get s.banks b = none) :
    bankSelect b index s = .refused (.bankNotConfigured b) := by
  simp [bankSelect, hk]

theorem bankRead_of_none (hk : Table.get s.banks b = none) : bankRead b off s = .refused (.bankNotConfigured b) := by
  simp [bankRead, hk]

theorem bankWrite_of_none (hk : Table.get s.banks b = none) :
    bankWrite b off v s = .refused (.bankNotConfigured b) := by
  simp [bankWrite, hk]

theorem bankRead_of_outside (hk : Table.get s.banks b = some k) (hoff : k.wsize ≤ off) :
    bankRead b off s = .refused (.offsetOutsideWindow b off) := by
  simp [bankRead, hk, Nat.not_lt.2 hoff]

theorem bankWrite_of_outside (hk : Table.get s.banks b = some k) (hoff : k.wsize ≤ off) :
    bankWrite b off v s = .refused (.offsetOutsideWindow b off) := by
  simp [bankWrite, hk, Nat.not_lt.2 hoff]

/-- Every byte of the window over an entry that the bank has is a byte of its region (40_bank.md R140). -/
theorem exists_byteAt_of_bankOk (h : bankOk s k = true) (hoff : off < k.wsize) :
    ∃ v, s.byteAt k.region ((k.start + k.active) * k.wsize + off) = some v := by
  obtain ⟨g, hg, ho⟩ := bankOk_offset h hoff
  exact ⟨g.read k.region ((k.start + k.active) * k.wsize + off), by simp [State.byteAt, hg, ho]⟩

end Window

/-! ## The operations of the Bank Table -/

section Exec

variable {b v : Byte} {index off : Word32}

theorem exec_bankConfigure (b : Byte) (policy : BankPolicy) (start : Word32) (region : Byte)
    (count wsize xor : Word32) (s : State) :
    exec (.bankConfigure b policy start region count wsize xor) s = whenConfig s fun u =>
      configure (bankConfigureError b.toNat start region.toNat count wsize u)
        (.bankConfigure b policy start region count wsize xor) u
        { u with
          banks := Table.set u.banks b.toNat
            ⟨region.toNat, start.toNat, count.toNat, wsize.toNat, xor, policy, none, 0⟩ } := rfl

theorem exec_bankSelect (hrun : s.phase = .run) :
    exec (.bankSelect b index) s = bankSelect b.toNat index { s with out := Output.empty } := whenRun_of_run hrun

theorem exec_bankRead (hrun : s.phase = .run) :
    exec (.bankRead b off) s = andThen (bankRead b.toNat off.toNat { s with out := Output.empty }) giveByte :=
  whenRun_of_run (f := fun u => andThen (bankRead b.toNat off.toNat u) giveByte) hrun

theorem exec_bankWrite (hrun : s.phase = .run) :
    exec (.bankWrite b off v) s = bankWrite b.toNat off.toNat v { s with out := Output.empty } := whenRun_of_run hrun

end Exec

end Sys2Proof.Machine

namespace Sys2Proof.Proofs

open Sys2Proof.Machine Sys2Proof.Laws

/-- Settles O15: each error is one outcome of the checks, and a bank that passes them is entered in its table. -/
theorem bankConfigureEffect : Obligations.BankConfigureEffect := by
  intro s b policy start region count wsize xor hconfig i
  have raises {code : ErrCode} (he : bankConfigureError b.toNat start region.toNat count wsize s = some code) :
      Raises i s code := raises_of_configure (exec_bankConfigure ..) hconfig he
  refine ⟨fun hb => raises (bankConfigureError_of_dup hb),
    fun hb hg => raises (bankConfigureError_of_noRegion hb hg), ?value, ?range, ?made⟩
  case value =>
    intro g hb hg hzero
    exact raises (by rw [bankConfigureError_of_region hb hg, if_pos hzero])
  case range =>
    intro g hb hg hcount hwsize hlt
    exact raises (by rw [bankConfigureError_of_region hb hg, if_neg (not_or.2 ⟨hcount, hwsize⟩), if_pos hlt])
  case made =>
    intro g hb hg hcount hwsize hle
    have passes : bankConfigureError b.toNat start region.toNat count wsize s = none := by
      rw [bankConfigureError_of_region hb hg, if_neg (not_or.2 ⟨hcount, hwsize⟩), if_neg (Nat.not_lt.2 hle)]
    refine ⟨_, exec_of_configure (exec_bankConfigure ..) hconfig passes, get_set_same _ _ _,
      fun m hm => get_set_other _ _ hm, ⟨rfl, rfl, rfl⟩, ?_⟩
    exact ((unchanged_out s _).mono (by simp)).trans ((unchanged_setBanks _ _).mono (by simp))

/-- Settles O16, from what a select does wherever it is called from. -/
theorem bankSelectEffect : Obligations.BankSelectEffect := by
  intro s b index hrun
  rw [exec_bankSelect hrun]
  refine ⟨bankSelect_of_none (s := { s with out := Output.empty }), fun k hk => ?_⟩
  obtain ⟨t, ht, hactive, hother, hout, hf⟩ := bankSelect_effect (s := { s with out := Output.empty }) hk index
  exact ⟨t, ht, hactive, hother, hout.handsOut, ((unchanged_out s _).mono (by simp)).trans hf⟩

/-- Settles O17: inside the window the read is one of the region's byte, and it changes nothing. -/
theorem bankReadEffect : Obligations.BankReadEffect := by
  intro s b off hrun
  rw [exec_bankRead hrun]
  refine ⟨fun hk => andThen_of_refused (bankRead_of_none (s := { s with out := Output.empty }) hk),
    fun k hk hoff => andThen_of_refused (bankRead_of_outside (s := { s with out := Output.empty }) hk hoff),
    fun k v hk hoff hv => ?_⟩
  have hread : bankRead b.toNat off.toNat { s with out := Output.empty } = .next (v, { s with out := Output.empty }) :=
    bankRead_next.2 ⟨k, hk, hoff, v, hv, rfl⟩
  refine ⟨_, andThen_next.2 ⟨_, hread, rfl⟩, ⟨rfl, rfl, rfl⟩, ?_⟩
  exact (unchanged_out s _).trans (unchanged_withResult _ _)

/-- Settles O18: inside the window the write is one of the region's byte. -/
theorem bankWriteEffect : Obligations.BankWriteEffect := by
  intro s b off v hrun
  rw [exec_bankWrite hrun]
  refine ⟨bankWrite_of_none (s := { s with out := Output.empty }),
    fun k => bankWrite_of_outside (s := { s with out := Output.empty }), fun k g hk hoff hg ho => ?_⟩
  obtain ⟨t, ht, hbyte, hout, hf⟩ := regionWrite_effect (s := { s with out := Output.empty }) hg ho v
  exact ⟨t, bankWrite_next.2 ⟨k, hk, hoff, ht⟩, hbyte, hout.handsOut, ((unchanged_out s _).mono (by simp)).trans hf⟩

/-- Settles O19: the select leaves the memory alone and makes the entry active, whose window lies inside the region. -/
theorem selectThenReadLaw : Obligations.SelectThenReadLaw := by
  intro s b k index off hrun hk hok hlt hoff
  obtain ⟨t, hsel, hbank, -, -, hf⟩ := (bankSelectEffect s b index hrun).2 k hk
  rw [if_pos hlt] at hbank
  obtain ⟨v, hv⟩ := exists_byteAt_of_bankOk (bankOk_active hok hlt) hoff
  obtain ⟨u, hread, hout, -⟩ := (bankReadEffect t b off ((hf .phase (by simp)).trans hrun)).2.2 _ v hbank hoff
    ((hf .memory (by simp) _ _).trans hv)
  exact ⟨v, u, andThen_next.2 ⟨t, hsel, andThen_next.2 ⟨u, hread, rfl⟩⟩, hout.1, hv⟩

end Sys2Proof.Proofs
end

section
/-! The Cross-CPU Latches: the checks of LATCH.CONFIGURE (41_latch.md R160), the run-time operations on a latch as they
are issued (R161 to R164), operations executed one after another, and from them the handshake. -/

namespace Sys2Proof.Machine

open Sys2Proof.Laws

variable {s t : State}

/-! ## Operations executed one after another -/

section RunOps

variable {i : Instr} {is js : List Instr} {P : State → Prop}

theorem runOps_cons_next :
    runOps (i :: is) s = .next t ↔ ∃ u, exec i s = .next u ∧ runOps is u = .next t := andThen_next

theorem runOps_append_next :
    runOps (is ++ js) s = .next t ↔ ∃ u, runOps is s = .next u ∧ runOps js u = .next t := by
  induction is generalizing s with
  | nil => simp [runOps]
  | cons i is ih =>
    simp only [List.cons_append, runOps_cons_next, ih]
    constructor
    · rintro ⟨u, hu, v, hv, ht⟩
      exact ⟨v, ⟨u, hu, hv⟩, ht⟩
    · rintro ⟨v, ⟨u, hu, hv⟩, ht⟩
      exact ⟨u, hu, v, hv, ht⟩

/-- What an operation answers from and keeps holds however often it is repeated. -/
theorem exists_runOps_replicate (hkeep : ∀ u, P u → ∃ t, exec i u = .next t ∧ P t) (hs : P s) (j : Nat) :
    ∃ t, runOps (List.replicate j i) s = .next t ∧ P t := by
  induction j generalizing s with
  | zero => exact ⟨s, rfl, hs⟩
  | succ j ih =>
    obtain ⟨u, hu, hp⟩ := hkeep s hs
    obtain ⟨t, ht, hq⟩ := ih hp
    exact ⟨t, runOps_cons_next.2 ⟨u, hu, ht⟩, hq⟩

/-- What the first run of an operation brings about and every further one keeps. -/
theorem exists_runOps_replicate_succ (hfirst : ∃ u, exec i s = .next u ∧ P u)
    (hkeep : ∀ u, P u → ∃ t, exec i u = .next t ∧ P t) (j : Nat) :
    ∃ t, runOps (List.replicate (j + 1) i) s = .next t ∧ P t := by
  obtain ⟨u, hu, hp⟩ := hfirst
  obtain ⟨t, ht, hq⟩ := exists_runOps_replicate hkeep hp j
  exact ⟨t, runOps_cons_next.2 ⟨u, hu, ht⟩, hq⟩

end RunOps

/-! ## LATCH.CONFIGURE -/

section LatchConfigureError

variable {l : Nat} {hasTarget : Bool} {fire : Fire} {deassert hasVec : Bool} {tcpu tline vec : Byte}

theorem latchConfigureError_of_dup (hl : (Table.get s.latches l).isSome = true) :
    latchConfigureError l hasTarget fire deassert hasVec tcpu tline vec s = some .dup := if_pos hl

/-- A new latch with a target is checked for its target CPU only. -/
theorem latchConfigureError_of_target (hl : Table.get s.latches l = none) :
    latchConfigureError l true fire deassert hasVec tcpu tline vec s =
      if s.ncpu ≤ tcpu.toNat then some .unit else none := by
  simp [latchConfigureError, hl]

/-- A new latch without a target is checked for operands that only a target has. -/
theorem latchConfigureError_of_noTarget (hl : Table.get s.latches l = none) :
    latchConfigureError l false fire deassert hasVec tcpu tline vec s =
      if fire = .level ∧ deassert = false ∧ hasVec = false ∧ tcpu = 0 ∧ tline = 0 ∧ vec = 0 then none
      else some .value := by
  by_cases h : fire = .level ∧ deassert = false ∧ hasVec = false ∧ tcpu = 0 ∧ tline = 0 ∧ vec = 0
  · simp [latchConfigureError, hl, h]
  · rw [if_neg h]
    simpa [latchConfigureError, hl] using h

end LatchConfigureError

theorem unchanged_draws (s : State) (n : Nat) : Unchanged s { s with draws := n } [.draws] := by
  intro p hp
  by_cases hext : p = .extIn
  · subst hext; rfl
  · exact unchanged_extern p (by simp_all)

/-! ## The operations of the latches, as they are issued -/

section Exec

variable {l v : Byte} {k : Latch}

theorem exec_latchConfigure (l : Byte) (mode : LatchMode) (hasTarget : Bool) (fire : Fire) (deassert hasVec : Bool)
    (tcpu tline vec : Byte) (s : State) :
    exec (.latchConfigure l mode hasTarget fire deassert hasVec tcpu tline vec) s = whenConfig s fun u =>
      configure (latchConfigureError l.toNat hasTarget fire deassert hasVec tcpu tline vec u)
        (.latchConfigure l mode hasTarget fire deassert hasVec tcpu tline vec) u
        ((drawByte (.latchValue l.toNat) u).2.setLatch l.toNat
          ⟨mode, hasTarget, tcpu.toNat, tline.toNat, fire, deassert, hasVec, vec,
            (drawByte (.latchValue l.toNat) u).1, false⟩) := rfl

theorem exec_latchWrite (l v : Byte) (s : State) : exec (.latchWrite l v) s = whenRun s (latchWrite l.toNat v) := rfl

theorem exec_latchRead (l : Byte) (s : State) :
    exec (.latchRead l) s = whenRun s fun u => andThen (latchRead l.toNat u) giveByte := rfl

theorem exec_latchAck (l : Byte) (s : State) : exec (.latchAck l) s = whenRun s (latchAck l.toNat) := rfl

theorem exec_latchPendingR (l : Byte) (s : State) :
    exec (.latchPendingR l) s = whenRun s fun u => andThen (latchPending l.toNat u) giveFlag := rfl

theorem latchWrite_of_none {l : Nat} (hk : Table.get s.latches l = none) :
    latchWrite l v s = .refused (.latchNotConfigured l) := by
  simp [latchWrite, hk]

theorem latchRead_of_none {l : Nat} (hk : Table.get s.latches l = none) :
    latchRead l s = .refused (.latchNotConfigured l) := by
  simp [latchRead, hk]

theorem latchAck_of_none {l : Nat} (hk : Table.get s.latches l = none) :
    latchAck l s = .refused (.latchNotConfigured l) := by
  simp [latchAck, hk]

theorem latchPending_of_none {l : Nat} (hk : Table.get s.latches l = none) :
    latchPending l s = .refused (.latchNotConfigured l) := by
  simp [latchPending, hk]

/-- LATCH.PENDING_R of a configured latch hands out its flag and does nothing else (41_latch.md R164). -/
theorem exec_latchPendingR_effect (hrun : s.phase = .run) (hk : Table.get s.latches l.toNat = some k) :
    ∃ t, exec (.latchPendingR l) s = .next t ∧ HandsOut t (.flag k.pending) ∧ Unchanged s t [.out] := by
  have hpending : latchPending l.toNat { s with out := Output.empty } =
      .next (k.pending, { s with out := Output.empty }) := latchPending_next.2 ⟨k, hk, rfl⟩
  rw [exec_latchPendingR, whenRun_of_run hrun]
  exact ⟨_, andThen_next.2 ⟨_, hpending, rfl⟩, ⟨rfl, rfl, rfl⟩, (unchanged_out s _).trans (unchanged_withResult _ _)⟩

end Exec

end Sys2Proof.Machine

namespace Sys2Proof.Proofs

open Sys2Proof.Machine Sys2Proof.Laws

/-- Settles O20: each error is one outcome of the checks, and a latch that passes them is entered in its table with the
byte drawn for it. -/
theorem latchConfigureEffect : Obligations.LatchConfigureEffect := by
  intro s l mode hasTarget fire deassert hasVec tcpu tline vec hconfig i absent
  have raises {code : ErrCode}
      (he : latchConfigureError l.toNat hasTarget fire deassert hasVec tcpu tline vec s = some code) :
      Raises i s code := raises_of_configure (exec_latchConfigure ..) hconfig he
  refine ⟨fun hl => raises (latchConfigureError_of_dup hl), ?unit, ?value, ?made⟩
  case unit =>
    rintro hl rfl hcpu
    exact raises (by rw [latchConfigureError_of_target hl, if_pos hcpu])
  case value =>
    rintro hl rfl hstray
    exact raises (by rw [latchConfigureError_of_noTarget hl, if_neg hstray])
  case made =>
    intro hl hgood
    have passes : latchConfigureError l.toNat hasTarget fire deassert hasVec tcpu tline vec s = none := by
      obtain ⟨rfl, hcpu⟩ | ⟨rfl, habsent⟩ := hgood
      · rw [latchConfigureError_of_target hl, if_neg (Nat.not_le.2 hcpu)]
      · rw [latchConfigureError_of_noTarget hl, if_pos habsent]
    refine ⟨_, _, exec_of_configure (exec_latchConfigure ..) hconfig passes, latchIs_setLatch _ _ _,
      ⟨rfl, rfl, rfl⟩, ?_⟩
    exact ((unchanged_out s _).mono (by simp)).trans
      (((unchanged_draws _ _).mono (by simp)).trans ((unchanged_setLatch _ _ _).mono (by simp)))

/-- Settles O21, from what a write of a latch does wherever it is called from. -/
theorem latchWriteEffect : Obligations.LatchWriteEffect := by
  intro s l v
  refine ⟨rfl, fun hphase => (exec_latchWrite l v s).trans (whenRun_of_ne hphase), fun hrun hk => ?_,
    fun k hrun hk htarget => ?_⟩
  · rw [exec_latchWrite, whenRun_of_run hrun]
    exact latchWrite_of_none (s := { s with out := Output.empty }) hk
  · rw [exec_latchWrite, whenRun_of_run hrun]
    obtain ⟨t, ht, hwritten, hout, hf⟩ := latchWrite_effect (s := { s with out := Output.empty }) hk htarget v
    exact ⟨t, ht, hwritten, hout.handsOut, ((unchanged_out s _).mono (by simp)).trans hf⟩

/-- Settles O22, from what a read of a latch does wherever it is called from. -/
theorem latchReadEffect : Obligations.LatchReadEffect := by
  intro s l hrun
  rw [exec_latchRead, whenRun_of_run hrun]
  refine ⟨fun hk => andThen_of_refused (latchRead_of_none (s := { s with out := Output.empty }) hk), fun k hk => ?_⟩
  obtain ⟨t, ht, hcleared, hout, hf⟩ := latchRead_effect (s := { s with out := Output.empty }) hk
  refine ⟨t.withResult (.byte k.value), andThen_next.2 ⟨_, ht, rfl⟩, hout.withResult _, hcleared, ?_⟩
  exact (((unchanged_out s _).mono (by simp)).trans hf).trans ((unchanged_withResult _ _).mono (by simp))

/-- Settles O23, from what an acknowledge of a latch does wherever it is called from. -/
theorem latchAckEffect : Obligations.LatchAckEffect := by
  intro s l hrun
  rw [exec_latchAck, whenRun_of_run hrun]
  refine ⟨latchAck_of_none (s := { s with out := Output.empty }), fun k hk => ?_⟩
  obtain ⟨t, ht, hcleared, hout, hf⟩ := latchAck_effect (s := { s with out := Output.empty }) hk
  exact ⟨t, ht, hout.handsOut, hcleared, ((unchanged_out s _).mono (by simp)).trans hf⟩

/-- Settles O24: a read of the flag leaves a state in which the next one answers the same. -/
theorem latchPendingEffect : Obligations.LatchPendingEffect := by
  intro s l
  refine ⟨rfl, fun hphase => (exec_latchPendingR l s).trans (whenRun_of_ne hphase), fun hrun hk => ?_,
    fun k hrun hk => ?_⟩
  · rw [exec_latchPendingR, whenRun_of_run hrun]
    exact andThen_of_refused (latchPending_of_none (s := { s with out := Output.empty }) hk)
  · have hfirst := exec_latchPendingR_effect hrun hk
    refine ⟨hfirst, exists_runOps_replicate_succ hfirst fun u hu => ?_⟩
    obtain ⟨-, hf⟩ := hu
    obtain ⟨t, ht, hout, hft⟩ := exec_latchPendingR_effect ((hf .phase (by simp)).trans hrun)
      ((hf .latches (by simp) l.toNat).trans hk)
    exact ⟨t, ht, hout, hf.trans hft⟩

end Sys2Proof.Proofs

namespace Sys2Proof.Machine

open Sys2Proof.Laws Sys2Proof.Proofs

/-! ## The handshake: the record of one latch, followed through its operations -/

/-- The fabric runs and latch `l` has the record `k`. -/
def LatchRuns (s : State) (l : Byte) (k : Latch) : Prop := s.phase = .run ∧ Table.get s.latches l.toNat = some k

/-- The record that a read leaves (41_latch.md R162). -/
def Latch.afterRead (k : Latch) : Latch := if k.mode = .readClears then { k with pending := false } else k

variable {s t : State} {l v : Byte} {k : Latch}

@[simp] theorem Latch.afterRead_value (k : Latch) : k.afterRead.value = k.value := by
  unfold Latch.afterRead
  split <;> rfl

@[simp] theorem Latch.afterRead_afterRead (k : Latch) : k.afterRead.afterRead = k.afterRead := by
  by_cases h : k.mode = .readClears <;> simp [Latch.afterRead, h]

theorem Latch.afterRead_of_separateAck (h : k.mode = .separateAck) : k.afterRead = k := by simp [Latch.afterRead, h]

theorem Latch.afterRead_of_readClears (h : k.mode = .readClears) : k.afterRead = { k with pending := false } := if_pos h

/-- A latch whose flag is cleared under a condition has its record with the flag clear, or its record. -/
theorem get_of_latchCleared {l : Nat} {c : Prop} [Decidable c] (h : LatchCleared s t l k c)
    (hk : Table.get s.latches l = some k) :
    Table.get t.latches l = some (if c then { k with pending := false } else k) := by
  obtain ⟨hclears, hkeeps⟩ := h
  split
  next hc => exact (hclears hc).1.1
  next hc => exact ((hkeeps hc).1 l).trans hk

/-- Whether or not the latch has a target, and whether or not that target's CPU exists, a write stores the value and
sets the flag. -/
theorem LatchRuns.write (h : LatchRuns s l k) (v : Byte) :
    ∃ t, exec (.latchWrite l v) s = .next t ∧ LatchRuns t l { k with value := v, pending := true } := by
  obtain ⟨hrun, hk⟩ := h
  rw [exec_latchWrite, whenRun_of_run hrun]
  have hw := latchWrite_next (s := { s with out := Output.empty }) (v := v) |>.2 ⟨k, hk, rfl⟩
  refine ⟨_, hw, (latchWrite_unchanged hw .phase (by simp)).trans hrun, ?_⟩
  split <;> simp [latchFire]

theorem LatchRuns.read (h : LatchRuns s l k) :
    ∃ t, exec (.latchRead l) s = .next t ∧ t.out.result = .byte k.value ∧ LatchRuns t l k.afterRead := by
  obtain ⟨hrun, hk⟩ := h
  obtain ⟨t, ht, hout, hcleared, hf⟩ := (latchReadEffect s l hrun).2 k hk
  exact ⟨t, ht, hout.1, (hf .phase (by simp)).trans hrun, get_of_latchCleared hcleared hk⟩

theorem LatchRuns.ack (h : LatchRuns s l k) (hmode : k.mode = .separateAck) (hpending : k.pending = true) :
    ∃ t, exec (.latchAck l) s = .next t ∧ LatchRuns t l { k with pending := false } := by
  obtain ⟨hrun, hk⟩ := h
  obtain ⟨t, ht, -, hcleared, hf⟩ := (latchAckEffect s l hrun).2 k hk
  refine ⟨t, ht, (hf .phase (by simp)).trans hrun, ?_⟩
  rw [get_of_latchCleared hcleared hk, if_pos ⟨hmode, hpending⟩]

theorem LatchRuns.pendingR (h : LatchRuns s l k) :
    ∃ t, runOps [.latchPendingR l] s = .next t ∧ t.out.result = .flag k.pending := by
  obtain ⟨hrun, hk⟩ := h
  obtain ⟨t, ht, hout, -⟩ := exec_latchPendingR_effect hrun hk
  exact ⟨t, runOps_cons_next.2 ⟨t, ht, rfl⟩, hout.1⟩

/-- From the first read on, every read hands out the same value and leaves the same record. -/
theorem LatchRuns.reads_succ (h : LatchRuns s l k) (j : Nat) :
    ∃ t, runOps (List.replicate (j + 1) (.latchRead l)) s = .next t ∧ t.out.result = .byte k.value ∧
      LatchRuns t l k.afterRead :=
  exists_runOps_replicate_succ h.read (fun _ hu => by simpa using hu.2.read) j

/-- In mode SEPARATE_ACK reads leave the record as it is. -/
theorem LatchRuns.reads_of_separateAck (h : LatchRuns s l k) (hmode : k.mode = .separateAck) (j : Nat) :
    ∃ t, runOps (List.replicate j (.latchRead l)) s = .next t ∧ LatchRuns t l k := by
  refine exists_runOps_replicate (fun u hu => ?_) h j
  obtain ⟨t, ht, -, hr⟩ := hu.read
  exact ⟨t, ht, Latch.afterRead_of_separateAck hmode ▸ hr⟩

/-- In mode READ_CLEARS the flag is clear from the first read on. -/
theorem LatchRuns.reads_of_readClears (h : LatchRuns s l k) (hmode : k.mode = .readClears) (j : Nat) :
    ∃ t, runOps (List.replicate (j + 1) (.latchRead l)) s = .next t ∧ LatchRuns t l { k with pending := false } := by
  obtain ⟨t, ht, -, hr⟩ := h.reads_succ j
  exact ⟨t, ht, Latch.afterRead_of_readClears hmode ▸ hr⟩

end Sys2Proof.Machine

namespace Sys2Proof.Proofs

open Sys2Proof.Machine Sys2Proof.Laws

/-- Settles O25: the record of the latch is followed through the write, the reads and the acknowledge. -/
theorem handshakeLaws : Obligations.HandshakeLaws := by
  intro s l v k j hrun hk
  obtain ⟨w, hwrite, hw⟩ := LatchRuns.write ⟨hrun, hk⟩ v
  refine ⟨?value, fun hmode => ?separateAck, fun hmode => ?readClears⟩
  case value =>
    obtain ⟨t, hreads, hout, -⟩ := hw.reads_succ j
    exact ⟨t, runOps_cons_next.2 ⟨w, hwrite, hreads⟩, hout⟩
  case separateAck =>
    obtain ⟨u, hreads, hu⟩ := hw.reads_of_separateAck hmode j
    have hbefore := runOps_cons_next.2 ⟨w, hwrite, hreads⟩
    constructor
    · obtain ⟨t, hflag, hout⟩ := hu.pendingR
      exact ⟨t, runOps_append_next.2 ⟨u, hbefore, hflag⟩, hout⟩
    · obtain ⟨a, hack, ha⟩ := hu.ack hmode rfl
      obtain ⟨t, hflag, hout⟩ := ha.pendingR
      exact ⟨t, runOps_append_next.2 ⟨u, hbefore, runOps_cons_next.2 ⟨a, hack, hflag⟩⟩, hout⟩
  case readClears =>
    obtain ⟨u, hreads, hu⟩ := hw.reads_of_readClears hmode j
    obtain ⟨t, hflag, hout⟩ := hu.pendingR
    exact ⟨t, runOps_append_next.2 ⟨u, runOps_cons_next.2 ⟨w, hwrite, hreads⟩, hflag⟩, hout⟩

end Sys2Proof.Proofs
end

section
/-! The Memory-Mapped Bus: the checks of BUS.REGISTER_RANGE and BUS.SETPOLICY and what they change (42_bus.md R180,
R181), the accesses as they are issued (R182 to R185), and the register handlers behind them (R188 to R195). -/

namespace Sys2Proof.Machine

open Sys2Proof.Laws

variable {s t u : State}

/-! ## The configuration of a space -/

/-- Changing a space, but not its last decoded value, is a change of the bus configuration only. -/
theorem unchanged_modifySpace {f : BusSpace → BusSpace} (hf : ∀ b, (f b).ldv = b.ldv) (s : State) (c : Nat)
    (sp : Space) : Unchanged s (s.modifySpace c sp f) [.busSetup] := by
  intro p hp
  cases p with
  | busSetup => simp at hp
  | ldv => exact fun d sq => ldv?_modifySpace hf d sq
  | lines => exact fun d n => line_modifySpace s c sp f d n
  | memory => exact fun _ _ => rfl
  | regionSetup | banks | latches | snaps => exact fun _ => rfl
  | raster | scanSetup => exact ⟨rfl, rfl⟩
  | _ => rfl

theorem space?_modifySpace_same {c : Nat} {sp : Space} {b : BusSpace} (hb : s.space? c sp = some b)
    (f : BusSpace → BusSpace) : (s.modifySpace c sp f).space? c sp = some (f b) := by
  rw [space?_modifySpace, if_pos ⟨rfl, rfl⟩, hb]
  rfl

theorem space?_modifySpace_other {c d : Nat} {sp sq : Space} (h : ¬(d = c ∧ sq = sp)) (f : BusSpace → BusSpace) :
    (s.modifySpace c sp f).space? d sq = s.space? d sq := by
  rw [space?_modifySpace, if_neg h]

theorem space?_eq_none {c : Nat} (h : s.ncpu ≤ c) (sp : Space) : s.space? c sp = none := by
  rw [State.space?, List.getElem?_eq_none_iff.2 h]
  rfl

/-! ## BUS.REGISTER_RANGE -/

section RegisterRange

variable {c lo hi : Nat} {sp : Space} {g : Target} {b : BusSpace}

theorem overlaps_eq_true {map : List BusRange} :
    overlaps lo hi map = true ↔ ∃ e ∈ map, e.lo ≤ hi ∧ lo ≤ e.hi := by
  simp [overlaps]

theorem registerRangeError_of_noCpu (hc : s.ncpu ≤ c) : registerRangeError c sp lo hi g s = some .unit := by
  rw [registerRangeError, space?_eq_none hc]

/-- A range of a CPU that exists is checked for its bounds, then against the map, and then for its target (42_bus.md
R180). -/
theorem registerRangeError_of_space (hb : s.space? c sp = some b) : registerRangeError c sp lo hi g s =
    if hi < lo ∨ 2 ^ b.addrW ≤ hi then some .value
    else if overlaps lo hi b.map then some .overlap
    else targetError g lo hi s := by
  rw [registerRangeError, hb]

/-- What is left of the checks for a range that lies in its space and shares no address with the map. -/
theorem registerRangeError_of_free (hb : s.space? c sp = some b) (hlo : lo ≤ hi) (hhi : hi < 2 ^ b.addrW)
    (hfree : ∀ e ∈ b.map, hi < e.lo ∨ e.hi < lo) : registerRangeError c sp lo hi g s = targetError g lo hi s := by
  have apart : ¬overlaps lo hi b.map = true := by
    rw [overlaps_eq_false.2 fun e he => (hfree e he).symm]
    exact Bool.false_ne_true
  rw [registerRangeError_of_space hb, if_neg (by omega), if_neg apart]

theorem targetError_eq_none (h : ∀ code, ¬TargetRaises s lo hi g code) : targetError g lo hi s = none :=
  Option.eq_none_iff_forall_ne_some.2 fun code he => h code (targetError_some.1 he)

theorem unchanged_bindTarget (g : Target) (c : Nat) (sp : Space) (lo : Nat) (s : State) :
    Unchanged s (bindTarget g c sp lo s) [.banks] := by
  rw [bindTarget_eq]
  exact unchanged_setBanks s _

theorem bindTarget_cpus (g : Target) (c : Nat) (sp : Space) (lo : Nat) (s : State) :
    (bindTarget g c sp lo s).cpus = s.cpus := by
  rw [bindTarget_eq]

theorem bindTarget_out (g : Target) (c : Nat) (sp : Space) (lo : Nat) (s : State) :
    (bindTarget g c sp lo s).out = s.out := by
  rw [bindTarget_eq]

theorem space?_bindTarget (g : Target) (c : Nat) (sp : Space) (lo : Nat) (s : State) (d : Nat) (sq : Space) :
    (bindTarget g c sp lo s).space? d sq = s.space? d sq := by
  rw [State.space?, bindTarget_cpus]
  rfl

theorem exec_busRegisterRange (c : Byte) (mode : Access) (sp : Space) (lo hi : Word32) (g : Target) (s : State) :
    exec (.busRegisterRange c mode sp lo hi g) s = whenConfig s fun u =>
      configure (registerRangeError c.toNat sp lo.toNat hi.toNat g u) (.busRegisterRange c mode sp lo hi g) u
        ((bindTarget g c.toNat sp lo.toNat u).modifySpace c.toNat sp fun b =>
          { b with map := b.map ++ [⟨lo.toNat, hi.toNat, mode, g⟩] }) := rfl

end RegisterRange

/-! ## BUS.SETPOLICY -/

section SetPolicy

variable {c : Nat} {policy : OpenBusPolicy} {obc : Byte}

theorem setPolicyError_of_noCpu (hc : s.ncpu ≤ c) : setPolicyError c policy obc s = some .unit := if_pos hc

/-- For a CPU that exists only a constant that the policy does not use is an error (42_bus.md R181). -/
theorem setPolicyError_of_cpu (hc : c < s.ncpu) :
    setPolicyError c policy obc s = if policy = .last ∧ obc ≠ 0 then some .value else none := by
  rw [setPolicyError, if_neg (Nat.not_le.2 hc)]

theorem exec_busSetPolicy (c : Byte) (policy : OpenBusPolicy) (sp : Space) (mask : Word32) (obc : Byte) (s : State) :
    exec (.busSetPolicy c policy sp mask obc) s = whenConfig s fun u =>
      configure (setPolicyError c.toNat policy obc u) (.busSetPolicy c policy sp mask obc) u
        (u.modifySpace c.toNat sp fun b =>
          { b with mask := BitVec.ofNat 32 (mask.toNat % 2 ^ b.addrW), policy := policy, obc := obc }) := rfl

/-- A mask cut to the width of the space still fits its word. -/
theorem toNat_cutMask (mask : Word32) (w : Nat) :
    (BitVec.ofNat 32 (mask.toNat % 2 ^ w)).toNat = mask.toNat % 2 ^ w := by
  rw [BitVec.toNat_ofNat]
  exact Nat.mod_eq_of_lt (Nat.lt_of_le_of_lt (Nat.mod_le _ _) mask.isLt)

end SetPolicy

/-! ## The accesses, as they are issued -/

theorem openBus_eq (b : BusSpace) : b.openBus = if b.policy = .const then b.obc else b.ldv := by
  unfold BusSpace.openBus
  cases b.policy <;> rfl

theorem encode_readOp (sp : Space) (c : Byte) (addr : Word32) :
    encode (readOp sp c addr) = [(match sp with | .mem => 0x31#8 | .io => 0x34#8) ++ c ++ 0#8 ++ addr ++ 0#8] := by
  cases sp <;> rfl

theorem encode_writeOp (sp : Space) (c : Byte) (addr : Word32) (v : Byte) :
    encode (writeOp sp c addr v) = [(match sp with | .mem => 0x32#8 | .io => 0x35#8) ++ c ++ 0#8 ++ addr ++ v] := by
  cases sp <;> rfl

section Access

variable {c : Byte} {sp : Space} {addr : Word32} {v : Byte} {b : BusSpace}

theorem exec_readOp_of_noCpu (hrun : s.phase = .run) (hc : s.ncpu ≤ c.toNat) :
    exec (readOp sp c addr) s = .refused (.noSuchCpu c.toNat) := by
  have hb := space?_eq_none (s := { s with out := Output.empty }) hc sp
  rw [exec_readOp, whenRun_of_run hrun, busRead, hb]
  rfl

theorem exec_writeOp_of_noCpu (hrun : s.phase = .run) (hc : s.ncpu ≤ c.toNat) :
    exec (writeOp sp c addr v) s = .refused (.noSuchCpu c.toNat) := by
  have hb := space?_eq_none (s := { s with out := Output.empty }) hc sp
  rw [exec_writeOp, whenRun_of_run hrun, busWrite, hb]

/-- A read that misses gives the open-bus value and does nothing else (20_memory.md R60). -/
theorem readOp_miss_effect (hrun : s.phase = .run) (hb : s.space? c.toNat sp = some b)
    (hr : b.resolve addr .rd = none) :
    ∃ t, exec (readOp sp c addr) s = .next t ∧ HandsOut t (.byte b.openBus) ∧ Unchanged s t [.out] := by
  have hread := busRead_next (s := { s with out := Output.empty }) |>.2 ⟨b, hb, .inl ⟨hr, rfl⟩⟩
  rw [exec_readOp, whenRun_of_run hrun]
  refine ⟨_, andThen_next.2 ⟨_, hread, rfl⟩, ⟨rfl, rfl, rfl⟩, ?_⟩
  exact (unchanged_out s _).trans ((unchanged_emit _ _).trans (unchanged_withResult _ _))

/-- A write that misses does nothing (20_memory.md R59). -/
theorem writeOp_miss_effect (hrun : s.phase = .run) (hb : s.space? c.toNat sp = some b)
    (hr : b.resolve addr .wr = none) :
    ∃ t, exec (writeOp sp c addr v) s = .next t ∧ HandsOut t .none ∧ Unchanged s t [.out] := by
  have hwrite := busWrite_next (s := { s with out := Output.empty }) (v := v) |>.2 ⟨b, hb, .inl ⟨hr, rfl⟩⟩
  rw [exec_writeOp, whenRun_of_run hrun]
  exact ⟨_, hwrite, ⟨rfl, rfl, rfl⟩, (unchanged_out s _).trans (unchanged_emit _ _)⟩

variable {e : BusRange} {off : Nat}

/-- A read that hits hands out the byte of its target and sets the last decoded value, on top of what reading the target
does. -/
theorem readOp_hit_effect (hrun : s.phase = .run) (hb : s.space? c.toNat sp = some b)
    (hr : b.resolve addr .rd = some (e, off))
    (hu : readTarget b.openBus e.target off { s with out := Output.empty } = .next (v, u)) :
    ∃ t, exec (readOp sp c addr) s = .next t ∧ HandsOut t (.byte v) ∧ LdvSet u t c.toNat sp v ∧
      Unchanged u t [.ldv, .out] := by
  obtain ⟨hout, hf⟩ := readTarget_frame hu
  have hc : c.toNat < u.ncpu := (hf .busSetup (by simp)).1 ▸ ncpu_of_space hb
  refine ⟨_, exec_readOp_of_hit hrun hb hr hu, SameOut.withResult (t := u.setLdv c.toNat sp v) hout _,
    ldvSet_setLdv (s := u) hc sp v, ?_⟩
  exact ((unchanged_setLdv _ _ _ _).mono (by simp)).trans ((unchanged_withResult _ _).mono (by simp))

/-- A write that hits sets the last decoded value, on top of what writing the target does. -/
theorem writeOp_hit_effect (hrun : s.phase = .run) (hb : s.space? c.toNat sp = some b)
    (hr : b.resolve addr .wr = some (e, off))
    (hu : writeTarget e.target off v { s with out := Output.empty } = .next u) :
    ∃ t, exec (writeOp sp c addr v) s = .next t ∧ t.out = u.out ∧ LdvSet u t c.toNat sp v ∧ Unchanged u t [.ldv] := by
  have hc : c.toNat < u.ncpu := (updates_writeTarget (R := True) hu).ncpu ▸ ncpu_of_space hb
  exact ⟨_, exec_writeOp_of_hit hrun hb hr hu, rfl, ldvSet_setLdv hc sp v, unchanged_setLdv _ _ _ _⟩

end Access

/-! ## The register handlers: what an access does beside its register's own effect -/

theorem LdvSet.of_same {c : Nat} {sp : Space} {v : Byte} (h : LdvSet u t c sp v) (hs : Part.same s u .ldv) :
    LdvSet s t c sp v := fun d sq => by rw [h d sq, hs d sq]

theorem LineIs.trans_same {c n : Nat} {r : LineRec} (h : LineIs s u c n r) (hl : Part.same u t .lines) :
    LineIs s t c n r := fun d m => (hl d m).trans (h d m)

theorem LatchIs.trans_same {l : Nat} {k : Latch} (h : LatchIs s u l k) (hl : Part.same u t .latches) :
    LatchIs s t l k := ⟨(hl l).trans h.1, fun m hm => (hl m).trans (h.2 m hm)⟩

theorem LatchCleared.trans_same {l : Nat} {k : Latch} {p : Prop} (h : LatchCleared s u l k p)
    (hl : Part.same u t .latches) (hn : Part.same u t .lines) : LatchCleared s t l k p := by
  obtain ⟨hclears, hkeeps⟩ := h
  refine ⟨fun hp => ?_, fun hp => ?_⟩
  · obtain ⟨hlatch, hlowered, hsame⟩ := hclears hp
    exact ⟨hlatch.trans_same hl, fun hk => (hlowered hk).trans_same hn, fun hk => Part.same_trans (hsame hk) hn⟩
  · obtain ⟨hlatches, hlines⟩ := hkeeps hp
    exact ⟨Part.same_trans hlatches hl, Part.same_trans hlines hn⟩

theorem LatchWritten.trans_same {l : Nat} {k : Latch} {v : Byte} (h : LatchWritten s u l k v)
    (hl : Part.same u t .latches) (hn : Part.same u t .lines) : LatchWritten s t l k v := by
  obtain ⟨hlatch, hlines⟩ := h
  refine ⟨hlatch.trans_same hl, ?_⟩
  split at hlines
  next hraised => rw [if_pos hraised]; exact hlines.trans_same hn
  next hraised => rw [if_neg hraised]; exact Part.same_trans hlines hn

section Register

variable {c : Byte} {sp : Space} {addr : Word32} {v : Byte} {b : BusSpace} {e : BusRange} {off : Nat}

/-- A read of a register changes the parts that its handler changes, and sets the last decoded value. -/
theorem readOp_register_effect (parts : List Part) (hrun : s.phase = .run) (hb : s.space? c.toNat sp = some b)
    (hr : b.resolve addr .rd = some (e, off))
    (hu : readTarget b.openBus e.target off { s with out := Output.empty } = .next (v, u))
    (hf : Unchanged { s with out := Output.empty } u (parts ++ [.out])) (hp : Part.ldv ∉ parts := by simp) :
    ∃ t, exec (readOp sp c addr) s = .next t ∧ HandsOut t (.byte v) ∧ LdvSet s t c.toNat sp v ∧
      Unchanged u t [.ldv, .out] ∧ Unchanged s t (parts ++ [.ldv, .out]) := by
  obtain ⟨t, ht, hout, hldv, hut⟩ := readOp_hit_effect hrun hb hr hu
  refine ⟨t, ht, hout, hldv.of_same (hf .ldv (by simpa using hp)), hut, ?_⟩
  exact ((unchanged_out s _).mono (by simp)).trans ((hf.mono (by simp)).trans (hut.mono (by simp)))

/-- A write of a register that calls no `Sink` changes the parts that its handler changes, and sets the last decoded
value. -/
theorem writeOp_register_effect (parts : List Part) (hrun : s.phase = .run) (hb : s.space? c.toNat sp = some b)
    (hr : b.resolve addr .wr = some (e, off))
    (hu : writeTarget e.target off v { s with out := Output.empty } = .next u)
    (hout : SameOut { s with out := Output.empty } u)
    (hf : Unchanged { s with out := Output.empty } u (parts ++ [.out])) (hp : Part.ldv ∉ parts := by simp) :
    ∃ t, exec (writeOp sp c addr v) s = .next t ∧ HandsOut t .none ∧ LdvSet s t c.toNat sp v ∧
      Unchanged u t [.ldv] ∧ Unchanged s t (parts ++ [.ldv, .out]) := by
  obtain ⟨t, ht, hsame, hldv, hut⟩ := writeOp_hit_effect hrun hb hr hu
  refine ⟨t, ht, by rw [HandsOut, hsame]; exact hout.handsOut, hldv.of_same (hf .ldv (by simpa using hp)), hut, ?_⟩
  exact ((unchanged_out s _).mono (by simp)).trans ((hf.mono (by simp)).trans (hut.mono (by simp)))

/-- A write of a register whose handler is a line operation on a CPU that exists (42_bus.md R192, R193). -/
theorem writeOp_line_effect {d n : Nat} {m : LineMode} {w : Option Byte} (hrun : s.phase = .run)
    (hb : s.space? c.toNat sp = some b) (hr : b.resolve addr .wr = some (e, off))
    (hu : writeTarget e.target off v { s with out := Output.empty } =
      .next (lineSet d n m w { s with out := Output.empty })) (hd : d < s.ncpu) :
    ∃ t, exec (writeOp sp c addr v) s = .next t ∧ HandsOut t .none ∧ LineIs s t d n (lineRecOf m w) ∧
      LdvSet s t c.toNat sp v ∧ Unchanged s t [.lines, .ldv, .out] := by
  obtain ⟨t, ht, hout, hldv, hut, hst⟩ := writeOp_register_effect [.lines] hrun hb hr hu (sameOut_lineSet _ _ _ _ _)
    ((unchanged_lineSet _ _ _ _ _).mono (by simp))
  have hline := lineIs_lineSet (s := { s with out := Output.empty }) hd n m w
  exact ⟨t, ht, hout, hline.trans_same (hut .lines (by simp)), hldv, hst⟩

end Register

/-! ## Status registers -/

/-- A valid bit shows the flag, inverted where the invert mask says so. -/
theorem statusBit_eq (valid invert : BitVec 4) (i : Nat) (p : Bool) :
    statusBit valid invert i p = (valid.getLsbD i && (some p == some (!invert.getLsbD i))) := by
  unfold statusBit
  cases p <;> cases invert.getLsbD i <;> simp

/-- The bit of a status register for latch `l` (42_bus.md R190). -/
def State.statusFlagOf (s : State) (valid invert : BitVec 4) (i : Nat) (l : Byte) : Bool :=
  valid.getLsbD i && (((Table.get s.latches l.toNat).map fun k => k.pending) == some (!invert.getLsbD i))

theorem statusFlag_eq {valid invert : BitVec 4} {i : Nat} {l : Byte}
    (h : valid.getLsbD i = true → s.hasLatch l = true) :
    statusFlag valid invert i l s = .next (s.statusFlagOf valid invert i l, s) := by
  unfold statusFlag State.statusFlagOf
  split
  next hv =>
    obtain ⟨k, hk⟩ := hasLatch_iff.1 (h hv)
    rw [latchPending_next.2 ⟨k, hk, rfl⟩, andThen_next_left, statusBit_eq, hk]
    rfl
  next hv => simp [hv]

theorem forall_statusBit {l0 l1 l2 l3 : Byte} {p : Nat → Byte → Prop} :
    (∀ i l, (i, l) ∈ [(0, l0), (1, l1), (2, l2), (3, l3)] → p i l) ↔ p 0 l0 ∧ p 1 l1 ∧ p 2 l2 ∧ p 3 l3 := by
  simp [or_imp, forall_and]

theorem statusByte_bits (b0 b1 b2 b3 : Bool) : (statusByte b0 b1 b2 b3).toNat < 16 ∧
    (statusByte b0 b1 b2 b3).getLsbD 0 = b0 ∧ (statusByte b0 b1 b2 b3).getLsbD 1 = b1 ∧
    (statusByte b0 b1 b2 b3).getLsbD 2 = b2 ∧ (statusByte b0 b1 b2 b3).getLsbD 3 = b3 := by
  revert b0 b1 b2 b3
  decide

/-- A read of a status register gives the four bits and changes nothing (42_bus.md R190). -/
theorem readTarget_kStatus {l0 l1 l2 l3 : Byte} {valid invert : BitVec 4}
    (h : ∀ i l, (i, l) ∈ [(0, l0), (1, l1), (2, l2), (3, l3)] → valid.getLsbD i = true → s.hasLatch l = true)
    (x : Byte) (off : Nat) : readTarget x (.kStatus l0 l1 l2 l3 valid invert) off s =
      .next (statusByte (s.statusFlagOf valid invert 0 l0) (s.statusFlagOf valid invert 1 l1)
        (s.statusFlagOf valid invert 2 l2) (s.statusFlagOf valid invert 3 l3), s) := by
  obtain ⟨h0, h1, h2, h3⟩ := forall_statusBit.1 h
  simp only [readTarget, statusFlag_eq h0, statusFlag_eq h1, statusFlag_eq h2, statusFlag_eq h3, andThen_next_left]

/-! ## Trigger registers and control bits -/

theorem lineMode_ofCode_eq_clear {k : BitVec 2} : LineMode.ofCode k = .clear ↔ k = 0#2 := by
  revert k
  decide

/-- The record that a trigger register leaves on its line (42_bus.md R192). -/
theorem lineRecOf_ofCode (k : BitVec 2) (hasVec : Bool) (vec : Byte) :
    lineRecOf (LineMode.ofCode k) (vecOf hasVec vec) =
      if k = 0#2 then LineRec.cleared else ⟨LineMode.ofCode k, hasVec, if hasVec then vec else 0⟩ := by
  simp only [lineRecOf, lineMode_ofCode_eq_clear]
  cases hasVec <;> rfl

/-- The record that a control bit leaves on its line (42_bus.md R193). -/
theorem lineRecOf_lineBitMode {bit active v : Byte} (h : active.toNat ≤ 1) :
    lineRecOf (lineBitMode bit active v) none =
      if (v.getLsbD bit.toNat).toNat = active.toNat then ⟨.assert, false, 0⟩ else LineRec.cleared := by
  have hactive : active = 0 ∨ active = 1 := by
    rcases Nat.le_one_iff_eq_zero_or_eq_one.1 h with h | h
    · exact .inl (BitVec.eq_of_toNat_eq h)
    · exact .inr (BitVec.eq_of_toNat_eq h)
  unfold lineBitMode
  rcases hactive with rfl | rfl <;> cases v.getLsbD bit.toNat <;> rfl

end Sys2Proof.Machine

namespace Sys2Proof.Proofs

open Sys2Proof.Machine Sys2Proof.Laws

/-- Settles O27: each error is one outcome of the checks, and a range that passes them binds its target and ends the
map. -/
theorem registerRangeEffect : Obligations.RegisterRangeEffect := by
  intro s c mode sp lo hi g hconfig i
  have raises {code : ErrCode} (he : registerRangeError c.toNat sp lo.toNat hi.toNat g s = some code) :
      Raises i s code := raises_of_configure (exec_busRegisterRange ..) hconfig he
  refine ⟨fun hc => raises (registerRangeError_of_noCpu hc), ?bounds, ?overlap, ?target, ?made⟩
  case bounds =>
    intro b hb hbad
    exact raises (by rw [registerRangeError_of_space hb, if_pos hbad])
  case overlap =>
    intro b hb hlo hhi hmeets
    exact raises (by
      rw [registerRangeError_of_space hb, if_neg (by omega), if_pos (overlaps_eq_true.2 hmeets)])
  case target =>
    intro b code hb hlo hhi hfree hbad
    exact raises (by rw [registerRangeError_of_free hb hlo hhi hfree, targetError_some.2 hbad])
  case made =>
    intro b hb hlo hhi hfree hgood
    have passes : registerRangeError c.toNat sp lo.toNat hi.toNat g s = none := by
      rw [registerRangeError_of_free hb hlo hhi hfree, targetError_eq_none hgood]
    have hbound (d : Nat) (sq : Space) := space?_bindTarget g c.toNat sp lo.toNat { s with out := Output.empty } d sq
    refine ⟨_, exec_of_configure (exec_busRegisterRange ..) hconfig passes,
      space?_modifySpace_same ((hbound _ _).trans hb) _,
      fun d sq hd => (space?_modifySpace_other hd _).trans (hbound d sq), ?ncpu, fun m => get_bindTarget .., ?out,
      ?frame⟩
    case ncpu =>
      rw [ncpu_modifySpace, State.ncpu, bindTarget_cpus]
      rfl
    case out =>
      rw [HandsOut, modifySpace_out, bindTarget_out]
      exact ⟨rfl, rfl, rfl⟩
    case frame =>
      exact ((unchanged_out s _).mono (by simp)).trans (((unchanged_bindTarget _ _ _ _ _).mono (by simp)).trans
        ((unchanged_modifySpace (fun _ => by rfl) _ _ _).mono (by simp)))

/-- Settles O28: each error is one outcome of the checks; the mask is cut to the width of the space. -/
theorem setPolicyEffect : Obligations.SetPolicyEffect := by
  intro s c policy sp mask obc hconfig i
  have raises {code : ErrCode} (he : setPolicyError c.toNat policy obc s = some code) : Raises i s code :=
    raises_of_configure (exec_busSetPolicy ..) hconfig he
  refine ⟨fun hc => raises (setPolicyError_of_noCpu hc), fun hc hpolicy hobc => ?value, fun b hb hgood => ?made⟩
  case value => exact raises (by rw [setPolicyError_of_cpu hc, if_pos ⟨hpolicy, hobc⟩])
  case made =>
    have used : ¬(policy = .last ∧ obc ≠ 0) := by
      rintro ⟨rfl, hne⟩
      exact hgood.elim (by simp) hne
    have passes : setPolicyError c.toNat policy obc s = none := by
      rw [setPolicyError_of_cpu (ncpu_of_space hb), if_neg used]
    refine ⟨_, _, exec_of_configure (exec_busSetPolicy ..) hconfig passes,
      space?_modifySpace_same (s := { s with out := Output.empty }) hb _, toNat_cutMask _ _,
      fun d sq hd => space?_modifySpace_other hd _, ncpu_modifySpace .., ⟨rfl, rfl, rfl⟩, ?_⟩
    exact ((unchanged_out s _).mono (by simp)).trans
      ((unchanged_modifySpace (fun _ => by rfl) _ _ _).mono (by simp))

/-- Settles O30: without a CPU there is no space, and with one the access misses or hits. -/
theorem busReadDispatch : Obligations.BusReadDispatch := by
  intro s sp c addr
  refine ⟨encode_readOp sp c addr, fun hphase => ?phase, exec_readOp_of_noCpu, fun b hrun hb hr => ?miss,
    fun b e off v u hrun hb hr hu => ?hit⟩
  case phase => rw [exec_readOp, whenRun_of_ne hphase]
  case miss => rw [← openBus_eq]; exact readOp_miss_effect hrun hb hr
  case hit => rw [← openBus_eq] at hu; exact readOp_hit_effect hrun hb hr hu

/-- Settles O31: without a CPU there is no space, and with one the access misses or hits. -/
theorem busWriteDispatch : Obligations.BusWriteDispatch := by
  intro s sp c addr v
  refine ⟨encode_writeOp sp c addr v, fun hphase => ?phase, exec_writeOp_of_noCpu,
    fun b => writeOp_miss_effect, fun b e off u => writeOp_hit_effect⟩
  case phase => rw [exec_writeOp, whenRun_of_ne hphase]

/-- Settles O34: each register's handler is the operation of its latch, the packed flags, the open-bus value or a byte
of the outside world; the access adds the result and the last decoded value. -/
theorem registerTargetRead : Obligations.RegisterTargetRead := by
  intro s sp c addr b e off hrun hb hr
  refine ⟨fun l k hg hk => ?data, fun l k hg hk => ?ack, fun l0 l1 l2 l3 valid invert hg hlatches => ?status,
    fun hg => ?readless, fun site hg => ?outside⟩
  case data =>
    obtain ⟨u, hu, hcleared, -, hf⟩ := latchRead_effect (s := { s with out := Output.empty }) hk
    obtain ⟨t, ht, hout, hldv, hut, hst⟩ :=
      readOp_register_effect [.latches, .lines] hrun hb hr (by rw [hg]; exact hu) hf
    exact ⟨t, ht, hout, hcleared.trans_same (hut .latches (by simp)) (hut .lines (by simp)), hldv, hst⟩
  case ack =>
    obtain ⟨u, hu, hcleared, -, hf⟩ := latchAck_effect (s := { s with out := Output.empty }) hk
    obtain ⟨t, ht, hout, hldv, hut, hst⟩ := readOp_register_effect [.latches, .lines] hrun hb hr
      (by rw [hg]; exact andThen_next.2 ⟨u, hu, rfl⟩) hf
    exact ⟨t, ht, hout, hcleared.trans_same (hut .latches (by simp)) (hut .lines (by simp)), hldv, hst⟩
  case status =>
    obtain ⟨t, ht, hout, hldv, -, hst⟩ := readOp_register_effect [] hrun hb hr
      (by rw [hg]; exact readTarget_kStatus (s := { s with out := Output.empty }) hlatches b.openBus off) (.refl _ _)
    obtain ⟨hlt, hbits⟩ := statusByte_bits (s.statusFlagOf valid invert 0 l0) (s.statusFlagOf valid invert 1 l1)
      (s.statusFlagOf valid invert 2 l2) (s.statusFlagOf valid invert 3 l3)
    exact ⟨t, _, ht, hout, hlt, forall_statusBit.2 hbits, hldv, hst⟩
  case readless =>
    have hu : readTarget b.openBus e.target off { s with out := Output.empty } =
        readless b.openBus { s with out := Output.empty } := by
      obtain ⟨bank, shift, mask, hg⟩ | ⟨tcpu, line, mode, vec, hasVec, hg⟩ | ⟨tcpu, line, bit, active, hg⟩ := hg <;>
        rw [hg] <;> rfl
    obtain ⟨t, ht, hout, hldv, -, hst⟩ := readOp_register_effect [] hrun hb hr hu (unchanged_emit _ _)
    exact ⟨t, ht, hout, hldv, hst⟩
  case outside =>
    have hu : readTarget b.openBus e.target off { s with out := Output.empty } =
        .next (externByte site { s with out := Output.empty }) := by
      obtain ⟨src, hg, rfl⟩ | ⟨sink, hg, rfl⟩ := hg <;> rw [hg] <;> rfl
    obtain ⟨hnext, hfree, -, hf⟩ := externByte_effect site { s with out := Output.empty }
    obtain ⟨t, ht, hout, hldv, hut, hst⟩ := readOp_register_effect [.extIn, .draws] hrun hb hr hu (hf.mono (by simp))
    have hext : t.extIn = _ := hut .extIn (by simp)
    have hdraws : t.draws = _ := hut .draws (by simp)
    refine ⟨t, _, ht, hout, fun x rest hx => ?_, fun hx => ?_, hldv, hst⟩
    · rw [hext, hdraws]; exact hnext x rest hx
    · rw [hext, hdraws]; exact hfree hx

/-- Settles O35: each register's handler is the operation of its latch, bank or line, a discard or a call of `Sink`; the
access adds the last decoded value. -/
theorem registerTargetWrite : Obligations.RegisterTargetWrite := by
  intro s sp c addr v b e off hrun hb hr
  refine ⟨fun l k hg hk htarget => ?data, fun l k hg hk => ?ack, fun hg => ?writeless,
    fun bank shift mask k hg hk => ?bankSel, fun tcpu line mode vec hasVec hg hc => ?line,
    fun tcpu line bit active hg hc hactive => ?lineBit, fun sink hg => ?sink⟩
  case data =>
    obtain ⟨u, hu, hwritten, hsame, hf⟩ := latchWrite_effect (s := { s with out := Output.empty }) hk htarget v
    obtain ⟨t, ht, hout, hldv, hut, hst⟩ :=
      writeOp_register_effect [.latches, .lines] hrun hb hr (by rw [hg]; exact hu) hsame hf
    exact ⟨t, ht, hout, hwritten.trans_same (hut .latches (by simp)) (hut .lines (by simp)), hldv, hst⟩
  case ack =>
    obtain ⟨u, hu, hcleared, hsame, hf⟩ := latchAck_effect (s := { s with out := Output.empty }) hk
    obtain ⟨t, ht, hout, hldv, hut, hst⟩ :=
      writeOp_register_effect [.latches, .lines] hrun hb hr (by rw [hg]; exact hu) hsame hf
    exact ⟨t, ht, hout, hcleared.trans_same (hut .latches (by simp)) (hut .lines (by simp)), hldv, hst⟩
  case writeless =>
    have hu : writeTarget e.target off v { s with out := Output.empty } = writeless { s with out := Output.empty } := by
      obtain ⟨l0, l1, l2, l3, valid, invert, hg⟩ | ⟨src, hg⟩ := hg <;> rw [hg] <;> rfl
    obtain ⟨t, ht, hout, hldv, -, hst⟩ :=
      writeOp_register_effect [] hrun hb hr hu (sameOut_emit _ _) (unchanged_emit _ _)
    exact ⟨t, ht, hout, hldv, hst⟩
  case bankSel =>
    obtain ⟨u, hu, hactive, hother, hsame, hf⟩ :=
      bankSelect_effect (s := { s with out := Output.empty }) hk (bankSelIndex shift mask v)
    obtain ⟨t, ht, hout, hldv, hut, hst⟩ := writeOp_register_effect [.banks] hrun hb hr (by rw [hg]; exact hu) hsame hf
    have hbanks : ∀ m, Table.get t.banks m = Table.get u.banks m := hut .banks (by simp)
    exact ⟨t, ht, hout, (hbanks _).trans hactive, fun m hm => (hbanks m).trans (hother m hm), hldv, hst⟩
  case line =>
    rw [← lineRecOf_ofCode]
    exact writeOp_line_effect hrun hb hr (by rw [hg]; rfl) hc
  case lineBit =>
    rw [← lineRecOf_lineBitMode hactive]
    exact writeOp_line_effect hrun hb hr (by rw [hg]; rfl) hc
  case sink =>
    obtain ⟨t, ht, hout, hldv, hut⟩ := writeOp_hit_effect hrun hb hr
      (u := State.sinkWrite { s with out := Output.empty } sink.toNat off v) (by rw [hg]; rfl)
    refine ⟨t, ht, by rw [hout]; rfl, by rw [hout]; rfl, by rw [hout]; rfl, hldv, ?_⟩
    exact ((unchanged_out s _).mono (by simp)).trans (hut.mono (by simp))

end Sys2Proof.Proofs
end

section
/-! The Interrupt/Timing Coordinator: the line operations and CPU.IACK (43_coordinator.md R211 to R214, R216), CPU.POLL
(R215), the two timers (R217 to R220), and the scanlines that a frame of SCAN.ADVANCE steps enters. -/

namespace Sys2Proof.Machine

open Sys2Proof.Laws

variable {s : State}

/-! ## The line operations -/

/-- The record that a line operation other than a clear leaves (43_coordinator.md R210). -/
theorem lineRecOf_vecOf {m : LineMode} (h : m ≠ .clear) (hasVec : Bool) (vec : Byte) :
    lineRecOf m (vecOf hasVec vec) = ⟨m, hasVec, if hasVec then vec else 0⟩ := by
  rw [lineRecOf, if_neg h]
  cases hasVec <;> rfl

/-- Line `n` of CPU `c` has the record `r`; beside it, only what may be logged differs. -/
def ChangesLine (s t : State) (c n : Nat) (r : LineRec) : Prop :=
  LineIs s t c n r ∧ SameOut s t ∧ Unchanged s t [.lines, .out]

theorem changesLine_lineSet {c : Nat} (hc : c < s.ncpu) (n : Nat) (m : LineMode) (v : Option Byte) :
    ChangesLine s (lineSet c n m v s) c n (lineRecOf m v) :=
  ⟨lineIs_lineSet hc n m v, sameOut_lineSet .., (unchanged_lineSet _ _ _ _ _).mono (by simp)⟩

/-- Logging an event leaves the line with the record it has. -/
theorem changesLine_emit (s : State) (e : DiagEvent) (c n : Nat) : ChangesLine s (s.emit e) c n (s.line c n) := by
  refine ⟨fun d m => ?_, sameOut_emit .., (unchanged_emit _ _).mono (by simp)⟩
  split
  next h =>
    obtain ⟨rfl, rfl⟩ := h
    rfl
  next => rfl

/-- Logging an event before a line is set makes no difference to what changes. -/
theorem changesLine_lineSet_emitIf {c : Nat} (hc : c < s.ncpu) (b : Bool) (n : Nat) (m : LineMode)
    (v : Option Byte) : ChangesLine s (lineSet c n m v (s.emitIf b)) c n (lineRecOf m v) := by
  have hemit := unchanged_emitIf s b
  have hncpu : (s.emitIf b).ncpu = s.ncpu := (hemit .busSetup (by simp)).1
  obtain ⟨hline, hout, hf⟩ := changesLine_lineSet (hc.trans_eq hncpu.symm) n m v
  refine ⟨fun d k => ?_, (sameOut_emitIf s b).trans hout, (hemit.mono (by simp)).trans hf⟩
  rw [hline d k, hemit .lines (by simp) d k]

/-- Acknowledging a line clears it where it is at HOLD (43_coordinator.md R216). -/
theorem changesLine_iack {c : Nat} (hc : c < s.ncpu) (n : Nat) :
    ChangesLine s (if (s.line c n).level = .hold then lineSet c n .clear none s else s.emit .protocolViolation) c n
      (if (s.line c n).level = .hold then LineRec.cleared else s.line c n) := by
  by_cases hhold : (s.line c n).level = .hold
  · rw [if_pos hhold, if_pos hhold]
    exact changesLine_lineSet hc n .clear none
  · rw [if_neg hhold, if_neg hhold]
    exact changesLine_emit s _ c n

section OnCpu

variable {i : Instr} {c n : Byte} {f : State → State}

theorem exec_of_noCpu (hi : exec i s = onCpu c s f) (hrun : s.phase = .run) (hc : s.ncpu ≤ c.toNat) :
    exec i s = .refused (.noSuchCpu c.toNat) :=
  hi.trans ((whenRun_of_run hrun).trans (if_neg (Nat.not_lt.2 hc)))

/-- An operation on a CPU that exists, which changes a line from a state with nothing handed out. -/
theorem exec_of_changesLine {r : LineRec} (hi : exec i s = onCpu c s f) (hrun : s.phase = .run) (hc : c.toNat < s.ncpu)
    (hf : ChangesLine { s with out := Output.empty } (f { s with out := Output.empty }) c.toNat n.toNat r) :
    ∃ t, exec i s = .next t ∧ LineIs s t c.toNat n.toNat r ∧ HandsOut t .none ∧ Unchanged s t [.lines, .out] := by
  obtain ⟨hline, hout, hframe⟩ := hf
  exact ⟨_, hi.trans ((whenRun_of_run hrun).trans (if_pos hc)), hline, hout.handsOut,
    ((unchanged_out s _).mono (by simp)).trans hframe⟩

end OnCpu

theorem exec_lineClear (c n : Byte) (s : State) : exec (.lineClear c n) s = onCpu c s fun u =>
    lineSet c.toNat n.toNat .clear none (u.emitIf ((u.line c.toNat n.toNat).level == .clear)) := rfl

theorem exec_cpuIack (c n : Byte) (s : State) : exec (.cpuIack c n) s = onCpu c s fun u =>
    if (u.line c.toNat n.toNat).level = .hold then lineSet c.toNat n.toNat .clear none u
    else u.emit .protocolViolation := rfl

/-! ## CPU.POLL -/

section Poll

variable {lines : Table LineRec} {cpu : Cpu} {c : Nat}

/-- The snapshot of a poll lists the lines that are not CLEAR. -/
theorem mem_pollSnapshot (hw : Table.wf lines = true) {n : Nat} {r : LineRec} :
    (n, r) ∈ pollSnapshot lines ↔ lineOf lines n = r ∧ r.level ≠ .clear := by
  rw [pollSnapshot, List.mem_filter, bne_iff_ne]
  refine and_congr_left fun hlevel => ⟨fun h => ?listed, fun h => ?reads⟩
  case listed => rw [lineOf, get_of_mem hw h, Option.getD_some]
  case reads =>
    unfold lineOf at h
    cases hg : Table.get lines n with
    | none =>
      rw [hg] at h
      exact absurd (congrArg LineRec.level h.symm) hlevel
    | some a =>
      rw [hg] at h
      exact h ▸ get_mem hg

theorem lineOf_clearPulses (hw : Table.wf lines = true) (n : Nat) :
    lineOf (clearPulses lines) n = if (lineOf lines n).level = .pulse then LineRec.cleared else lineOf lines n := by
  unfold lineOf clearPulses
  rw [get_filter_of_wf _ hw]
  cases Table.get lines n with
  | none => rfl
  | some r => by_cases h : r.level = .pulse <;> simp [Option.filter, h]

/-- The fabric with the pulses of CPU `c` cleared. -/
def State.dropPulses (s : State) (c : Nat) : State :=
  { s with cpus := s.cpus.modify c fun cpu => { cpu with lines := clearPulses cpu.lines } }

theorem line_of_cpu (hcpu : s.cpus[c]? = some cpu) (n : Nat) : s.line c n = lineOf cpu.lines n := by
  rw [State.line, hcpu]

theorem wf_lines (hs : s.linesOk = true) (hcpu : s.cpus[c]? = some cpu) : Table.wf cpu.lines = true :=
  (linesCanonical_iff.1 ((linesOk_iff.1 hs).1 c cpu hcpu)).1

theorem line_dropPulses (hs : s.linesOk = true) (c d n : Nat) : (s.dropPulses c).line d n =
    if d = c ∧ (s.line d n).level = .pulse then LineRec.cleared else s.line d n := by
  cases hd : s.cpus[d]? with
  | none =>
    have hnone : (s.dropPulses c).cpus[d]? = none := by simp [State.dropPulses, List.getElem?_modify, hd]
    simp [State.line, hd, hnone]
  | some cpu =>
    have hsome : (s.dropPulses c).cpus[d]? =
        some (if c = d then { cpu with lines := clearPulses cpu.lines } else cpu) := by
      simp only [State.dropPulses, List.getElem?_modify, hd]
      split <;> rfl
    rw [line_of_cpu hsome, line_of_cpu hd]
    by_cases h : c = d
    · simp [h, lineOf_clearPulses (wf_lines hs hd)]
    · simp [h, Ne.symm h]

theorem exec_cpuPoll (c : Byte) (s : State) : exec (.cpuPoll c) s = execCpuPoll c s := rfl

theorem exec_cpuPoll_of_noCpu {c : Byte} (hrun : s.phase = .run) (hc : s.ncpu ≤ c.toNat) :
    exec (.cpuPoll c) s = .refused (.noSuchCpu c.toNat) := by
  rw [exec_cpuPoll, execCpuPoll, whenRun_of_run hrun]
  simp only [List.getElem?_eq_none_iff.2 hc]

theorem exec_cpuPoll_of_cpu {c : Byte} (hrun : s.phase = .run) (hcpu : s.cpus[c.toNat]? = some cpu) :
    exec (.cpuPoll c) s = .next
      ((State.dropPulses { s with out := Output.empty } c.toNat).withResult (.lines (pollSnapshot cpu.lines))) := by
  rw [exec_cpuPoll, execCpuPoll, whenRun_of_run hrun]
  simp only [hcpu]
  rfl

end Poll

/-! ## The timers: what each keeps -/

/-- Beside the parts that a frame leaves out, the raster, the scanline entries and the periodic entries are the same. -/
theorem unchanged_timing {but : List Part} {v f : Nat} {es : List ScanEntry} {ts : List PerTimer}
    (hraster : .raster ∉ but → v = s.scanV ∧ f = s.scanF) (hscan : .scanSetup ∉ but → es = s.scanEntries)
    (htimers : .timers ∉ but → ts = s.perTimers) :
    Unchanged s { s with scanV := v, scanF := f, scanEntries := es, perTimers := ts } but := by
  intro p hp
  cases p with
  | raster => exact hraster hp
  | scanSetup => exact ⟨rfl, hscan hp⟩
  | timers => exact htimers hp
  | memory | ldv | lines => exact fun _ _ => rfl
  | regionSetup | banks | latches | snaps => exact fun _ => rfl
  | busSetup => exact ⟨rfl, fun _ _ => rfl⟩
  | _ => rfl

theorem unchanged_raster (s : State) (v f : Nat) : Unchanged s { s with scanV := v, scanF := f } [.raster] :=
  unchanged_timing (by simp) (fun _ => rfl) fun _ => rfl

theorem unchanged_scanEntries (s : State) (es : List ScanEntry) :
    Unchanged s { s with scanEntries := es } [.scanSetup] :=
  unchanged_timing (fun _ => ⟨rfl, rfl⟩) (by simp) fun _ => rfl

theorem unchanged_perTimers (s : State) (ts : List PerTimer) : Unchanged s { s with perTimers := ts } [.timers] :=
  unchanged_timing (fun _ => ⟨rfl, rfl⟩) (fun _ => rfl) (by simp)

/-! ## SCAN.CONFIGURE and PER.CONFIGURE -/

section TimerConfigure

variable {c x : Nat}

theorem scanConfigureError_of_noCpu (hc : s.ncpu ≤ c) : scanConfigureError c x s = some .unit := if_pos hc

theorem scanConfigureError_of_cpu (hc : c < s.ncpu) :
    scanConfigureError c x s = if s.scanLines ≤ x then some .value else none := if_neg (Nat.not_le.2 hc)

theorem perConfigureError_of_noCpu (hc : s.ncpu ≤ c) : perConfigureError c x s = some .unit := if_pos hc

theorem perConfigureError_of_cpu {hz : BitVec 16} (hc : c < s.ncpu) :
    perConfigureError c hz.toNat s = if hz = 0 then some .value else none := by
  rw [perConfigureError, if_neg (Nat.not_le.2 hc)]
  exact if_congr (BitVec.toNat_eq (y := 0)).symm rfl rfl

end TimerConfigure

theorem exec_scanConfigure (c n : Byte) (x : BitVec 16) (mode : LineMode) (hasVec : Bool) (vec : Byte) (s : State) :
    exec (.scanConfigure c n x mode hasVec vec) s = whenConfig s fun u =>
      configure (scanConfigureError c.toNat x.toNat u) (.scanConfigure c n x mode hasVec vec) u
        { u with scanEntries := u.scanEntries ++ [⟨x.toNat, c.toNat, n.toNat, mode, hasVec, vec⟩] } := rfl

theorem exec_perConfigure (c n : Byte) (x : BitVec 16) (mode : LineMode) (hasVec : Bool) (vec : Byte) (s : State) :
    exec (.perConfigure c n x mode hasVec vec) s = whenConfig s fun u =>
      configure (perConfigureError c.toNat x.toNat u) (.perConfigure c n x mode hasVec vec) u
        { u with perTimers := u.perTimers ++ [⟨c.toNat, n.toNat, mode, hasVec, vec, x.toNat, 0⟩] } := rfl

/-! ## PER.TICK -/

theorem exec_perTick (j : Byte) (s : State) : exec (.perTick j) s = execPerTick j s := rfl

theorem exec_perTick_of_none {j : Byte} (hrun : s.phase = .run) (hj : s.perTimers.length ≤ j.toNat) :
    exec (.perTick j) s = .refused (.noSuchTimer j.toNat) := by
  rw [exec_perTick, execPerTick, whenRun_of_run hrun]
  simp only [List.getElem?_eq_none_iff.2 hj]

theorem exec_perTick_of_entry {j : Byte} {e : PerTimer} (hrun : s.phase = .run)
    (he : s.perTimers[j.toNat]? = some e) :
    exec (.perTick j) s = .next (lineSet e.cpu e.line e.mode (vecOf e.hasVec e.vec)
      { s with
        out := Output.empty
        perTimers := s.perTimers.set j.toNat { e with ticks := e.ticks + 1 } }) := by
  rw [exec_perTick, execPerTick, whenRun_of_run hrun]
  simp only [he, List.modify_eq_set_getElem?]
  rfl

/-! ## SCAN.ADVANCE -/

theorem nextScanline_scanV (s : State) :
    s.nextScanline.scanV = if s.scanV = s.scanLines - 1 then 0 else s.scanV + 1 := by
  unfold State.nextScanline
  split <;> rfl

theorem nextScanline_scanF (s : State) :
    s.nextScanline.scanF = if s.scanV = s.scanLines - 1 then s.scanF + 1 else s.scanF := by
  unfold State.nextScanline
  split <;> rfl

theorem unchanged_nextScanline (s : State) : Unchanged s s.nextScanline [.raster] := by
  rw [nextScanline_eq]
  exact unchanged_raster s _ _

/-- The entry is one for scanline `v` and line `n` of CPU `c`. -/
def ScanEntry.isFor (v c n : Nat) (e : ScanEntry) : Bool := e.scanline == v && e.cpu == c && e.line == n

/-- The record of a line that the entry has raised (43_coordinator.md R210, R218). -/
def ScanEntry.raised (e : ScanEntry) : LineRec := ⟨e.mode, e.hasVec, if e.hasVec then e.vec else 0⟩

theorem line_fireScanEntry {e : ScanEntry} (hcpu : e.cpu < s.ncpu) (hmode : e.mode ≠ .clear) (c n : Nat) :
    (fireScanEntry s e).line c n = if e.isFor s.scanV c n = true then e.raised else s.line c n := by
  unfold fireScanEntry
  by_cases hv : e.scanline = s.scanV
  · rw [if_pos hv, lineIs_lineSet hcpu, lineRecOf_vecOf hmode]
    simp [ScanEntry.isFor, ScanEntry.raised, hv, eq_comm (a := c), eq_comm (a := n)]
  · rw [if_neg hv, if_neg (by simp [ScanEntry.isFor, hv])]

/-- Each line takes what the last of the entries for it says: an entry overwrites those before it. -/
theorem line_foldl_fireScanEntry {es : List ScanEntry} (hes : ∀ e ∈ es, e.cpu < s.ncpu ∧ e.mode ≠ .clear)
    (c n : Nat) : (es.foldl fireScanEntry s).line c n =
      ((es.filter (ScanEntry.isFor s.scanV c n)).getLast?.map ScanEntry.raised).getD (s.line c n) := by
  induction es using List.reverseRecOn with
  | nil => rfl
  | append_singleton es e ih =>
    obtain ⟨hcpu, hmode⟩ := hes e (by simp)
    have before := ih fun d hd => hes d (by simp [hd])
    have hf := scan_unchanged es s
    have hraster : (es.foldl fireScanEntry s).scanV = s.scanV := (hf .raster (by simp)).1
    have hncpu : (es.foldl fireScanEntry s).ncpu = s.ncpu := (hf .busSetup (by simp)).1
    rw [List.foldl_append, List.foldl_cons, List.foldl_nil, line_fireScanEntry (hncpu ▸ hcpu) hmode, hraster, before,
      List.filter_append]
    by_cases he : e.isFor s.scanV c n = true
    · simp [he]
    · simp [he]

/-- The fabric after a step of the scanline timer. -/
def State.scanAdvanced (s : State) : State :=
  s.scanEntries.foldl fireScanEntry (State.nextScanline { s with out := Output.empty })

theorem exec_scanAdvance (hrun : s.phase = .run) : exec .scanAdvance s = .next s.scanAdvanced :=
  whenRun_of_run (f := fun u => .next (u.scanEntries.foldl fireScanEntry u.nextScanline)) hrun

theorem scanAdvanced_scanV (s : State) :
    s.scanAdvanced.scanV = if s.scanV = s.scanLines - 1 then 0 else s.scanV + 1 := by
  obtain ⟨hv, -⟩ := scan_unchanged s.scanEntries (State.nextScanline { s with out := Output.empty }) .raster (by simp)
  exact hv.trans (nextScanline_scanV _)

theorem scanAdvanced_scanF (s : State) :
    s.scanAdvanced.scanF = if s.scanV = s.scanLines - 1 then s.scanF + 1 else s.scanF := by
  obtain ⟨-, hf⟩ := scan_unchanged s.scanEntries (State.nextScanline { s with out := Output.empty }) .raster (by simp)
  exact hf.trans (nextScanline_scanF _)

theorem scanAdvanced_frame (s : State) :
    HandsOut s.scanAdvanced .none ∧ Unchanged s s.scanAdvanced [.raster, .lines, .out] := by
  have hnext := unchanged_nextScanline { s with out := Output.empty }
  have hscan := scan_unchanged s.scanEntries (State.nextScanline { s with out := Output.empty })
  constructor
  · have hout : s.scanAdvanced.out = Output.empty := (hscan .out (by simp)).trans (hnext .out (by simp))
    rw [HandsOut, hout]
    exact ⟨rfl, rfl, rfl⟩
  · exact ((unchanged_out s _).mono (by simp)).trans ((hnext.mono (by simp)).trans (hscan.mono (by simp)))

theorem line_scanAdvanced (hes : ∀ e ∈ s.scanEntries, e.cpu < s.ncpu ∧ e.mode ≠ .clear) (c n : Nat) :
    s.scanAdvanced.line c n = ((s.scanEntries.filter (ScanEntry.isFor s.scanAdvanced.scanV c n)).getLast?.map
      ScanEntry.raised).getD (s.line c n) := by
  have hnext := unchanged_nextScanline { s with out := Output.empty }
  have hncpu : (State.nextScanline { s with out := Output.empty }).ncpu = s.ncpu := (hnext .busSetup (by simp)).1
  have hline : (State.nextScanline { s with out := Output.empty }).line c n = s.line c n := hnext .lines (by simp) c n
  rw [scanAdvanced_scanV, ← hline, ← nextScanline_scanV { s with out := Output.empty }]
  exact line_foldl_fireScanEntry (by rwa [hncpu]) c n

/-! ## The raster over many steps -/

/-- The fabric runs with `lines` scanlines, and the raster stands `count` steps after scanline 0 of frame 0. -/
def RasterAt (s : State) (lines count : Nat) : Prop :=
  s.phase = .run ∧ s.scanLines = lines ∧ s.scanV < lines ∧ s.scanF * lines + s.scanV = count

section Raster

variable {lines count : Nat}

theorem RasterAt.scanV (h : RasterAt s lines count) : s.scanV = count % lines := by
  obtain ⟨-, -, hlt, rfl⟩ := h
  rw [Nat.mul_add_mod', Nat.mod_eq_of_lt hlt]

theorem RasterAt.advance (h : RasterAt s lines count) :
    ∃ t, exec .scanAdvance s = .next t ∧ RasterAt t lines (count + 1) := by
  obtain ⟨hrun, rfl, hlt, rfl⟩ := h
  obtain ⟨-, hf⟩ := scanAdvanced_frame s
  refine ⟨_, exec_scanAdvance hrun, (hf .phase (by simp)).trans hrun, (hf .scanSetup (by simp)).1, ?_⟩
  rw [scanAdvanced_scanV, scanAdvanced_scanF]
  by_cases hlast : s.scanV = s.scanLines - 1
  · rw [if_pos hlast, if_pos hlast, Nat.add_one_mul]
    omega
  · rw [if_neg hlast, if_neg hlast]
    omega

theorem RasterAt.advances (h : RasterAt s lines count) (j : Nat) :
    ∃ t, runOps (List.replicate j .scanAdvance) s = .next t ∧ RasterAt t lines (count + j) := by
  induction j generalizing s count with
  | zero => exact ⟨s, rfl, h⟩
  | succ j ih =>
    obtain ⟨u, hu, hcount⟩ := h.advance
    obtain ⟨t, ht, hcounts⟩ := ih hcount
    exact ⟨t, runOps_cons_next.2 ⟨u, hu, ht⟩, by rwa [Nat.add_right_comm] at hcounts⟩

/-- Which scanline the last of `j` steps enters. -/
theorem enters_iff (hrun : s.phase = .run) (hlt : s.scanV < s.scanLines) (j v : Nat) :
    (∃ t, runOps (List.replicate j .scanAdvance) s = .next t ∧ t.scanV = v) ↔
      (s.scanV + j) % s.scanLines = v := by
  obtain ⟨u, hu, hcount⟩ := RasterAt.advances ⟨hrun, rfl, hlt, rfl⟩ j
  have hv : u.scanV = (s.scanV + j) % s.scanLines := by rw [hcount.scanV, Nat.add_assoc, Nat.mul_add_mod']
  rw [← hv]
  refine ⟨fun ⟨t, ht, htv⟩ => ?_, fun h => ⟨u, hu, h⟩⟩
  cases ht.symm.trans hu
  exact htv

/-- Counting on from `a`, one of the next `n` numbers leaves the remainder `v`. -/
theorem exists_mod_eq_iff {a v n : Nat} (ha : a < n) (hv : v < n) :
    ∃ k < n, ∀ j < n, (a + (j + 1)) % n = v ↔ j = k := by
  refine ⟨if a < v then v - (a + 1) else v + n - (a + 1), by split <;> omega, fun j hj => ?_⟩
  obtain hlt | hle := Nat.lt_or_ge (a + (j + 1)) n
  · rw [Nat.mod_eq_of_lt hlt]
    split <;> omega
  · rw [Nat.mod_eq_sub_mod hle, Nat.mod_eq_of_lt (by omega)]
    split <;> omega

end Raster

end Sys2Proof.Machine

namespace Sys2Proof.Proofs

open Sys2Proof.Machine Sys2Proof.Laws

/-- Settles O38: logging that the line was already clear makes no difference to the line, which is cleared. -/
theorem lineClearEffect : Obligations.LineClearEffect := by
  intro s c n
  refine ⟨rfl, fun hphase => (exec_lineClear c n s).trans (whenRun_of_ne hphase),
    exec_of_noCpu (exec_lineClear c n s), fun hrun hc => ?_⟩
  obtain ⟨t, ht, hline, hout, hf⟩ := exec_of_changesLine (exec_lineClear c n s) hrun hc
    (changesLine_lineSet_emitIf (s := { s with out := Output.empty }) hc _ n.toNat .clear none)
  refine ⟨t, ht, hline, ?_, hout, hf⟩
  rintro rfl
  have hreset : t.line c.toNat resetLine = LineRec.cleared := (hline c.toNat resetLine).trans (if_pos ⟨rfl, rfl⟩)
  rw [State.held, hreset]
  rfl

/-- Settles O39: each of the three is `LineSet` with its own level. -/
theorem lineRaiseEffect : Obligations.LineRaiseEffect := by
  intro s c n hasVec vec i m hrun hi
  have hexec : exec i s = onCpu c s (lineSet c.toNat n.toNat m (vecOf hasVec vec)) := by
    obtain ⟨rfl, rfl⟩ | ⟨rfl, rfl⟩ | ⟨rfl, rfl⟩ := hi <;> rfl
  have hm : m ≠ .clear := by
    obtain ⟨-, rfl⟩ | ⟨-, rfl⟩ | ⟨-, rfl⟩ := hi <;> simp
  rw [← lineRecOf_vecOf hm]
  exact ⟨exec_of_noCpu hexec hrun, fun hc => exec_of_changesLine hexec hrun hc
    (changesLine_lineSet (s := { s with out := Output.empty }) hc _ _ _)⟩

/-- Settles O40: the table of a CPU's lines is canonical, so that its entries are what its lines read as. -/
theorem cpuPollEffect : Obligations.CpuPollEffect := by
  intro s c hrun
  refine ⟨exec_cpuPoll_of_noCpu hrun, fun hc hlines => ?_⟩
  have hcpu : s.cpus[c.toNat]? = some s.cpus[c.toNat] := List.getElem?_eq_getElem hc
  refine ⟨_, _, exec_cpuPoll_of_cpu hrun hcpu, ⟨rfl, rfl, rfl⟩, fun n r => ?_,
    line_dropPulses (s := { s with out := Output.empty }) hlines c.toNat, ?_⟩
  · rw [line_of_cpu hcpu]
    exact mem_pollSnapshot (wf_lines hlines hcpu)
  · exact ((unchanged_out s _).mono (by simp)).trans
      (((unchanged_pulses _ _).mono (by simp)).trans ((unchanged_withResult _ _).mono (by simp)))

/-- Settles O41: a line at HOLD is cleared like by LINE.CLEAR, and any other is left with the record it has. -/
theorem cpuIackEffect : Obligations.CpuIackEffect := by
  intro s c n hrun
  exact ⟨exec_of_noCpu (exec_cpuIack c n s) hrun, fun hc => exec_of_changesLine (exec_cpuIack c n s) hrun hc
    (changesLine_iack (s := { s with out := Output.empty }) hc n.toNat)⟩

/-- Settles O42: each error is one outcome of the checks, and an entry that passes them ends its list. -/
theorem timerConfigureEffect : Obligations.TimerConfigureEffect := by
  intro s c n x mode hasVec vec hconfig
  have raisesScan {code : ErrCode} (he : scanConfigureError c.toNat x.toNat s = some code) :
      Raises (.scanConfigure c n x mode hasVec vec) s code := raises_of_configure (exec_scanConfigure ..) hconfig he
  have raisesPer {code : ErrCode} (he : perConfigureError c.toNat x.toNat s = some code) :
      Raises (.perConfigure c n x mode hasVec vec) s code := raises_of_configure (exec_perConfigure ..) hconfig he
  refine ⟨fun hc => ⟨raisesScan (scanConfigureError_of_noCpu hc), raisesPer (perConfigureError_of_noCpu hc)⟩,
    fun hc hx => raisesScan (by rw [scanConfigureError_of_cpu hc, if_pos hx]), ?hz, ?scan, ?per⟩
  case hz =>
    rintro hc rfl
    exact raisesPer (by rw [perConfigureError_of_cpu hc, if_pos rfl])
  case scan =>
    intro hc hx
    have passes : scanConfigureError c.toNat x.toNat s = none := by
      rw [scanConfigureError_of_cpu hc, if_neg (Nat.not_le.2 hx)]
    refine ⟨_, exec_of_configure (exec_scanConfigure ..) hconfig passes, rfl, rfl, ⟨rfl, rfl, rfl⟩, ?_⟩
    exact ((unchanged_out s _).mono (by simp)).trans ((unchanged_scanEntries _ _).mono (by simp))
  case per =>
    intro hc hx
    have passes : perConfigureError c.toNat x.toNat s = none := by
      rw [perConfigureError_of_cpu hc, if_neg hx]
    refine ⟨_, exec_of_configure (exec_perConfigure ..) hconfig passes, rfl, ⟨rfl, rfl, rfl⟩, ?_⟩
    exact ((unchanged_out s _).mono (by simp)).trans ((unchanged_perTimers _ _).mono (by simp))

/-- Settles O43: of the entries for a line at the new scanline, each overwrites those before it. -/
theorem scanAdvanceEffect : Obligations.ScanAdvanceEffect := by
  intro s hrun hes
  obtain ⟨hout, hf⟩ := scanAdvanced_frame s
  refine ⟨_, exec_scanAdvance hrun, scanAdvanced_scanV s, scanAdvanced_scanF s, fun c n => ?_, hout, hf⟩
  rw [line_scanAdvanced hes]
  unfold ScanEntry.isFor
  split
  next e he => rw [he]; rfl
  next he => rw [he]; rfl

/-- Settles O44: the entry counts its tick, and then its line operation is one on a CPU that exists. -/
theorem perTickEffect : Obligations.PerTickEffect := by
  intro s j hrun
  refine ⟨exec_perTick_of_none hrun, fun e he hcpu hmode => ?_⟩
  refine ⟨_, exec_perTick_of_entry hrun he, rfl, ?_, ⟨rfl, rfl, rfl⟩, ?_⟩
  · rw [← lineRecOf_vecOf hmode]
    exact lineIs_lineSet hcpu e.line e.mode _
  · exact ((unchanged_out s _).mono (by simp)).trans
      (((unchanged_perTimers { s with out := Output.empty } _).mono (by simp)).trans
        ((unchanged_lineSet _ _ _ _ _).mono (by simp)))

/-- Settles O45: the steps of a frame count the scanlines on by one each, modulo their number. -/
theorem frameEntersEachScanlineOnce : Obligations.FrameEntersEachScanlineOnce := by
  intro s hrun hraster
  have hlt := rasterOk_iff.1 hraster
  refine ⟨fun v hv => ?_, ?_⟩
  · obtain ⟨k, hk, hone⟩ := exists_mod_eq_iff hlt hv
    exact ⟨k, hk, (enters_iff hrun hlt _ _).2 ((hone k hk).2 rfl),
      fun j hj hj' => (hone j hj).1 ((enters_iff hrun hlt _ _).1 hj')⟩
  · obtain ⟨t, ht, hcount⟩ := RasterAt.advances ⟨hrun, rfl, hlt, rfl⟩ s.scanLines
    have hv : t.scanV = s.scanV := by
      rw [hcount.scanV, Nat.add_mod_right, Nat.mul_add_mod', Nat.mod_eq_of_lt hlt]
    refine ⟨t, ht, hv, ?_⟩
    obtain ⟨-, -, -, hsum⟩ := hcount
    refine Nat.eq_of_mul_eq_mul_right (Nat.zero_lt_of_lt hlt) ?_
    rw [Nat.add_one_mul]
    omega

end Sys2Proof.Proofs
end

section
/-! The peripheral adapter: the checks of PORT.CONFIGURE (44_peripheral.md R250), the port operations as they are issued
(R251 to R258), the edges of P0 (R259), and which operations leave the P0 shadow alone (R255). -/

namespace Sys2Proof.Machine

open Sys2Proof.Laws

variable {s t u : State} {w : PortWiring}

/-! ## The wiring and the shadows -/

/-- Beside the parts that a frame leaves out, the wiring and the four shadows are the same. -/
theorem unchanged_ports {but : List Part} {c : Option PortWiring} {a0 a1 a2 a3 : Byte}
    (hc : .pcfg ∉ but → c = s.pcfg) (h0 : .p0 ∉ but → a0 = s.p0) (h1 : .p1 ∉ but → a1 = s.p1)
    (h2 : .p2 ∉ but → a2 = s.p2) (h3 : .p3 ∉ but → a3 = s.p3) :
    Unchanged s { s with pcfg := c, p0 := a0, p1 := a1, p2 := a2, p3 := a3 } but := by
  intro p hp
  cases p with
  | pcfg => exact hc hp
  | p0 => exact h0 hp
  | p1 => exact h1 hp
  | p2 => exact h2 hp
  | p3 => exact h3 hp
  | memory | ldv | lines => exact fun _ _ => rfl
  | regionSetup | banks | latches | snaps => exact fun _ => rfl
  | busSetup => exact ⟨rfl, fun _ _ => rfl⟩
  | raster | scanSetup => exact ⟨rfl, rfl⟩
  | _ => rfl

theorem unchanged_p0 (s : State) (v : Byte) : Unchanged s { s with p0 := v } [.p0] :=
  unchanged_ports (fun _ => rfl) (by simp) (fun _ => rfl) (fun _ => rfl) fun _ => rfl

theorem unchanged_p1 (s : State) (v : Byte) : Unchanged s { s with p1 := v } [.p1] :=
  unchanged_ports (fun _ => rfl) (fun _ => rfl) (by simp) (fun _ => rfl) fun _ => rfl

theorem unchanged_p2 (s : State) (v : Byte) : Unchanged s { s with p2 := v } [.p2] :=
  unchanged_ports (fun _ => rfl) (fun _ => rfl) (fun _ => rfl) (by simp) fun _ => rfl

theorem unchanged_p3 (s : State) (v : Byte) : Unchanged s { s with p3 := v } [.p3] :=
  unchanged_ports (fun _ => rfl) (fun _ => rfl) (fun _ => rfl) (fun _ => rfl) (by simp)

/-! ## PORT.CONFIGURE -/

/-- The latches and the CPUs that a wiring names exist (44_peripheral.md R250). -/
def State.reaches (s : State) (w : PortWiring) : Prop :=
  s.hasLatch w.outLatch = true ∧ s.hasLatch w.inLatch = true ∧ w.rstCpu.toNat < s.ncpu ∧ w.mcu.toNat < s.ncpu

/-- The bits that a wiring names can have the roles it gives them (44_peripheral.md R250). -/
def rolesApart (w : PortWiring) : Prop :=
  w.p2selLo.toNat ≤ 6 ∧ w.p3selLo.toNat ≤ 6 ∧ (port0Bits w).Nodup ∧ 4 ≤ w.inpBit.toNat ∧ 4 ≤ w.outpBit.toNat ∧
    w.inpBit ≠ w.outpBit

theorem reaches_iff : s.reaches w ↔ ¬((Table.get s.latches w.outLatch.toNat).isNone ∨
    (Table.get s.latches w.inLatch.toNat).isNone ∨ s.ncpu ≤ w.rstCpu.toNat ∨ s.ncpu ≤ w.mcu.toNat) := by
  simp only [State.reaches, State.hasLatch, not_or, Bool.not_eq_true, Nat.not_le, Option.isNone_eq_false_iff]

theorem rolesApart_iff : rolesApart w ↔ ¬(6 < w.p2selLo.toNat ∨ 6 < w.p3selLo.toNat) ∧ (port0Bits w).Nodup ∧
    ¬(w.inpBit.toNat < 4 ∨ w.outpBit.toNat < 4 ∨ w.inpBit = w.outpBit) := by
  simp only [rolesApart, not_or, Nat.not_lt, and_assoc, ne_eq]

theorem portConfigureError_of_dup (hw : s.pcfg.isSome = true) : portConfigureError w s = some .dup := if_pos hw

theorem portConfigureError_of_missing (hw : s.pcfg = none) (hunits : ¬s.reaches w) :
    portConfigureError w s = some .unit := by
  rw [portConfigureError, if_neg (by simp [hw]), if_pos (not_not.1 (mt reaches_iff.2 hunits))]

/-- A first wiring whose units exist is checked for its bits only. -/
theorem portConfigureError_of_reaches (hw : s.pcfg = none) (hunits : s.reaches w) [Decidable (rolesApart w)] :
    portConfigureError w s = if rolesApart w then none else some .value := by
  rw [portConfigureError, if_neg (by simp [hw]), if_neg (reaches_iff.1 hunits)]
  simp only [rolesApart_iff]
  by_cases hsel : 6 < w.p2selLo.toNat ∨ 6 < w.p3selLo.toNat
  · simp only [hsel, if_true, not_true, false_and, if_false]
  · by_cases hbits : (port0Bits w).Nodup
    · simp only [hsel, hbits, if_false, not_true, not_false_eq_true, true_and, ite_not]
    · simp only [hsel, hbits, if_false, not_false_eq_true, if_true, false_and, and_false]

theorem exec_portConfigure (w : PortWiring) (s : State) :
    exec (.portConfigure w) s = whenConfig s fun u =>
      configure (portConfigureError w u) (.portConfigure w) u
        { u with pcfg := some w, p0 := 0, p1 := 0, p2 := 0, p3 := 0 } := rfl

/-! ## The port operations, as they are issued -/

section Exec

variable {f : PortWiring → State → Res}

theorem onPorts_of_none (hrun : s.phase = .run) (hw : s.pcfg = none) : onPorts s f = .refused .noPeripheral := by
  rw [onPorts, whenRun_of_run hrun]
  simp only [hw]

theorem onPorts_of_some (hrun : s.phase = .run) (hw : s.pcfg = some w) :
    onPorts s f = f w { s with out := Output.empty } := by
  rw [onPorts, whenRun_of_run hrun]
  simp only [hw]

/-- All a port operation can do: what it does with the wiring there is. -/
theorem onPorts_next (h : onPorts s f = .next t) :
    ∃ w, s.pcfg = some w ∧ f w { s with out := Output.empty } = .next t := by
  obtain ⟨hrun, -⟩ := whenRun_next.1 h
  obtain hw | ⟨w, hw⟩ := Option.eq_none_or_eq_some s.pcfg
  · simp [onPorts_of_none hrun hw] at h
  · exact ⟨w, hw, (onPorts_of_some hrun hw).symm.trans h⟩

theorem exec_p0Read (s : State) : exec .p0Read s = onPorts s fun _ u => giveByte (u.p0, u) := rfl

theorem exec_p1Read (s : State) :
    exec .p1Read s = onPorts s fun w u => andThen (latchRead w.inLatch.toNat u) giveByte := rfl

theorem exec_p2Read (s : State) : exec .p2Read s = onPorts s fun w u => giveByte (port2Byte w u) := rfl

/-- The bytes of the two DIP sources in turn, and the state after both. -/
def dipBytes (w : PortWiring) (s : State) : Byte × Byte × State :=
  let a := externByte (.dip w.dip0.toNat) s
  let b := externByte (.dip w.dip1.toNat) a.2
  (a.1, b.1, b.2)

theorem exec_p3Read (s : State) : exec .p3Read s = onPorts s fun w u =>
    andThen (latchPending w.inLatch.toNat (dipBytes w u).2.2) fun i =>
    andThen (latchPending w.outLatch.toNat i.2) fun o =>
    giveByte (port3Byte w u.p0 (dipBytes w u).1 (dipBytes w u).2.1 i.1 o.1, o.2) := rfl

theorem exec_p0Write (v : Byte) (s : State) : exec (.p0Write v) s = execP0Write v s := rfl

theorem exec_p1Write (v : Byte) (s : State) : exec (.p1Write v) s = onPorts s fun _ u => .next { u with p1 := v } := rfl

theorem exec_p2Write (v : Byte) (s : State) : exec (.p2Write v) s = onPorts s fun _ u => .next { u with p2 := v } := rfl

theorem exec_p3Write (v : Byte) (s : State) : exec (.p3Write v) s = onPorts s fun w u =>
    .next (lineSet w.rstCpu.toNat resetLine (if v.getLsbD w.rstBit.toNat = w.rstActive then .assert else .clear) none
      { u with p3 := v }) := rfl

/-- P0.READ hands out its shadow and does nothing else (44_peripheral.md R255). -/
theorem exec_p0Read_effect (hrun : s.phase = .run) (hw : s.pcfg = some w) :
    ∃ t, exec .p0Read s = .next t ∧ HandsOut t (.byte s.p0) ∧ Unchanged s t [.out] := by
  rw [exec_p0Read, onPorts_of_some hrun hw]
  exact ⟨_, rfl, ⟨rfl, rfl, rfl⟩, (unchanged_out s _).trans (unchanged_withResult _ _)⟩

end Exec

/-! ## A start and a reset -/

theorem exec_sysStart (hconfig : s.phase = .config) :
    exec .sysStart s = .next { State.clearRunState { s with out := Output.empty } with phase := .run } :=
  whenConfig_of_config (f := fun u => .next { u.clearRunState with phase := .run }) hconfig

theorem exec_sysReset (hrun : s.phase = .run) :
    exec .sysReset s = .next (State.clearRunState { s with out := Output.empty }).redraw.restartAll :=
  whenRun_of_run (f := fun u => .next u.clearRunState.redraw.restartAll) hrun

/-! ## The selectors, and P2.READ -/

/-- The two bits of P0 from bit `lo` on, as a number (44_peripheral.md R257, R258). -/
theorem selector_eq (p0 : Byte) (lo : BitVec 3) : selector p0 lo = (p0.toNat / 2 ^ lo.toNat) % 4 := by
  rw [selector, BitVec.toNat_and, BitVec.toNat_ushiftRight, Nat.shiftRight_eq_div_pow]
  exact Nat.and_two_pow_sub_one_eq_mod _ 2

/-- The wiring gives selector value `sel` the input source `src` (44_peripheral.md R257). -/
def inputSource (w : PortWiring) (sel : Nat) (src : Byte) : Prop :=
  (sel = 0 ∧ src = w.p2src0) ∨ (sel = 1 ∧ src = w.p2src1) ∨ (sel = 2 ∧ src = w.p2src2)

theorem exists_inputSource {sel : Nat} (h : sel < 3) : ∃ src, inputSource w sel src := by
  obtain rfl | rfl | rfl : sel = 0 ∨ sel = 1 ∨ sel = 2 := by omega
  · exact ⟨_, .inl ⟨rfl, rfl⟩⟩
  · exact ⟨_, .inr (.inl ⟨rfl, rfl⟩)⟩
  · exact ⟨_, .inr (.inr ⟨rfl, rfl⟩)⟩

theorem port2Byte_of_source {src : Byte} (h : inputSource w (selector s.p0 w.p2selLo) src) :
    port2Byte w s = externByte (.input src.toNat) s := by
  obtain ⟨hsel, rfl⟩ | ⟨hsel, rfl⟩ | ⟨hsel, rfl⟩ := h <;> simp only [port2Byte, hsel]

theorem port2Byte_of_noSource (h : selector s.p0 w.p2selLo = 3) : port2Byte w s = drawByte .port2 s := by
  simp only [port2Byte, h]

/-- Whatever the selector, a P2 read changes only what the outside world has still to hand over. -/
theorem port2Byte_frame (w : PortWiring) (s : State) :
    SameOut s (port2Byte w s).2 ∧ Unchanged s (port2Byte w s).2 [.extIn, .draws] := by
  obtain hlt | h3 : selector s.p0 w.p2selLo < 3 ∨ selector s.p0 w.p2selLo = 3 := by
    rw [selector_eq]
    omega
  · obtain ⟨src, hsrc⟩ := exists_inputSource (w := w) hlt
    rw [port2Byte_of_source hsrc]
    exact (externByte_effect _ s).2.2
  · rw [port2Byte_of_noSource h3]
    exact ⟨⟨rfl, rfl, rfl⟩, (unchanged_draws s _).mono (by simp)⟩

/-! ## P3.READ -/

theorem getLsbD_setBit (v : Byte) {k i : Nat} (hi : i < 8) (p : Bool) :
    (setBit v k p).getLsbD i = if i = k then p else v.getLsbD i := by
  obtain hlt | rfl | hgt := Nat.lt_trichotomy i k
  · simp [setBit, hi, hlt, hlt.ne]
  · simp [setBit, hi]
  · have hk : i - k ≠ 0 := by omega
    simp [setBit, hi, hgt.ne', Nat.not_lt.2 hgt.le, hk]

/-- The switch bits are packed like the flags of a status register. -/
theorem dipNibble_eq (d0 d1 : Byte) (sel : Nat) : dipNibble d0 d1 sel =
    statusByte (d0.getLsbD sel) (d0.getLsbD (sel + 4)) (d1.getLsbD sel) (d1.getLsbD (sel + 4)) := rfl

theorem getLsbD_dipNibble (d0 d1 : Byte) (sel i : Nat) : (dipNibble d0 d1 sel).getLsbD i =
    if i = 0 then d0.getLsbD sel
    else if i = 1 then d0.getLsbD (sel + 4)
    else if i = 2 then d1.getLsbD sel
    else if i = 3 then d1.getLsbD (sel + 4)
    else false := by
  obtain ⟨hlt, h0, h1, h2, h3⟩ := statusByte_bits (d0.getLsbD sel) (d0.getLsbD (sel + 4)) (d1.getLsbD sel)
    (d1.getLsbD (sel + 4))
  rw [dipNibble_eq]
  match i with
  | 0 => exact h0
  | 1 => exact h1
  | 2 => exact h2
  | 3 => exact h3
  | j + 4 => exact Nat.testBit_lt_two_pow (hlt.trans_le (Nat.pow_le_pow_right Nat.two_pos (Nat.le_add_left 4 j)))

/-- The bits of a P3 read (44_peripheral.md R258). -/
theorem getLsbD_port3Byte (hne : w.inpBit ≠ w.outpBit) (p0 x y : Byte) (p q : Bool) {i : Nat} (hi : i < 8) :
    (port3Byte w p0 x y p q).getLsbD i =
      if i = w.inpBit.toNat then p
      else if i = w.outpBit.toNat then q
      else (dipNibble (~~~x) (~~~y) (selector p0 w.p3selLo)).getLsbD i := by
  have hne' : w.inpBit.toNat ≠ w.outpBit.toNat := fun h => hne (BitVec.eq_of_toNat_eq h)
  rw [port3Byte, getLsbD_setBit _ hi, getLsbD_setBit _ hi]
  split
  next hout => rw [if_neg (hout ▸ hne'.symm)]
  next => rfl

theorem dipBytes_frame (w : PortWiring) (s : State) :
    SameOut s (dipBytes w s).2.2 ∧ Unchanged s (dipBytes w s).2.2 [.extIn, .draws] := by
  obtain ⟨-, -, hout0, hf0⟩ := externByte_effect (.dip w.dip0.toNat) s
  obtain ⟨-, -, hout1, hf1⟩ := externByte_effect (.dip w.dip1.toNat) (externByte (.dip w.dip0.toNat) s).2
  exact ⟨hout0.trans hout1, hf0.trans hf1⟩

/-- P3.READ with both latches configured: its byte is made of the two DIP bytes and the two flags. -/
theorem exec_p3Read_of_latches {kin kout : Latch} (hrun : s.phase = .run) (hw : s.pcfg = some w)
    (hin : Table.get s.latches w.inLatch.toNat = some kin) (hout : Table.get s.latches w.outLatch.toNat = some kout)
    {x y : Byte} (hdip : dipBytes w { s with out := Output.empty } = (x, y, u)) :
    exec .p3Read s = giveByte (port3Byte w s.p0 x y kin.pending kout.pending, u) := by
  obtain ⟨-, hf⟩ := dipBytes_frame w { s with out := Output.empty }
  rw [hdip] at hf
  have hlatches : ∀ l, Table.get u.latches l = Table.get s.latches l := hf .latches (by simp)
  have hflagIn := latchPending_next.2 ⟨kin, (hlatches _).trans hin, rfl⟩
  have hflagOut := latchPending_next.2 ⟨kout, (hlatches _).trans hout, rfl⟩
  rw [exec_p3Read, onPorts_of_some hrun hw]
  simp only [hdip, hflagIn, hflagOut, andThen_next_left]

/-- What each source gives is what the outside world has still to hand over, byte by byte, and else a free byte of its
own (10_state.md R31; log 7). -/
theorem dipBytes_effect {x y : Byte} (h : dipBytes w s = (x, y, t)) :
    (∀ a b rest, s.extIn = a :: b :: rest → x = a ∧ y = b ∧ t.extIn = rest ∧ t.draws = s.draws) ∧
      (∀ a, s.extIn = [a] → x = a ∧ y = Config.freeByte (.dip w.dip1.toNat) s.draws ∧ t.extIn = [] ∧
        t.draws = s.draws + 1) ∧
      (s.extIn = [] → x = Config.freeByte (.dip w.dip0.toNat) s.draws ∧
        y = Config.freeByte (.dip w.dip1.toNat) (s.draws + 1) ∧ t.extIn = [] ∧ t.draws = s.draws + 2) := by
  obtain ⟨hnext0, hfree0, -⟩ := externByte_effect (.dip w.dip0.toNat) s
  obtain ⟨hnext1, hfree1, -⟩ := externByte_effect (.dip w.dip1.toNat) (externByte (.dip w.dip0.toNat) s).2
  simp only [dipBytes, Prod.mk.injEq] at h
  obtain ⟨rfl, rfl, rfl⟩ := h
  refine ⟨fun a b rest hext => ?_, fun a hext => ?_, fun hext => ?_⟩
  · obtain ⟨hx, hrest, hdraws⟩ := hnext0 a _ hext
    obtain ⟨hy, hrest', hdraws'⟩ := hnext1 b rest hrest
    exact ⟨hx, hy, hrest', hdraws'.trans hdraws⟩
  · obtain ⟨hx, hrest, hdraws⟩ := hnext0 a _ hext
    obtain ⟨hy, hrest', hdraws'⟩ := hfree1 hrest
    rw [hdraws] at hy hdraws'
    exact ⟨hx, hy, hrest', hdraws'⟩
  · obtain ⟨hx, hrest, hdraws⟩ := hfree0 hext
    obtain ⟨hy, hrest', hdraws'⟩ := hfree1 hrest
    rw [hdraws] at hy hdraws'
    exact ⟨hx, hy, hrest', hdraws'⟩

/-! ## P3.WRITE -/

/-- The record that a line has which follows a bit (44_peripheral.md R254). -/
theorem lineRecOf_assertIf (p : Prop) [Decidable p] :
    lineRecOf (if p then .assert else .clear) none = if p then ⟨.assert, false, 0⟩ else ⟨.clear, false, 0⟩ := by
  split <;> rfl

/-! ## P0.WRITE -/

theorem risingEdge_iff {old new : Byte} {k : Nat} :
    risingEdge old new k = true ↔ old.getLsbD k = false ∧ new.getLsbD k = true := by
  simp [risingEdge]

theorem fallingEdge_iff {old new : Byte} {k : Nat} :
    fallingEdge old new k = true ↔ old.getLsbD k = true ∧ new.getLsbD k = false := by
  simp [fallingEdge]

theorem LatchWritten.of_same {l : Nat} {k : Latch} {v : Byte} (h : LatchWritten u t l k v)
    (hl : Part.same s u .latches) (hn : Part.same s u .lines) : LatchWritten s t l k v := by
  obtain ⟨⟨hlatch, hother⟩, hlines⟩ := h
  refine ⟨⟨hlatch, fun m hm => (hother m hm).trans (hl m)⟩, ?_⟩
  split at hlines
  next hraised => rw [if_pos hraised]; exact fun d m => by rw [hlines d m, hn d m]
  next hraised => rw [if_neg hraised]; exact Part.same_trans hn hlines

/-- A write of a latch keeps every latch there is. -/
theorem LatchWritten.exists_latch {l m : Nat} {k k' : Latch} {v : Byte} (h : LatchWritten s t l k v)
    (hm : Table.get s.latches m = some k') : ∃ k'', Table.get t.latches m = some k'' := by
  obtain ⟨⟨hlatch, hother⟩, -⟩ := h
  by_cases hml : m = l
  · exact ⟨_, hml ▸ hlatch⟩
  · exact ⟨k', (hother m hml).trans hm⟩

/-- The first half of a P0 write: the byte goes to latch `l` where the edge is there, and else nothing happens
(44_peripheral.md R251). -/
theorem send_effect {l : Nat} {k : Latch} (hk : Table.get s.latches l = some k)
    (htarget : k.hasTarget = true → k.tcpu < s.ncpu) (v : Byte) (edge : Bool) :
    ∃ t, (if edge then latchWrite l v s else .next s) = .next t ∧
      (if edge then LatchWritten s t l k v else Part.same s t .latches ∧ Part.same s t .lines) ∧
      (∀ m k', Table.get s.latches m = some k' → ∃ k'', Table.get t.latches m = some k'') ∧ SameOut s t ∧
      Unchanged s t [.latches, .lines, .out] := by
  cases edge with
  | true =>
    obtain ⟨t, ht, hwritten, hout, hf⟩ := latchWrite_effect hk htarget v
    exact ⟨t, ht, hwritten, fun _ _ => hwritten.exists_latch, hout, hf⟩
  | false => exact ⟨s, rfl, ⟨fun _ => rfl, fun _ _ => rfl⟩, fun _ k' hm => ⟨k', hm⟩, .refl s, .refl s _⟩

/-- The second half of a P0 write: latch `l` is acknowledged where the edge is there, and else nothing happens
(44_peripheral.md R251). -/
theorem acknowledge_effect {l : Nat} {k : Latch} (hk : Table.get s.latches l = some k) (edge : Bool) :
    ∃ t, (if edge then latchAck l s else .next s) = .next t ∧
      LatchCleared s t l k (edge = true ∧ k.mode = .separateAck ∧ k.pending = true) ∧ SameOut s t ∧
      Unchanged s t [.latches, .lines, .out] := by
  cases edge with
  | true => simpa using latchAck_effect hk
  | false =>
    exact ⟨s, rfl, latchCleared_not (by simp) (fun _ => rfl) (fun _ _ => rfl), .refl s, .refl s _⟩

/-- The fabric with the byte in the P0 shadow and nothing handed out, which may log that the write makes no edge. -/
def State.port0Written (s : State) (w : PortWiring) (v : Byte) : State :=
  State.emitIf { s with out := Output.empty, p0 := v }
    (!risingEdge s.p0 v w.outBit.toNat && !fallingEdge s.p0 v w.ackBit.toNat)

theorem port0Written_frame (s : State) (w : PortWiring) (v : Byte) :
    SameOut { s with out := Output.empty } (s.port0Written w v) ∧ Unchanged s (s.port0Written w v) [.p0, .out] :=
  ⟨SameOut.trans ⟨rfl, rfl, rfl⟩ (sameOut_emitIf _ _),
    ((unchanged_out s _).mono (by simp)).trans
      (((unchanged_p0 { s with out := Output.empty } v).mono (by simp)).trans ((unchanged_emitIf _ _).mono (by simp)))⟩

theorem exec_p0Write_of_some {v : Byte} (hrun : s.phase = .run) (hw : s.pcfg = some w) :
    exec (.p0Write v) s =
      andThen (if risingEdge s.p0 v w.outBit.toNat then latchWrite w.outLatch.toNat s.p1 (s.port0Written w v)
        else .next (s.port0Written w v)) fun u =>
      if fallingEdge s.p0 v w.ackBit.toNat then latchAck w.inLatch.toNat u else .next u := by
  rw [exec_p0Write, execP0Write, onPorts_of_some hrun hw]
  rfl

/-! ## The P0 shadow under the other operations -/

theorem p0_giveByte {p : Byte × State} (h : giveByte p = .next t) : t.p0 = p.2.p0 := by
  rw [next_eq.1 h]
  rfl

theorem p0_whenRun {f : State → Res} (h : whenRun s f = .next t) (hf : ∀ u, f u = .next t → t.p0 = u.p0) :
    t.p0 = s.p0 := hf { s with out := Output.empty } (whenRun_next.1 h).2

theorem p0_onCpu {c : Byte} {f : State → State} (h : onCpu c s f = .next t) (hf : ∀ u, (f u).p0 = u.p0) :
    t.p0 = s.p0 := by
  refine p0_whenRun h fun u hu => ?_
  split at hu
  · rw [next_eq.1 hu]
    exact hf u
  · simp at hu

theorem p0_onPorts {f : PortWiring → State → Res} (h : onPorts s f = .next t)
    (hf : ∀ w u, f w u = .next t → t.p0 = u.p0) : t.p0 = s.p0 := by
  obtain ⟨w, -, ht⟩ := onPorts_next h
  exact hf w { s with out := Output.empty } ht

theorem p0_writeTarget {g : Target} {off : Nat} {v : Byte} (h : writeTarget g off v s = .next t) : t.p0 = s.p0 := by
  cases g with
  | kMem region roff => exact regionWrite_unchanged h .p0 (by simp)
  | kBank bank => exact bankWrite_unchanged h .p0 (by simp)
  | kLatchData latch => exact latchWrite_unchanged h .p0 (by simp)
  | kLatchAck latch => exact latchAck_unchanged h .p0 (by simp)
  | kBankSel bank shift mask => exact bankSelect_unchanged h .p0 (by simp)
  | kStatus | kLine | kLineBit | kInput | kSink => rw [next_eq.1 h]; rfl

theorem p0_readOp {sp : Space} {c : Byte} {addr : Word32} (h : exec (readOp sp c addr) s = .next t) :
    t.p0 = s.p0 := by
  rw [exec_readOp] at h
  obtain ⟨p, hp, ht⟩ := andThen_next.1 (whenRun_next.1 h).2
  rw [p0_giveByte ht]
  obtain ⟨b, -, ⟨-, rfl⟩ | ⟨e, off, q, -, hq, rfl⟩⟩ := busRead_next.1 hp
  · rfl
  · exact (readTarget_frame hq).2 .p0 (by simp)

theorem p0_writeOp {sp : Space} {c v : Byte} {addr : Word32} (h : exec (writeOp sp c addr v) s = .next t) :
    t.p0 = s.p0 := by
  rw [exec_writeOp] at h
  obtain ⟨b, -, ⟨-, rfl⟩ | ⟨e, off, u, -, hu, rfl⟩⟩ := busWrite_next.1 (whenRun_next.1 h).2
  · rfl
  · rw [setLdv_p0, p0_writeTarget hu]

theorem p0_configured {wf : Bool} (h : Configured wf s t) : t.p0 = s.p0 ∨ t.p0 = 0 := by
  cases h with
  | ports | start => exact .inr rfl
  | range => rw [bindTarget_eq]; exact .inl rfl
  | _ => exact .inl rfl

/-- A run-time operation leaves the P0 shadow alone, but for P0.WRITE, SYS.RESET and SYS.RESTORE. -/
theorem p0_of_run {i : Instr} (hp : phaseOf i = .run) (h : exec i s = .next t) (hwrite : ∀ v, i ≠ .p0Write v)
    (hreset : i ≠ .sysReset) (hrestore : ∀ slot, i ≠ .sysRestore slot) : t.p0 = s.p0 := by
  cases i with
  | sysReset => exact absurd rfl hreset
  | sysRestore slot => exact absurd rfl (hrestore slot)
  | p0Write v => exact absurd rfl (hwrite v)
  | busRead c addr => exact p0_readOp (sp := .mem) h
  | ioRead c addr => exact p0_readOp (sp := .io) h
  | busWrite c addr v => exact p0_writeOp (sp := .mem) h
  | ioWrite c addr v => exact p0_writeOp (sp := .io) h
  | bankSelect b index => exact p0_whenRun h fun u hu => bankSelect_unchanged hu .p0 (by simp)
  | bankWrite b off v => exact p0_whenRun h fun u hu => bankWrite_unchanged hu .p0 (by simp)
  | latchWrite l v => exact p0_whenRun h fun u hu => latchWrite_unchanged hu .p0 (by simp)
  | latchAck l => exact p0_whenRun h fun u hu => latchAck_unchanged hu .p0 (by simp)
  | lineAssert | linePulse | lineHold => exact p0_onCpu h fun _ => rfl
  | lineClear c n =>
    rw [exec_lineClear] at h
    exact p0_onCpu h fun u => emitIf_p0 _ _
  | cpuIack c n =>
    rw [exec_cpuIack] at h
    exact p0_onCpu h fun u => by split <;> rfl
  | bankRead b off =>
    have h : execBankRead b off s = .next t := h
    refine p0_whenRun h fun u hu => ?_
    obtain ⟨p, hread, ht⟩ := andThen_next.1 hu
    rw [p0_giveByte ht, updates_bankRead hread]
  | latchRead l =>
    rw [exec_latchRead] at h
    refine p0_whenRun h fun u hu => ?_
    obtain ⟨p, hread, ht⟩ := andThen_next.1 hu
    exact (p0_giveByte ht).trans (latchRead_unchanged hread .p0 (by simp))
  | latchPendingR l =>
    rw [exec_latchPendingR] at h
    refine p0_whenRun h fun u hu => ?_
    obtain ⟨p, hflag, ht⟩ := andThen_next.1 hu
    rw [next_eq.1 ht, withResult_p0, latchPending_state hflag]
  | sysSave slot =>
    have h : execSysSave slot s = .next t := h
    exact p0_whenRun h fun u hu => by rw [next_eq.1 hu]
  | cpuPoll c =>
    rw [exec_cpuPoll] at h
    refine p0_whenRun h fun u hu => ?_
    split at hu
    · simp at hu
    · rw [next_eq.1 hu]; rfl
  | scanAdvance =>
    have h : execScanAdvance s = .next t := h
    refine p0_whenRun h fun u hu => ?_
    rw [next_eq.1 hu, scan_unchanged _ _ .p0 (by simp)]
    exact unchanged_nextScanline u .p0 (by simp)
  | perTick j =>
    rw [exec_perTick] at h
    refine p0_whenRun h fun u hu => ?_
    split at hu
    · simp at hu
    · rw [next_eq.1 hu]; rfl
  | p0Read =>
    rw [exec_p0Read] at h
    exact p0_onPorts h fun w u hu => p0_giveByte (p := (u.p0, u)) hu
  | p1Read =>
    rw [exec_p1Read] at h
    refine p0_onPorts h fun w u hu => ?_
    obtain ⟨p, hread, ht⟩ := andThen_next.1 hu
    exact (p0_giveByte ht).trans (latchRead_unchanged hread .p0 (by simp))
  | p2Read =>
    rw [exec_p2Read] at h
    exact p0_onPorts h fun w u hu => (p0_giveByte hu).trans ((port2Byte_frame w u).2 .p0 (by simp))
  | p3Read =>
    rw [exec_p3Read] at h
    refine p0_onPorts h fun w u hu => ?_
    obtain ⟨p, hin, hu⟩ := andThen_next.1 hu
    obtain ⟨q, hout, ht⟩ := andThen_next.1 hu
    rw [p0_giveByte ht, latchPending_state hout, latchPending_state hin]
    exact (dipBytes_frame w u).2 .p0 (by simp)
  | p1Write v =>
    rw [exec_p1Write] at h
    exact p0_onPorts h fun w u hu => by rw [next_eq.1 hu]
  | p2Write v =>
    rw [exec_p2Write] at h
    exact p0_onPorts h fun w u hu => by rw [next_eq.1 hu]
  | p3Write v =>
    rw [exec_p3Write] at h
    exact p0_onPorts h fun w u hu => by rw [next_eq.1 hu, lineSet_p0]
  | _ => simp [phaseOf] at hp

/-- A shadow of 0 stays 0 under every operation but P0.WRITE and SYS.RESTORE (44_peripheral.md R255; log 29). -/
theorem p0_eq_zero_of_exec {i : Instr} (hzero : s.p0 = 0) (h : exec i s = .next t) (hwrite : ∀ v, i ≠ .p0Write v)
    (hrestore : ∀ slot, i ≠ .sysRestore slot) : t.p0 = 0 := by
  rcases phaseOf_cases i with hp | hp
  · obtain hkeep | hclear := p0_configured (exec_configured hp h)
    · exact hkeep.trans hzero
    · exact hclear
  · by_cases hreset : i = .sysReset
    · subst hreset
      have h : execSysReset s = .next t := h
      rw [next_eq.1 (whenRun_next.1 h).2]
      rfl
    · exact (p0_of_run hp h hwrite hreset hrestore).trans hzero

end Sys2Proof.Machine

namespace Sys2Proof.Proofs

open Sys2Proof.Machine Sys2Proof.Laws

/-- Settles O46: each error is one outcome of the checks, and a wiring that passes them is entered with the shadows
cleared. -/
theorem portConfigureEffect : Obligations.PortConfigureEffect := by
  intro s w hconfig units bits values
  have raises {code : ErrCode} (he : portConfigureError w s = some code) : Raises (.portConfigure w) s code :=
    raises_of_configure (exec_portConfigure w s) hconfig he
  classical
  refine ⟨fun hw => raises (portConfigureError_of_dup hw), fun hw hunits => ?unit, fun hw hunits hvalues => ?value,
    fun hw hunits hvalues => ?made⟩
  case unit => exact raises (portConfigureError_of_missing hw hunits)
  case value =>
    have hroles : ¬rolesApart w := hvalues
    exact raises (by rw [portConfigureError_of_reaches hw hunits, if_neg hroles])
  case made =>
    have hroles : rolesApart w := hvalues
    have passes : portConfigureError w s = none := by
      rw [portConfigureError_of_reaches hw hunits, if_pos hroles]
    refine ⟨_, exec_of_configure (exec_portConfigure w s) hconfig passes, rfl, rfl, rfl, rfl, rfl, ⟨rfl, rfl, rfl⟩, ?_⟩
    exact ((unchanged_out s _).mono (by simp)).trans
      (unchanged_ports (by simp) (by simp) (by simp) (by simp) (by simp))

/-- Settles O47: a start or a reset clears the shadow that the read then gives, and of the other operations only
P0.WRITE and SYS.RESTORE can give it a value. -/
theorem p0ReadEffect : Obligations.P0ReadEffect := by
  intro s
  refine ⟨rfl, fun hphase => (exec_p0Read s).trans (whenRun_of_ne hphase),
    fun hrun hw => (exec_p0Read s).trans (onPorts_of_none hrun hw), fun w => exec_p0Read_effect,
    fun w hw => ⟨fun hconfig => ?start, fun hrun => ?reset⟩, fun i t => p0_eq_zero_of_exec⟩
  case start =>
    obtain ⟨t, ht, hout, -⟩ := exec_p0Read_effect (w := w)
      (s := { State.clearRunState { s with out := Output.empty } with phase := .run }) rfl hw
    exact ⟨t, runOps_cons_next.2 ⟨_, exec_sysStart hconfig, runOps_cons_next.2 ⟨t, ht, rfl⟩⟩, hout⟩
  case reset =>
    obtain ⟨t, ht, hout, -⟩ := exec_p0Read_effect (w := w)
      (s := (State.clearRunState { s with out := Output.empty }).redraw.restartAll) hrun hw
    exact ⟨t, runOps_cons_next.2 ⟨_, exec_sysReset hrun, runOps_cons_next.2 ⟨t, ht, rfl⟩⟩, hout⟩

/-- Settles O49: a selector below 3 names a source of the outside world, and 3 draws a free byte. -/
theorem p2ReadEffect : Obligations.P2ReadEffect := by
  intro s w hrun hw
  obtain ⟨hout, hf⟩ := port2Byte_frame w { s with out := Output.empty }
  refine ⟨_, _, (exec_p2Read s).trans (onPorts_of_some hrun hw), hout.withResult _, ?_, ?_⟩
  · rintro sel hsel
    rw [← selector_eq] at hsel
    subst hsel
    refine ⟨fun hne x rest hext => ?taken, fun src hsrc hext => ?drawn, fun hsel => ?free⟩
    case taken =>
      have hlt : selector s.p0 w.p2selLo < 4 := by
        rw [selector_eq]
        exact Nat.mod_lt _ (by decide)
      obtain ⟨src, hsrc⟩ := exists_inputSource (w := w) (show selector s.p0 w.p2selLo < 3 by omega)
      rw [port2Byte_of_source (s := { s with out := Output.empty }) hsrc]
      exact (externByte_effect _ _).1 x rest hext
    case drawn =>
      rw [port2Byte_of_source (s := { s with out := Output.empty }) hsrc]
      exact (externByte_effect _ _).2.1 hext
    case free =>
      rw [port2Byte_of_noSource (s := { s with out := Output.empty }) hsel]
      exact ⟨rfl, rfl, rfl⟩
  · exact ((unchanged_out s _).mono (by simp)).trans
      ((hf.mono (by simp)).trans ((unchanged_withResult _ _).mono (by simp)))

/-- Settles O50: the byte is made bit by bit of the two inverted DIP bytes and the two flags. -/
theorem p3ReadEffect : Obligations.P3ReadEffect := by
  intro s w kin kout hrun hw hin hout hne _ _
  obtain ⟨x, y, u, hdip⟩ : ∃ x y u, dipBytes w { s with out := Output.empty } = (x, y, u) := ⟨_, _, _, rfl⟩
  obtain ⟨hsame, hf⟩ := dipBytes_frame w { s with out := Output.empty }
  rw [hdip] at hsame hf
  obtain ⟨hnext, hlast, hfree⟩ := dipBytes_effect hdip
  refine ⟨_, ~~~x, ~~~y, _, exec_p3Read_of_latches hrun hw hin hout hdip, hsame.withResult _, fun a b rest hext => ?_,
    fun a hext => ?_, fun hext => ?_, ?bits, ?frame⟩
  · obtain ⟨rfl, rfl, hrest⟩ := hnext a b rest hext
    exact ⟨rfl, rfl, hrest⟩
  · obtain ⟨rfl, rfl, hrest⟩ := hlast a hext
    exact ⟨rfl, rfl, hrest⟩
  · obtain ⟨rfl, rfl, hrest⟩ := hfree hext
    exact ⟨rfl, rfl, hrest⟩
  case bits =>
    intro sel hsel i hi
    rw [hsel, ← selector_eq, getLsbD_port3Byte hne _ _ _ _ _ hi, getLsbD_dipNibble]
  case frame =>
    exact ((unchanged_out s _).mono (by simp)).trans
      ((hf.mono (by simp)).trans ((unchanged_withResult _ _).mono (by simp)))

/-- Settles O51: the send leaves the state in which the inbound latch, be it the outbound one or not, is
acknowledged. -/
theorem p0WriteEffect : Obligations.P0WriteEffect := by
  intro s w kin kout v hrun hw hin hout htarget
  obtain ⟨hsame, hf⟩ := port0Written_frame s w v
  have hlatches : ∀ l, Table.get (s.port0Written w v).latches l = Table.get s.latches l := hf .latches (by simp)
  have hncpu : (s.port0Written w v).ncpu = s.ncpu := (hf .busSetup (by simp)).1
  obtain ⟨m, hm, hsent, hkept, hsameM, hfM⟩ := send_effect ((hlatches _).trans hout) (hncpu ▸ htarget) s.p1
    (risingEdge s.p0 v w.outBit.toNat)
  obtain ⟨kin', hkin'⟩ := hkept _ kin ((hlatches _).trans hin)
  obtain ⟨t, ht, hcleared, hsameT, hfT⟩ := acknowledge_effect hkin' (fallingEdge s.p0 v w.ackBit.toNat)
  have hp0 : t.p0 = v := (hfT .p0 (by simp)).trans ((hfM .p0 (by simp)).trans (emitIf_p0 _ _))
  rw [fallingEdge_iff] at hcleared
  refine ⟨t, (exec_p0Write_of_some hrun hw).trans (andThen_next.2 ⟨m, hm, ht⟩), hp0, ⟨m, kin', ?sent, hkin', hcleared⟩,
    (hsame.trans (hsameM.trans hsameT)).handsOut, ?frame⟩
  case sent =>
    have hlines : Part.same s (s.port0Written w v) .lines := hf .lines (by simp)
    split at hsent
    next hrise => rw [if_pos (risingEdge_iff.1 hrise)]; exact hsent.of_same hlatches hlines
    next hrise =>
      obtain ⟨hl, hn⟩ := hsent
      rw [if_neg (mt risingEdge_iff.2 hrise)]
      exact ⟨Part.same_trans (p := .latches) hlatches hl, Part.same_trans hlines hn⟩
  case frame => exact (hf.mono (by simp)).trans ((hfM.mono (by simp)).trans (hfT.mono (by simp)))

/-- Settles O48: the read is one of the inbound latch (log 35). -/
theorem p1ReadEffect : Obligations.P1ReadEffect := by
  intro s w k hrun hw hk
  rw [exec_p1Read, onPorts_of_some hrun hw]
  obtain ⟨t, ht, hcleared, hout, hf⟩ := latchRead_effect (s := { s with out := Output.empty }) hk
  refine ⟨t.withResult (.byte k.value), andThen_next.2 ⟨_, ht, rfl⟩, hout.withResult _, hcleared, ?_⟩
  exact (((unchanged_out s _).mono (by simp)).trans hf).trans ((unchanged_withResult _ _).mono (by simp))

/-- Settles O52: a write stores its shadow, and without a wiring no port operation does anything. -/
theorem shadowWriteEffect : Obligations.ShadowWriteEffect := by
  intro s v hrun
  refine ⟨fun hw => ?refused, fun w hw => ⟨?p1, ?p2⟩⟩
  case refused =>
    rw [exec_p0Write, exec_p1Write, exec_p2Write, exec_p3Write, exec_p0Read, exec_p1Read, exec_p2Read, exec_p3Read,
      execP0Write]
    simp only [onPorts_of_none hrun hw, and_self]
  case p1 =>
    exact ⟨_, (exec_p1Write v s).trans (onPorts_of_some hrun hw), rfl, ⟨rfl, rfl, rfl⟩,
      ((unchanged_out s _).mono (by simp)).trans ((unchanged_p1 _ _).mono (by simp))⟩
  case p2 =>
    exact ⟨_, (exec_p2Write v s).trans (onPorts_of_some hrun hw), rfl, ⟨rfl, rfl, rfl⟩,
      ((unchanged_out s _).mono (by simp)).trans ((unchanged_p2 _ _).mono (by simp))⟩

/-- Settles O53: the line operation of the write is one on the RESET line of a CPU that exists. -/
theorem p3WriteEffect : Obligations.P3WriteEffect := by
  intro s w v hrun hw hcpu
  refine ⟨_, (exec_p3Write v s).trans (onPorts_of_some hrun hw), rfl, ?line, ⟨rfl, rfl, rfl⟩, ?frame⟩
  case line =>
    rw [← lineRecOf_assertIf]
    exact lineIs_lineSet (s := { s with out := Output.empty, p3 := v }) hcpu resetLine _ none
  case frame =>
    exact ((unchanged_out s _).mono (by simp)).trans
      (((unchanged_p3 _ _).mono (by simp)).trans ((unchanged_lineSet _ _ _ _ _).mono (by simp)))

end Sys2Proof.Proofs
end

section
/-! The host operations: the checks of REGION.DEFINE (45_system.md R280), what SYS.START and SYS.RESET clear (R281, R282),
what a snapshot holds (R283), and what restoring it puts back (R284). -/

namespace Sys2Proof.Laws

open Sys2Proof.Machine

variable {α β γ : Type}

/-! ## Lists and tables whose records take a saved value -/

/-- Where a record's part `g` is the saved value's part `h`, putting back as many values as there are records gives the
saved parts. -/
theorem map_zipWith_right {f : α → β → α} {g : α → γ} {h : β → γ} (hf : ∀ a b, g (f a b) = h b) {l : List α}
    {k : List β} (hl : k.length = l.length) : (List.zipWith f l k).map g = k.map h := by
  induction k generalizing l with
  | nil => simp
  | cons b k ih =>
    cases l with
    | nil => simp at hl
    | cons a l => simp [hf, ih (Nat.succ.inj hl)]

/-- The same entries seen through a view are entries of the same units. -/
theorem isSome_eq_of_map_eq {f : α → γ} {g : β → γ} {a : Option α} {b : Option β} (h : a.map f = b.map g) :
    a.isSome = b.isSome := by
  simpa using congrArg Option.isSome h

theorem view_eq_of_map_eq {f : α → γ} {g : β → γ} {a : Option α} {b : Option β} (h : a.map f = b.map g) {x : α} {y : β}
    (ha : a = some x) (hb : b = some y) : f x = g y := by
  subst ha hb
  exact Option.some.inj h

/-- Changing every record of `u` so that its part is that of the record of the same unit in `t` gives the parts of `t`. -/
theorem mapVals_mapVals_eq {f : Nat → α → α} {part : α → β} {t u : Table α} (ht : Table.wf t = true)
    (hu : Table.wf u = true) (hunits : ∀ n, (Table.get u n).isSome = (Table.get t n).isSome)
    (hf : ∀ n a b, Table.get t n = some b → part (f n a) = part b) :
    Table.mapVals (fun _ => part) (Table.mapVals f u) = Table.mapVals (fun _ => part) t := by
  refine wf_ext (wf_mapVals _ (wf_mapVals _ hu)) (wf_mapVals _ ht) fun n => ?_
  have hn := hunits n
  rw [get_mapVals, get_mapVals, get_mapVals]
  cases hb : Table.get t n with
  | none =>
    rw [hb, Option.isSome_none, Option.isSome_eq_false_iff, Option.isNone_iff_eq_none] at hn
    rw [hn]; rfl
  | some b =>
    rw [hb] at hn
    obtain ⟨a, ha⟩ := Option.isSome_iff_exists.1 hn
    rw [ha]
    exact congrArg some (hf n a b hb)

end Sys2Proof.Laws

namespace Sys2Proof.Machine

open Sys2Proof.Laws

variable {s t u : State} {n : Snapshot}

/-! ## The fields that only the host's operations replace -/

/-- Beside the parts that a frame leaves out, the phase, the regions, the snapshots and the CPUs that are to begin with
their poll are the same. -/
theorem unchanged_hostFields {but : List Part} {ph : Phase} {g : Table Region} {sn : Table Snapshot} {rs : List Nat}
    (hphase : .phase ∉ but → ph = s.phase) (hregions : .memory ∉ but ∨ .regionSetup ∉ but → g = s.regions)
    (hsnaps : .snaps ∉ but → sn = s.snaps) (hrestarts : .restarts ∉ but → rs = s.restarts) :
    Unchanged s { s with phase := ph, regions := g, snaps := sn, restarts := rs } but := by
  intro p hp
  cases p with
  | phase => exact hphase hp
  | memory => exact byteAt_congr (hregions (.inl hp))
  | regionSetup => intro r; rw [hregions (.inr hp)]
  | snaps => intro slot; rw [hsnaps hp]
  | restarts => exact hrestarts hp
  | ldv | lines => exact fun _ _ => rfl
  | banks | latches => exact fun _ => rfl
  | busSetup => exact ⟨rfl, fun _ _ => rfl⟩
  | raster | scanSetup => exact ⟨rfl, rfl⟩
  | _ => rfl

/-! ## REGION.DEFINE -/

section RegionDefine

variable {r : Nat} {size : Word32}

theorem regionDefineError_of_dup (hr : (Table.get s.regions r).isSome = true) :
    regionDefineError r size s = some .dup := if_pos hr

theorem regionDefineError_of_new (hr : Table.get s.regions r = none) :
    regionDefineError r size s = if size = 0 then some .value else none := by
  simp [regionDefineError, hr]

theorem exec_regionDefine (r : Byte) (mutbl : Bool) (size : Word32) (s : State) :
    exec (.regionDefine r mutbl size) s = whenConfig s fun u =>
      configure (regionDefineError r.toNat size u) (.regionDefine r mutbl size) u
        { u with regions := Table.set u.regions r.toNat ⟨size.toNat, mutbl, []⟩ } := rfl

/-- A region that nothing has written reads as the image or as memory at power-on (10_state.md R23; log 5, log 6). -/
theorem read_unwritten (size : Nat) (mutbl : Bool) (r off : Nat) :
    Region.read ⟨size, mutbl, []⟩ r off = if mutbl then Config.ramPowerOn r off else Config.romImage r off := rfl

theorem byteAt_setRegion (s : State) (r : Nat) (g : Region) (q off : Nat) :
    State.byteAt { s with regions := Table.set s.regions r g } q off =
      if q = r then (if off < g.size then some (g.read r off) else none) else s.byteAt q off := by
  unfold State.byteAt
  rw [get_set]
  by_cases hq : q = r
  · subst hq
    simp only [if_true]
  · simp only [if_neg hq]

theorem unchanged_setRegions (s : State) (g : Table Region) :
    Unchanged s { s with regions := g } [.memory, .regionSetup] :=
  unchanged_hostFields (fun _ => rfl) (by simp) (fun _ => rfl) fun _ => rfl

end RegionDefine

/-! ## SYS.START and SYS.RESET -/

theorem line_clearRunState (s : State) (c m : Nat) : s.clearRunState.line c m = LineRec.cleared := by
  rw [State.line, clearRunState_cpus, List.getElem?_map]
  cases s.cpus[c]? <;> rfl

theorem line_redraw (s : State) (c m : Nat) : s.redraw.line c m = s.line c m := by
  rw [State.line, State.line, redraw_cpus, List.getElem?_mapIdx]
  cases s.cpus[c]? <;> rfl

theorem unchanged_phase (s : State) (p : Phase) : Unchanged s { s with phase := p } [.phase] :=
  unchanged_hostFields (by simp) (fun _ => rfl) (fun _ => rfl) fun _ => rfl

theorem unchanged_clearRunState (s : State) :
    Unchanged s s.clearRunState [.latches, .lines, .p0, .p1, .p2, .p3, .raster, .timers, .out] := by
  obtain ⟨-, -, -, hncpu, hspaces, -⟩ := sameSetup_clearRunState s
  intro p hp
  cases p with
  | latches | lines | p0 | p1 | p2 | p3 | raster | timers | out => simp at hp
  | busSetup => exact ⟨hncpu, hspaces⟩
  | ldv => exact ldv?_clearRunState s
  | memory => exact fun _ _ => rfl
  | regionSetup | banks | snaps => exact fun _ => rfl
  | scanSetup => exact ⟨rfl, rfl⟩
  | _ => rfl

theorem unchanged_redraw (s : State) : Unchanged s s.redraw [.latches, .ldv, .draws] := by
  obtain ⟨-, -, -, hncpu, hspaces, -⟩ := sameSetup_redraw s
  intro p hp
  cases p with
  | latches | ldv | draws => simp at hp
  | busSetup => exact ⟨hncpu, hspaces⟩
  | lines => exact line_redraw s
  | memory => exact fun _ _ => rfl
  | regionSetup | banks | snaps => exact fun _ => rfl
  | raster | scanSetup => exact ⟨rfl, rfl⟩
  | _ => rfl

theorem unchanged_restartAll (s : State) : Unchanged s s.restartAll [.restarts] :=
  unchanged_hostFields (fun _ => rfl) (fun _ => rfl) (fun _ => rfl) (by simp)

theorem get_clearRunState_latches (s : State) (l : Nat) : Table.get s.clearRunState.latches l =
    (Table.get s.latches l).map fun k => { k with pending := false } := by
  rw [clearRunState_latches, get_mapVals]

/-- No pending flag is left by a start or a reset (45_system.md R281, R282). -/
theorem pending_clearRunState_redraw {l : Nat} {k : Latch} (h : Table.get s.clearRunState.redraw.latches l = some k) :
    k.pending = false := by
  rw [redraw_latches, get_mapVals, get_clearRunState_latches] at h
  cases hk : Table.get s.latches l with
  | none => simp [hk] at h
  | some k₀ =>
    rw [hk] at h
    exact Option.some.inj h ▸ rfl

/-! ## SYS.SAVE -/

theorem exec_sysSave (hrun : s.phase = .run) (slot : Byte) : exec (.sysSave slot) s =
    .next { s with out := Output.empty, snaps := Table.set s.snaps slot.toNat s.snapshot } :=
  whenRun_of_run (f := fun u => .next { u with snaps := Table.set u.snaps slot.toNat u.snapshot }) hrun

theorem unchanged_setSnaps (s : State) (sn : Table Snapshot) : Unchanged s { s with snaps := sn } [.snaps] :=
  unchanged_hostFields (fun _ => rfl) (fun _ => rfl) (by simp) fun _ => rfl

@[simp] theorem get_snapshot_active (s : State) (b : Nat) :
    Table.get s.snapshot.active b = (Table.get s.banks b).map fun k => k.active := by
  rw [snapshot_active, get_mapVals]

@[simp] theorem get_snapshot_latchValue (s : State) (l : Nat) :
    Table.get s.snapshot.latchValue l = (Table.get s.latches l).map fun k => k.value := by
  rw [snapshot_latchValue, get_mapVals]

@[simp] theorem get_snapshot_latchPending (s : State) (l : Nat) :
    Table.get s.snapshot.latchPending l = (Table.get s.latches l).map fun k => k.pending := by
  rw [snapshot_latchPending, get_mapVals]

/-- A snapshot has a byte string for each mutable region and for no other one (45_system.md R283). -/
theorem get_snapshot_regions (hw : Table.wf s.regions = true) (r : Nat) : Table.get s.snapshot.regions r =
    ((Table.get s.regions r).filter fun g => g.mutbl).map fun g => ⟨g.size, g.bytes⟩ := by
  rw [snapshot_regions, get_mapVals, get_filter_of_wf _ hw]

/-! ## SYS.RESTORE -/

theorem exec_sysRestore (slot : Byte) (s : State) : exec (.sysRestore slot) s = execSysRestore slot s := rfl

theorem exec_sysRestore_of_none {slot : Byte} (hrun : s.phase = .run) (hn : Table.get s.snaps slot.toNat = none) :
    exec (.sysRestore slot) s = .refused (.noSnapshot slot.toNat) := by
  rw [exec_sysRestore, execSysRestore, whenRun_of_run hrun]
  simp only [hn]

theorem exec_sysRestore_of_some {slot : Byte} (hrun : s.phase = .run) (hn : Table.get s.snaps slot.toNat = some n) :
    exec (.sysRestore slot) s = if n.fits s = true then .next (State.restore { s with out := Output.empty } n)
      else .refused (.snapshotMisfit slot.toNat) := by
  rw [exec_sysRestore, execSysRestore, whenRun_of_run hrun]
  simp only [hn]
  rfl

theorem byteAt_restore_mutable {r off : Nat} {g : Region} {saved : RegionSnap} (hg : Table.get s.regions r = some g)
    (hm : g.mutbl = true) (hsaved : Table.get n.regions r = some saved) (hoff : off < g.size) :
    (s.restore n).byteAt r off = some ((Table.get saved.bytes off).getD (Config.ramPowerOn r off)) := by
  simp only [State.byteAt, restore_regions, get_mapVals, hg, Option.map_some, hsaved, hm, if_true, hoff, Region.read]
  cases Table.get saved.bytes off <;> rfl

theorem byteAt_restore_immutable {r : Nat} {g : Region} (hg : Table.get s.regions r = some g) (hm : g.mutbl = false)
    (off : Nat) : (s.restore n).byteAt r off = s.byteAt r off := by
  simp only [State.byteAt, restore_regions, get_mapVals, hg, Option.map_some, hm]
  cases Table.get n.regions r <;> rfl

/-- A CPU takes its saved last decoded values and its saved lines (45_system.md R284). -/
theorem restore_cpu (hf : n.fits s = true) {c : Nat} {cs : CpuSnap} (hcs : n.cpus[c]? = some cs) :
    (s.restore n).ldv? c .mem = some cs.ldvMem ∧ (s.restore n).ldv? c .io = some cs.ldvIo ∧
      ∀ m, (s.restore n).line c m = lineOf cs.lines m := by
  obtain ⟨-, -, hlen, -⟩ := fits_conditions hf
  have hc : c < s.cpus.length := hlen ▸ (List.getElem?_eq_some_iff.1 hcs).1
  have hcpu : s.cpus[c]? = some s.cpus[c] := List.getElem?_eq_getElem hc
  simp [State.ldv?, State.space?, State.line, List.getElem?_zipWith, hcpu, hcs, Cpu.space]

theorem restore_ticks (hf : n.fits s = true) : (s.restore n).perTimers.map (fun e => e.ticks) = n.ticks := by
  obtain ⟨-, -, -, -, hticks⟩ := fits_conditions hf
  rw [restore_perTimers, map_zipWith_right (h := id) (fun _ _ => by rfl) hticks, List.map_id]

theorem unchanged_restore (hf : n.fits s = true) : Unchanged s (s.restore n)
    [.memory, .banks, .latches, .ldv, .lines, .p0, .p1, .p2, .p3, .raster, .timers, .restarts] := by
  obtain ⟨hregions, -, -, hncpu, hspaces, -⟩ := sameSetup_restore hf
  intro p hp
  cases p with
  | memory | banks | latches | ldv | lines | p0 | p1 | p2 | p3 | raster | timers | restarts => simp at hp
  | regionSetup => exact hregions
  | busSetup => exact ⟨hncpu, hspaces⟩
  | snaps => exact fun _ => rfl
  | scanSetup => exact ⟨rfl, rfl⟩
  | _ => rfl

/-! ## Saving, restoring and saving again -/

/-- Regions of the same configuration are mutable alike. -/
theorem any_mutbl_of_setup {a b : Option Region} (h : a.map Region.setup = b.map Region.setup) :
    (a.any fun g => g.mutbl) = b.any fun g => g.mutbl := by
  simpa [Option.any_map, Region.setup, Function.comp_def] using congrArg (Option.any Prod.snd) h

theorem wf_snapshot_regions (hw : Table.wf s.regions = true) : Table.wf s.snapshot.regions = true := by
  rw [snapshot_regions]
  exact wf_mapVals _ (wf_filter hw _)

theorem isSome_get_snapshot_regions (hw : Table.wf s.regions = true) (r : Nat) :
    (Table.get s.snapshot.regions r).isSome = (Table.get s.regions r).any fun g => g.mutbl := by
  rw [get_snapshot_regions hw, Option.isSome_map]
  cases Table.get s.regions r with
  | none => rfl
  | some g => cases hm : g.mutbl <;> simp [Option.filter, hm]

/-- A snapshot fits every state of the configuration it was made under (45_system.md R284). -/
theorem snapshot_fits (hs : s.tablesOk = true) (hu : u.tablesOk = true) (hbanks : s.banksOk = true)
    (hraster : s.rasterOk = true) (h : SameSetup s u) : s.snapshot.fits u = true := by
  obtain ⟨hwr, -⟩ := tablesOk_iff.1 hs
  obtain ⟨hregion, hbank, hlatch, hncpu, -, -, hlines, -, htimers⟩ := h
  refine (fits_iff hu).2 ?_
  rintro (⟨b, hb⟩ | ⟨l, hl⟩ | ⟨l, hl⟩ | ⟨r, hr⟩ | hcpus | hticks | ⟨b, k, a, hk, ha, hle⟩ | hv |
    ⟨r, g, saved, hg, hsaved, hne⟩)
  · exact hb (by simpa using (isSome_eq_of_map_eq (hbank b)).symm)
  · exact hl (by simpa using (isSome_eq_of_map_eq (hlatch l)).symm)
  · exact hl (by simpa using (isSome_eq_of_map_eq (hlatch l)).symm)
  · exact hr ((isSome_get_snapshot_regions hwr r).trans (any_mutbl_of_setup (hregion r)).symm)
  · exact hcpus (by simpa [State.ncpu] using hncpu.symm)
  · exact hticks (by simpa using (congrArg List.length htimers).symm)
  · rw [get_snapshot_active] at ha
    obtain ⟨k₀, hk₀, rfl⟩ := Option.map_eq_some_iff.1 ha
    have hsetup : k.setup = k₀.setup := view_eq_of_map_eq (hbank b) hk hk₀
    have hcount : k.count = k₀.count := (congrArg Bank.count hsetup :)
    have hlt : k₀.active < k₀.count := (bankOk_iff.1 (all_get hbanks hk₀)).1
    omega
  · rw [snapshot_scanV, hlines] at hv
    exact absurd (rasterOk_iff.1 hraster) (Nat.not_lt.2 hv)
  · rw [get_snapshot_regions hwr] at hsaved
    obtain ⟨g₀, hg₀, rfl⟩ := Option.map_eq_some_iff.1 hsaved
    have hsetup : g.setup = g₀.setup := view_eq_of_map_eq (hregion r) hg (Option.filter_eq_some_iff.1 hg₀).1
    exact hne (congrArg Prod.fst hsetup).symm

/-- Restoring the snapshot of `s` makes each mutable region what it was in `s` (45_system.md R284). -/
theorem restore_snapshot_regions (hw : Table.wf s.regions = true) (r : Nat)
    (h : (Table.get u.regions r).map Region.setup = (Table.get s.regions r).map Region.setup) :
    (Table.get (u.restore s.snapshot).regions r).filter (fun g => g.mutbl) =
      (Table.get s.regions r).filter fun g => g.mutbl := by
  rw [restore_regions, get_mapVals, get_snapshot_regions hw]
  cases hg₀ : Table.get s.regions r with
  | none =>
    rw [hg₀, Option.map_none, Option.map_eq_none_iff] at h
    rw [h]; rfl
  | some g₀ =>
    rw [hg₀] at h
    obtain ⟨⟨_, _, bytes⟩, hg, hsetup⟩ := Option.map_eq_some_iff.1 h
    obtain ⟨rfl, rfl⟩ := Prod.mk.inj hsetup
    obtain ⟨size, mutbl, bytes₀⟩ := g₀
    rw [hg]
    cases mutbl <;> rfl

/-- Restoring the snapshot of `s` in a state of the same configuration gives a state with the same snapshot. -/
theorem snapshot_restore (hs : s.tablesOk = true) (hu : u.tablesOk = true) (h : SameSetup s u)
    (hf : s.snapshot.fits u = true) : (u.restore s.snapshot).snapshot = s.snapshot := by
  obtain ⟨hwr, hwb, hwl, -⟩ := tablesOk_iff.1 hs
  obtain ⟨hwr', hwb', hwl', -⟩ := tablesOk_iff.1 hu
  obtain ⟨hregion, hbank, hlatch, -⟩ := h
  obtain ⟨-, -, hlen, -⟩ := fits_conditions hf
  have hactive : (u.restore s.snapshot).snapshot.active = s.snapshot.active := by
    rw [snapshot_active, restore_banks, snapshot_active s]
    exact mapVals_mapVals_eq hwb hwb' (fun b => isSome_eq_of_map_eq (hbank b)) fun b k k' hk' => by simp [hk']
  have hvalue : (u.restore s.snapshot).snapshot.latchValue = s.snapshot.latchValue := by
    rw [snapshot_latchValue, restore_latches, snapshot_latchValue s]
    exact mapVals_mapVals_eq hwl hwl' (fun l => isSome_eq_of_map_eq (hlatch l)) fun l k k' hk' => by simp [hk']
  have hpending : (u.restore s.snapshot).snapshot.latchPending = s.snapshot.latchPending := by
    rw [snapshot_latchPending, restore_latches, snapshot_latchPending s]
    exact mapVals_mapVals_eq hwl hwl' (fun l => isSome_eq_of_map_eq (hlatch l)) fun l k k' hk' => by simp [hk']
  have hregions : (u.restore s.snapshot).snapshot.regions = s.snapshot.regions := by
    have hwr'' : Table.wf (u.restore s.snapshot).regions = true := by
      rw [restore_regions]
      exact wf_mapVals _ hwr'
    refine wf_ext (wf_snapshot_regions hwr'') (wf_snapshot_regions hwr) fun r => ?_
    rw [get_snapshot_regions hwr'', get_snapshot_regions hwr, restore_snapshot_regions hwr r (hregion r)]
  have hcpus : (u.restore s.snapshot).snapshot.cpus = s.snapshot.cpus := by
    rw [snapshot_cpus, restore_cpus, map_zipWith_right
      (h := fun cs => ⟨cs.ldvMem, cs.ldvIo, cs.lines.filter fun e => e.2.level != .clear⟩) (fun _ _ => by rfl) hlen]
    simp [Function.comp_def]
  exact (Snapshot.mk.injEq ..).mpr
    ⟨hactive, hvalue, hpending, rfl, rfl, rfl, rfl, hregions, hcpus, rfl, rfl, restore_ticks hf, rfl⟩

end Sys2Proof.Machine

namespace Sys2Proof.Proofs

open Sys2Proof.Machine Sys2Proof.Laws

/-- Settles O12: the snapshot is a function of the present state, and its slot is the only thing written. -/
theorem sysSaveEffect : Obligations.SysSaveEffect := by
  intro s slot hrun hregions
  refine ⟨_, s.snapshot, exec_sysSave hrun slot, get_set_same _ _ _, fun m hm => get_set_other _ _ hm,
    get_snapshot_active s, get_snapshot_latchValue s, get_snapshot_latchPending s, rfl, rfl, rfl, rfl, ?bytes,
    fun c => by rw [snapshot_cpus, List.getElem?_map], rfl, rfl, rfl, rfl, ⟨rfl, rfl, rfl⟩, ?frame⟩
  case bytes =>
    intro r g hg
    rw [get_snapshot_regions hregions, hg]
    cases hm : g.mutbl <;> simp [Option.filter, hm]
  case frame =>
    exact ((unchanged_out s Output.empty).mono (by simp)).trans ((unchanged_setSnaps _ _).mono (by simp))

/-- Settles O13: where the tables are canonical a snapshot fits just if it does not misfit. -/
theorem sysRestoreEffect : Obligations.SysRestoreEffect := by
  intro s slot hrun
  refine ⟨exec_sysRestore_of_none hrun, ?misfit, ?fits⟩
  case misfit =>
    intro n hn hmisfit
    have hf : ¬n.fits s = true := by
      obtain hf | ⟨htables, hmisfits⟩ := hmisfit
      · simp [hf]
      · exact fun hf => (fits_iff htables).1 hf hmisfits
    rw [exec_sysRestore_of_some hrun hn, if_neg hf]
  case fits =>
    intro n hn hfits
    have hf : n.fits { s with out := Output.empty } = true :=
      hfits.elim id fun ⟨htables, hnot⟩ => (fits_iff htables).2 hnot
    refine ⟨_, (exec_sysRestore_of_some hrun hn).trans (if_pos hf), sameSetup_restore hf, ?banks, ?latches, rfl, rfl,
      rfl, rfl, fun r g saved off hg hm hsaved hoff => byteAt_restore_mutable hg hm hsaved hoff,
      fun r g off hg hm => byteAt_restore_immutable hg hm off, fun c cs hcs => restore_cpu hf hcs, rfl, rfl,
      restore_ticks hf, rfl, ⟨rfl, rfl, rfl⟩, ?frame⟩
    case banks =>
      intro b k a hk ha
      simp [hk, ha]
    case latches =>
      intro l k v p hk hv hp
      simp [hk, hv, hp]
    case frame => exact ((unchanged_out s _).mono (by simp)).trans ((unchanged_restore hf).mono (by simp))

/-- Settles O14: the snapshot fits, and the state that it is put back in has the same snapshot. -/
theorem saveRestoreSave : Obligations.SaveRestoreSave := by
  intro s u slot hrun hs hu hbanks hraster hsetup hn
  have hf : s.snapshot.fits { u with out := Output.empty } = true := snapshot_fits hs hu hbanks hraster hsetup
  refine ⟨_, _, (exec_sysRestore_of_some hrun hn).trans (if_pos hf),
    exec_sysSave (s := State.restore { u with out := Output.empty } s.snapshot) hrun slot, ?_⟩
  rw [get_set_same, snapshot_restore (u := { u with out := Output.empty }) hs hu hsetup hf]

theorem decode_of_encode_eq {i : Instr} {ws : List OpWord} (hw : i.wf = true) (h : encode i = ws) :
    decode ws = some (i, []) := by
  rw [← h, ← List.append_nil (encode i)]
  exact decodeOfEncode i [] hw

/-- Settles O3: each line of words is the encoding of the operation that the spec gives beside it. -/
theorem exampleWordsDecode : Obligations.ExampleWordsDecode :=
  ⟨decode_of_encode_eq (by decide) (by decide), decode_of_encode_eq (by decide) (by decide),
    decode_of_encode_eq (by decide) (by decide), decode_of_encode_eq (by decide) (by decide),
    decode_of_encode_eq (by decide) (by decide), decode_of_encode_eq (by decide) (by decide),
    decode_of_encode_eq (by decide) (by decide), decode_of_encode_eq (by decide) (by decide),
    decode_of_encode_eq (by decide) (by decide)⟩

/-- Settles O9: each error is one outcome of the checks, and a region that passes them has nothing written in it. -/
theorem regionDefineEffect : Obligations.RegionDefineEffect := by
  intro s r mutbl size hconfig
  have raises {code : ErrCode} (he : regionDefineError r.toNat size s = some code) :
      Raises (.regionDefine r mutbl size) s code := raises_of_configure (exec_regionDefine ..) hconfig he
  refine ⟨fun hr => raises (regionDefineError_of_dup hr),
    fun hr hsize => raises (by rw [regionDefineError_of_new hr, if_pos hsize]), fun hr hsize => ?_⟩
  have passes : regionDefineError r.toNat size s = none := by rw [regionDefineError_of_new hr, if_neg hsize]
  refine ⟨_, exec_of_configure (exec_regionDefine ..) hconfig passes, ?setup, ?bytes, ?others, ⟨rfl, rfl, rfl⟩, ?frame⟩
  case setup => rw [get_set_same]; rfl
  case bytes =>
    intro off
    rw [byteAt_setRegion, if_pos rfl, read_unwritten]
  case others =>
    intro q hq
    refine ⟨by rw [get_set_other _ _ hq], fun off => ?_⟩
    rw [byteAt_setRegion, if_neg hq]
    rfl
  case frame => exact ((unchanged_out s _).mono (by simp)).trans ((unchanged_setRegions _ _).mono (by simp))

/-- Settles O10: beside the phase a start changes what `State.clearRunState` says. -/
theorem sysStartEffect : Obligations.SysStartEffect := by
  intro s hconfig
  refine ⟨_, exec_sysStart hconfig, rfl, get_clearRunState_latches { s with out := Output.empty },
    line_clearRunState { s with out := Output.empty }, rfl, rfl, rfl, rfl, rfl, rfl, rfl, rfl, ?_⟩
  exact ((unchanged_out s _).mono (by simp)).trans
    (((unchanged_clearRunState _).mono (by simp)).trans ((unchanged_phase _ _).mono (by simp)))

/-- Settles O11: the values that are drawn anew are no configuration, and no line is raised by them. -/
theorem sysResetEffect : Obligations.SysResetEffect := by
  intro s hrun
  obtain ⟨-, -, hlatches, -⟩ :=
    (sameSetup_clearRunState { s with out := Output.empty }).trans (sameSetup_redraw _)
  refine ⟨_, exec_sysReset hrun, fun l => ⟨hlatches l, fun k hk => pending_clearRunState_redraw hk⟩, fun c m => ?line,
    rfl, rfl, rfl, rfl, rfl, rfl, rfl, rfl, fun c => ?restarts, ?frame⟩
  case line => exact (line_redraw _ c m).trans (line_clearRunState _ c m)
  case restarts => rw [sysReset_restarts (exec_sysReset hrun), List.mem_range]
  case frame =>
    exact ((unchanged_out s _).mono (by simp)).trans (((unchanged_clearRunState _).mono (by simp)).trans
      (((unchanged_redraw _).mono (by simp)).trans ((unchanged_restartAll _).mono (by simp))))

end Sys2Proof.Proofs
end

section
/-! The fabric's own errors: no operation does anything outside its phase (60_exceptions.md R302; 30_encoding.md
R114). -/

namespace Sys2Proof.Machine

open Sys2Proof.Laws

variable {i : Instr} {s : State}

/-! ## The operations outside their phase -/

theorem onCpu_of_ne {c : Byte} {f : State → State} (h : s.phase ≠ .run) :
    onCpu c s f = .refused (.wrongPhase s.phase) := whenRun_of_ne h

theorem onPorts_of_ne {f : PortWiring → State → Res} (h : s.phase ≠ .run) :
    onPorts s f = .refused (.wrongPhase s.phase) := whenRun_of_ne h

theorem exec_config_refused (hp : phaseOf i = .config) (h : s.phase ≠ .config) :
    exec i s = .refused (.wrongPhase s.phase) := by
  cases i with
  | sysStart | regionDefine | bankConfigure | latchConfigure | busRegisterRange | busSetPolicy | scanConfigure
  | perConfigure | portConfigure => dsimp only [exec]; exact whenConfig_of_ne h
  | _ => simp [phaseOf] at hp

/-- The run-time operations ask for their phase by themselves, or as operations on a CPU or on the ports do. -/
theorem exec_run_refused (hp : phaseOf i = .run) (h : s.phase ≠ .run) :
    exec i s = .refused (.wrongPhase s.phase) := by
  cases i with
  | sysReset | sysSave | sysRestore | bankSelect | bankRead | bankWrite | latchWrite | latchRead | latchAck
  | latchPendingR | busRead | busWrite | ioRead | ioWrite | cpuPoll | scanAdvance | perTick =>
    dsimp only [exec]; exact whenRun_of_ne h
  | lineClear | lineAssert | linePulse | lineHold | cpuIack => dsimp only [exec]; exact onCpu_of_ne h
  | p0Read | p1Read | p2Read | p3Read | p0Write | p1Write | p2Write | p3Write =>
    dsimp only [exec]; exact onPorts_of_ne h
  | _ => simp [phaseOf] at hp

end Sys2Proof.Machine

namespace Sys2Proof.Proofs

open Sys2Proof.Machine Sys2Proof.Laws

/-- Settles O6: an operation belongs to `CONFIG` or to `RUN` and asks for that phase before anything else; in `ABORTED`,
which is neither, all are refused. -/
theorem wrongPhaseRefused : Obligations.WrongPhaseRefused := by
  intro i s hphase
  rcases phaseOf_cases i with hp | hp
  · exact exec_config_refused hp (hp ▸ hphase)
  · exact exec_run_refused hp (hp ▸ hphase)

end Sys2Proof.Proofs
end
